-- ==== Sys2Proof/Word.lean ====
section
/-! DEFINITION. The two widths of the block: a command, operand, colour or result word (spec/30_encoding.md R71, R72,
R76, R79) and a byte (spec/00_scope.md R8). Every value is unsigned. -/

namespace Sys2Proof

/-- A 32-bit word of the command stream. Its width is also CLOCK_BITS, the width of the clock operand (R6, R22). -/
abbrev Word := BitVec 32

/-- Eight bits, bit 7 the most significant (R8). -/
abbrev Byte := BitVec 8

end Sys2Proof
end

