-- ==== Sys2Proof/Syntax.lean ====
section
/-! DEFINITION. The instructions, one constructor per row of spec/opcode_table.json, and what they are made of
(spec/10_state.md section 2, spec/30_encoding.md). -/

namespace Sys2Proof

/-- CFG.device (R23). -/
inductive DeviceKind where
  | threeChannel
  | fourChannelWithWhite
deriving DecidableEq, Repr

/-- CFG.order; a name lists the channels in wire order (R24, R73). -/
inductive PixelOrder where
  | grb
  | rgb
  | rbg
  | gbr
  | brg
  | bgr
deriving DecidableEq, Repr

/-- CFG.strategy (R26), with CFG.capacity where it is present (R27). -/
inductive Strategy where
  | streaming
  | prerendered (capacity : Word)
  | buffered
deriving DecidableEq, Repr

/-- CFG.reset_mode (R28). -/
inductive ResetMode where
  | byteAtATime
  | singleTransaction
deriving DecidableEq, Repr

/-- A colour, as its colour word holds it (R76); `w` is 0 for a three-channel colour. -/
structure Colour where
  r : Byte
  g : Byte
  b : Byte
  w : Byte
deriving DecidableEq, Repr

/-- A colour record of either kind, as next() hands it over (R76, R77, R154). -/
inductive ColourRecord where
  | three (r g b : Byte)
  | four (r g b w : Byte)
deriving DecidableEq, Repr

/-- The colour sequence of a WRITE, a stream with the one operation next() (R77): the colours the command words list,
or stream number `id` of the host from its position `pos` on, which may never end (R162; log 16). -/
inductive ColourSource where
  | listed (colours : List Colour)
  | stream (id pos : Nat)
deriving DecidableEq, Repr

/-- The operand fields that NEW_FIXED and NEW_TIMED share (R71). -/
structure NewFields where
  device : DeviceKind
  order : PixelOrder
  preLatch : Bool
  strategy : Strategy
  resetMode : ResetMode
deriving DecidableEq, Repr

/-- One constructor per row of spec/opcode_table.json. -/
inductive Instr where
  /-- NEW_FIXED, opcode 0x01 (R113). -/
  | newFixed (fields : NewFields)
  /-- NEW_TIMED, opcode 0x02 (R112). -/
  | newTimed (fields : NewFields) (clockHz : Word)
  /-- WRITE, opcode 0x03 (R160). -/
  | write (colours : ColourSource)
  /-- The pseudo-command NEW (R88). -/
  | new
  /-- The pseudo-command LATCH (R88). -/
  | latch
  /-- The pseudo-command BLANK n (R88). -/
  | blank (n : Nat)
  /-- One table lookup of ENC_FIXED, group 0b00 (R83). -/
  | lut00
  /-- One table lookup of ENC_FIXED, group 0b01 (R83). -/
  | lut01
  /-- One table lookup of ENC_FIXED, group 0b10 (R83). -/
  | lut10
  /-- One table lookup of ENC_FIXED, group 0b11 (R83). -/
  | lut11
  /-- One logical 0 of ENC_TIMED (R81). -/
  | timedBit0
  /-- One logical 1 of ENC_TIMED (R81). -/
  | timedBit1
  /-- One byte of a latch gap (R85). -/
  | latchByte
  /-- The dummy byte of a streaming WRITE (R169). -/
  | dummyByte
deriving DecidableEq, Repr

/-- Why a word sequence is refused by the decoder (R78). -/
inductive DecodeError where
  /-- No word at all. -/
  | noWord
  /-- An opcode other than 0x01, 0x02, 0x03. -/
  | reservedOpcode
  /-- A nonzero reserved bit: 31:16 of a NEW_* word, 31:8 of a WRITE word. -/
  | reservedBits
  /-- `order` = 6 or 7. -/
  | reservedOrder
  /-- `strategy` = 3. -/
  | reservedStrategy
  /-- A command word that is not followed by all of its operand words. -/
  | operandMissing
deriving DecidableEq, Repr

end Sys2Proof
end

