-- ==== Sys2Proof/WellFormed.lean ====
section
/-! DEFINITION. Which instructions the host can spell as command words (spec/30_encoding.md R70 to R72, R77, R88). -/

namespace Sys2Proof

/-- The rows the host issues: the commands of R70 and the pseudo-commands of R88. The others are the block's internal
sub-operations, which the host cannot issue (R70). -/
def Instr.isCommand : Instr → Bool
  | .newFixed _ => true
  | .newTimed _ _ => true
  | .write _ => true
  | .new => true
  | .latch => true
  | .blank _ => true
  | .lut00 => false
  | .lut01 => false
  | .lut10 => false
  | .lut11 => false
  | .timedBit0 => false
  | .timedBit1 => false
  | .latchByte => false
  | .dummyByte => false

/-- A count fits the 32-bit count word (R72). -/
def countFits (n : Nat) : Bool := n < 4294967296

/-- A colour source that `count` and that many colour words can spell (R77). A host stream is not spelled by words. -/
def ColourSource.spelled : ColourSource → Bool
  | .listed cs => countFits cs.length
  | .stream _ _ => false

/-- An instruction that its encoding can spell: a command by words, an internal row by its code in the table. -/
def Instr.WellFormed : Instr → Bool
  | .write cs => cs.spelled
  | .blank n => countFits n
  | .newFixed _ => true
  | .newTimed _ _ => true
  | .new => true
  | .latch => true
  | .lut00 => true
  | .lut01 => true
  | .lut10 => true
  | .lut11 => true
  | .timedBit0 => true
  | .timedBit1 => true
  | .latchByte => true
  | .dummyByte => true

end Sys2Proof
end

