-- ==== Sys2Proof/Decode.lean ====
section
/-! DEFINITION. The decoder of the command stream, total on any words and rejecting by name (spec/30_encoding.md R70 to
R78), then the encoder, written from the same tables; the codes of the internal rows; and the table-word reader. -/

namespace Sys2Proof

/-! ### Fields -/

/-- Bit 8 (R71). -/
def decodeDevice (w : Word) : DeviceKind :=
  if w.getLsbD 8 then .fourChannelWithWhite else .threeChannel

/-- Bits 11:9 (R73). -/
def decodeOrder (w : Word) : Option PixelOrder :=
  match (w.extractLsb' 9 3).toNat with
  | 0 => some .grb
  | 1 => some .rgb
  | 2 => some .rbg
  | 3 => some .gbr
  | 4 => some .brg
  | 5 => some .bgr
  | _ => none

/-- Bit 15 (R71). -/
def decodeResetMode (w : Word) : ResetMode :=
  if w.getLsbD 15 then .singleTransaction else .byteAtATime

/-- Bits 14:13, and the capacity word exactly when Prerendered (R72, R74). -/
def decodeStrategy (w : Word) (operands : List Word) : Except DecodeError (Strategy × List Word) :=
  match (w.extractLsb' 13 2).toNat with
  | 0 => .ok (.streaming, operands)
  | 1 =>
    match operands with
    | [] => .error .operandMissing
    | capacity :: rest => .ok (.prerendered capacity, rest)
  | 2 => .ok (.buffered, operands)
  | _ => .error .reservedStrategy

/-- The fields of a NEW_* word and its capacity word (R71, R72). -/
def decodeNewFields (w : Word) (operands : List Word) : Except DecodeError (NewFields × List Word) :=
  if w.extractLsb' 16 16 = 0#16 then
    match decodeOrder w with
    | none => .error .reservedOrder
    | some order =>
      match decodeStrategy w operands with
      | .error e => .error e
      | .ok (strategy, rest) =>
        .ok (⟨decodeDevice w, order, w.getLsbD 12, strategy, decodeResetMode w⟩, rest)
  else .error .reservedBits

/-- The colour word (R76). -/
def decodeColour (w : Word) : Colour where
  r := w.extractLsb' 24 8
  g := w.extractLsb' 16 8
  b := w.extractLsb' 8 8
  w := w.extractLsb' 0 8

/-! ### Commands -/

/-- NEW_FIXED: opcode 0x01, then `capacity` if Prerendered (R72). -/
def decodeNewFixed (w : Word) (operands : List Word) : Except DecodeError (Instr × List Word) :=
  match decodeNewFields w operands with
  | .error e => .error e
  | .ok (fields, rest) => .ok (.newFixed fields, rest)

/-- NEW_TIMED: opcode 0x02, then `clock_hz`, then `capacity` if Prerendered (R72). -/
def decodeNewTimed (w : Word) (operands : List Word) : Except DecodeError (Instr × List Word) :=
  match operands with
  | [] => .error .operandMissing
  | clockHz :: operands' =>
    match decodeNewFields w operands' with
    | .error e => .error e
    | .ok (fields, rest) => .ok (.newTimed fields clockHz, rest)

/-- WRITE: the whole word is 0x00000003, then `count`, then `count` colour words (R71, R72). -/
def decodeWrite (w : Word) (operands : List Word) : Except DecodeError (Instr × List Word) :=
  if w.extractLsb' 8 24 = 0#24 then
    match operands with
    | [] => .error .operandMissing
    | count :: rest =>
      if count.toNat ≤ rest.length then
        .ok (.write (.listed ((rest.take count.toNat).map decodeColour)), rest.drop count.toNat)
      else .error .operandMissing
  else .error .reservedBits

/-- The command at the head of a word sequence and the words after it, or why it is refused (R78). -/
def decode : List Word → Except DecodeError (Instr × List Word)
  | [] => .error .noWord
  | w :: operands =>
    match (w.extractLsb' 0 8).toNat with
    | 1 => decodeNewFixed w operands
    | 2 => decodeNewTimed w operands
    | 3 => decodeWrite w operands
    | _ => .error .reservedOpcode

/-! ### The internal rows' codes -/

/-- The LUT2 rows: the 2-bit group is the code (R83). -/
def lutInstr (group : BitVec 2) : Instr :=
  match group.toNat with
  | 0 => .lut00
  | 1 => .lut01
  | 2 => .lut10
  | _ => .lut11

/-- The BIT1 rows: the logical bit is the code (R81). -/
def timedBitInstr (v : Bool) : Instr :=
  if v then .timedBit1 else .timedBit0

/-! ### The encoder -/

/-- Bit 8 (R71). -/
def DeviceKind.code : DeviceKind → Word
  | .threeChannel => 0#32
  | .fourChannelWithWhite => 1#32

/-- The order code (R73). -/
def PixelOrder.code : PixelOrder → Word
  | .grb => 0#32
  | .rgb => 1#32
  | .rbg => 2#32
  | .gbr => 3#32
  | .brg => 4#32
  | .bgr => 5#32

/-- The strategy code (R74). -/
def Strategy.code : Strategy → Word
  | .streaming => 0#32
  | .prerendered _ => 1#32
  | .buffered => 2#32

/-- Bit 15 (R71). -/
def ResetMode.code : ResetMode → Word
  | .byteAtATime => 0#32
  | .singleTransaction => 1#32

/-- The operand word of a strategy (R72). -/
def Strategy.operands : Strategy → List Word
  | .streaming => []
  | .prerendered capacity => [capacity]
  | .buffered => []

/-- A NEW_* command word (R71). -/
def commandWord (opcode : Word) (f : NewFields) : Word :=
  opcode ||| f.device.code <<< 8 ||| f.order.code <<< 9 ||| (if f.preLatch then 1#32 else 0#32) <<< 12
    ||| f.strategy.code <<< 13 ||| f.resetMode.code <<< 15

/-- The colour word (R76). -/
def colourWord (c : Colour) : Word := c.r ++ c.g ++ c.b ++ c.w

/-- The count word and the words that it counts (R72). A count of 2^32 or more has no word, and does not wrap (R10). -/
def countedWords (n : Nat) (words : List Word) : List Word :=
  if countFits n then BitVec.ofNat 32 n :: words else []

/-- The words of a colour sequence: the count, then a word per colour (R72). A host stream has none (R77). -/
def colourWords : ColourSource → List Word
  | .listed cs => countedWords cs.length (cs.map colourWord)
  | .stream _ _ => []

/-- The black colour of BLANK (R88). -/
def Colour.black : Colour := ⟨0#8, 0#8, 0#8, 0#8⟩

/-- The command a pseudo-command expands to (R88); every other instruction is itself. -/
def Instr.expand : Instr → Instr
  | .new => .newFixed ⟨.threeChannel, .grb, false, .streaming, .byteAtATime⟩
  | .latch => .write (.listed [])
  | .blank n => .write (.listed (List.replicate n Colour.black))
  | .newFixed fields => .newFixed fields
  | .newTimed fields clockHz => .newTimed fields clockHz
  | .write colours => .write colours
  | .lut00 => .lut00
  | .lut01 => .lut01
  | .lut10 => .lut10
  | .lut11 => .lut11
  | .timedBit0 => .timedBit0
  | .timedBit1 => .timedBit1
  | .latchByte => .latchByte
  | .dummyByte => .dummyByte

/-- The words of a command. One that no words spell (`WellFormed`) is left without its operand words, which is no command
(R78); an internal row has no command word (R70), its code is `Instr.rowCode`. -/
def encode : Instr → List Word
  | .newFixed f => commandWord 1#32 f :: f.strategy.operands
  | .newTimed f clockHz => commandWord 2#32 f :: clockHz :: f.strategy.operands
  | .write colours => 3#32 :: colourWords colours
  | .new => [1#32]
  | .latch => [3#32, 0#32]
  | .blank n => 3#32 :: countedWords n (List.replicate n 0#32)
  | .lut00 => []
  | .lut01 => []
  | .lut10 => []
  | .lut11 => []
  | .timedBit0 => []
  | .timedBit1 => []
  | .latchByte => []
  | .dummyByte => []

/-- The number of bits of an internal row of spec/opcode_table.json and its code there; a command has words instead.
LATCH_BYTE and DUMMY_BYTE have the same eight bits: which one is meant is told by where the sequencer stands. -/
def Instr.rowCode : Instr → Option (Nat × Nat)
  | .lut00 => some (2, 0)
  | .lut01 => some (2, 1)
  | .lut10 => some (2, 2)
  | .lut11 => some (2, 3)
  | .timedBit0 => some (1, 0)
  | .timedBit1 => some (1, 1)
  | .latchByte => some (8, 0)
  | .dummyByte => some (8, 0)
  | .newFixed _ => none
  | .newTimed _ _ => none
  | .write _ => none
  | .new => none
  | .latch => none
  | .blank _ => none

/-! ### Table words -/

/-- The 32-bit words of `nbits` bits numbered as spec/opcode_table.json numbers them, then operand words of zeros: two
for a NEW_TIMED command, and as many colour words as the second word counts. -/
def tableWords (nbits w : Nat) : List Word :=
  (List.range ((nbits + 31) / 32)).map (fun k => BitVec.ofNat 32 (w / 2 ^ (32 * k)))
    ++ List.replicate (2 + w / 2 ^ 32 % 2 ^ 32) 0#32

/-- The words of `tableWords` that belong to the command at their head. -/
def tableCommandWords (nbits w : Nat) : List Word :=
  match decode (tableWords nbits w) with
  | .ok (_, rest) => (tableWords nbits w).take ((tableWords nbits w).length - rest.length)
  | .error _ => tableWords nbits w

/-- The instruction the decoder reads from a table row's bits. A row of at most 8 bits is an internal row: its code is
read as the 2-bit group of a LUT2 row (log 10). -/
def decodeTableWord (nbits w : Nat) : Option Instr :=
  if nbits ≤ 8 then
    if w < 4 then some (lutInstr (BitVec.ofNat 2 w)) else none
  else
    match decode (tableWords nbits w) with
    | .ok (i, _) => some i
    | .error _ => none

end Sys2Proof
end

