-- ==== Sys2Proof/Config.lean ====
section
/-! DEFINITION. The parameters of the block (spec/00_scope.md R6), their reference values, and the one free value of the
model, the host's colour streams. Parameters are plain data that State carries (log 1); which of them R7 admits is
`Params.valid` in Machine/Parameters.lean. -/

namespace Sys2Proof

/-- The four words of the fixed 4x table (R83), by the 2-bit group. -/
structure Lut where
  w00 : Byte
  w01 : Byte
  w10 : Byte
  w11 : Byte
deriving DecidableEq, Repr

/-- The parameters of R6. CLOCK_BITS is the width of `Word`. -/
structure Params where
  zeroHighThreshold : Nat
  oneHighThreshold : Nat
  bitPeriodThreshold : Nat
  minClockHz : Nat
  maxTotal : Nat
  fixedResetBytes : Nat
  resetUs : Nat
  lut : Lut
  dummyByte : Byte
deriving DecidableEq, Repr

/-- The reference values of R6. The thresholds, MIN_CLOCK_HZ and the table words are general knowledge, not the
source's (spec/93_implementation_defined.md G1 to G5). -/
def Params.reference : Params where
  zeroHighThreshold := 3500000
  oneHighThreshold := 1720000
  bitPeriodThreshold := 800000
  minClockHz := 2000000
  maxTotal := 28
  fixedResetBytes := 140
  resetUs := 300
  lut := ⟨0x88#8, 0x8E#8, 0xE8#8, 0xEE#8⟩
  dummyByte := 0x00#8

/-- What next() answers for stream `id` at position `pos`: the host computes it and the spec says nothing of it (R12,
R77). A free value: no proof can see it, so a claim about a stream holds of every stream: the unbounded ones
(R162), and those with colour records of the other kind (R154), which the pull refuses (log 16). -/
opaque Config.hostStream (id pos : Nat) : Option ColourRecord

end Sys2Proof
end

