-- ==== Sys2Proof/Machine/State.lean ====
section
/-! DEFINITION. The state of the block and of the two environment agents as far as a step needs them (spec/10_state.md,
spec/20_memory.md, spec/00_scope.md R12, R13), as plain data, and the state at power-on. -/

namespace Sys2Proof.Machine

/-- TP (R29). -/
structure TimingParameters where
  zeroHigh : Nat
  oneHigh : Nat
  total : Nat
  resetBytes : Nat
deriving DecidableEq, Repr

/-- CFG.encoder (R21), with CFG.clock_hz (R22) and TP (R29), which are present exactly when it is Timed. -/
inductive Encoder where
  | fixed4x
  | timed (clockHz : Word) (tp : TimingParameters)
deriving DecidableEq, Repr

/-- CFG (R21 to R28). CFG.capacity stands in the strategy. -/
structure BlockConfig where
  encoder : Encoder
  device : DeviceKind
  order : PixelOrder
  preLatch : Bool
  strategy : Strategy
  resetMode : ResetMode
deriving DecidableEq, Repr

/-- SEQ.phase (R34). -/
inductive Phase where
  | idle
  | encoding
  | preLatch
  | payload
  | postLatch
  | drain
deriving DecidableEq, Repr

/-- SEQ (R34 to R38), and the loop variables of R121, R123 and R162 that a WRITE needs between two steps. -/
structure Seq where
  /-- SEQ.phase (R34). -/
  phase : Phase
  /-- SEQ.pixel (R35). -/
  pixel : Nat
  /-- SEQ.chan (R35). -/
  chan : Nat
  /-- SEQ.sub (R35). -/
  sub : Nat
  /-- SEQ.latch_left (R35); in the Encoding phase, the bytes still to append of a latch group (R175). -/
  latchLeft : Nat
  /-- SEQ.cursor (R36). -/
  cursor : Nat
  /-- SEQ.in_flight (R37). -/
  inFlight : Nat
  /-- How many groups (ENC_FIXED) or logical bits (ENC_TIMED) of the current channel byte are encoded (R121, R123). -/
  enc : Nat
  /-- The packing accumulator: the sub-bits encoded and not yet issued, first in time first (R38). -/
  acc : List Bool
  /-- The colour pulled and not yet wholly issued (R162). -/
  colour : Option Colour
  /-- The colours not yet pulled (R77, R162). -/
  colours : ColourSource
  /-- next() has answered None (R162). -/
  ended : Bool
deriving DecidableEq, Repr

/-- BUF: bytes by index, indices strictly rising; an index that is not listed has no value (R50, R55; log 13). -/
abbrev Memory := List Host.Cell

/-- A constructed block (R20). -/
structure Block where
  cfg : BlockConfig
  seq : Seq
  buf : Memory
deriving DecidableEq, Repr

/-- A transport event (R80). -/
inductive Event where
  | send (b : Byte)
  | read
  | write (bytes : List Byte)
deriving DecidableEq, Repr

/-- What the transport does with an event it is asked about (R80, R180). The byte of `ok` is what a Read receives; for
the other events it says nothing. The error value is opaque (R79; log 6). -/
inductive Answer where
  | ok (received : Byte)
  | err (e : Nat)
  | notReady
deriving DecidableEq, Repr

/-- The final answer of an event, as the event trace lists it (R80). -/
inductive Reply where
  | ok
  | data (b : Byte)
  | err (e : Nat)
deriving DecidableEq, Repr

/-- The cause of an InvalidTiming (R109). -/
inductive TimingCause where
  | belowMinimum
  | tooManySubBits
  | invariant
deriving DecidableEq, Repr

/-- The kind of a failing transport event (R79, R180). -/
inductive EventKind where
  | send
  | read
  | write
deriving DecidableEq, Repr

/-- The result of a command (R200); `e` is the transport's own error value, passed on unchanged beside the result word
(R79). -/
inductive Result where
  | ok
  | invalidTiming (cause : TimingCause)
  | outOfBounds
  | transportError (kind : EventKind) (e : Nat)
deriving DecidableEq, Repr

/-- What the host observes of a command that has ended (R13): its result, the event trace, BUF; and the colours that it
left unconsumed (R162). -/
structure Observation where
  result : Result
  trace : List (Event × Reply)
  buf : Memory
  left : ColourSource
deriving DecidableEq, Repr

/-- The block (`none` while unconstructed, R231), the parameters it was built with (R6), what the host has still to
issue and the transport still to answer (R12), and the observation (R13). -/
structure State where
  params : Params
  block : Option Block
  cmds : List Word
  answers : List Answer
  trace : List (Event × Reply)
  observed : List Observation
deriving DecidableEq, Repr

/-- The model's own stops, none of them a result of the block (R200). -/
inductive Fault where
  /-- Every step and every meaning, under parameters that R7 or spec/93_implementation_defined.md U21 excludes (U17).
  Safe: no command runs. -/
  | badParameters
  /-- The bulk payload write, when it would read a buffer byte that nothing has written. Safe: R55 says that the block
  never does, and no state with the invariant `Inv` does. -/
  | unwrittenBufferByte
deriving DecidableEq, Repr

/-- What the block gives no meaning to. A refusal is never one of the result codes (R200). -/
inductive Refusal where
  /-- `exec`, for an instruction that the model gives no meaning yet. Safe. -/
  | notModelled (mnemonic : String)
  /-- `step`, when the host's words are no command (R78). Safe. -/
  | undecodable (e : DecodeError)
  /-- Every command, while a WRITE executes (R66). Safe. -/
  | busy
  /-- WRITE and the internal rows, while there is no block (R231). Safe. -/
  | unconstructed
  /-- WRITE, for a listed four-channel colour on a three-channel block (R78), and the pull, for a colour of the other kind
  in a host stream (R154). Safe. -/
  | colourMismatch
  /-- The internal rows, where the sequencer does not perform them: the host cannot issue them (R70). Safe. -/
  | notIssuable
deriving DecidableEq, Repr

/-- What a step or a meaning answers. -/
abbrev Out := Host.Outcome State Fault Refusal

/-- Power-on: the block is unconstructed (R231). The parameters have their reference values (log 1); the environment has
issued and answered nothing yet (log 5, 19). -/
def State.reset : State where
  params := Params.reference
  block := none
  cmds := []
  answers := []
  trace := []
  observed := []

end Sys2Proof.Machine
end

