-- ==== Sys2Proof/Machine/Operands.lean ====
section
/-! DEFINITION. The operand forms: bits, 2-bit groups and the packing of sub-bits (spec/00_scope.md R8, R9;
spec/30_encoding.md R82, R84), the table lookup, the colour stream's next(), and the lengths a configuration gives
(spec/10_state.md R31, R32; spec/42_color_sequencer.md R155). -/

namespace Sys2Proof.Machine

/-! ### Bits and packing -/

/-- Logical bit `k` of a channel byte in wire order, the most significant first: `d[7−k]` (R57, R123). -/
def logicalBit (d : Byte) (k : Nat) : Bool := d.getLsbD (7 - k)

/-- Group `k` of a channel byte, the most significant first: `d[7−2k : 6−2k]` (R84). -/
def bitGroup (d : Byte) (k : Nat) : BitVec 2 := d.extractLsb' (6 - 2 * k) 2

/-- The sub-bits of an output byte in time order: bit 7 first (R57). -/
def byteBits (b : Byte) : List Bool := (List.range 8).map (fun j => b.getLsbD (7 - j))

/-- The byte that the first eight sub-bits pack into, the first one its MSB (R9); missing ones are zeros (R124). -/
def packByte (s : List Bool) : Byte :=
  BitVec.ofNat 8 ((List.range 8).foldl (fun n j => 2 * n + (s.getD j false).toNat) 0)

/-- The first `n` bytes of a sub-bit sequence (R9). -/
def packBytes : Nat → List Bool → List Byte
  | 0, _ => []
  | n + 1, s => packByte s :: packBytes n (s.drop 8)

/-- `pack` of R9, for a sequence whose length is a multiple of 8. -/
def pack (s : List Bool) : List Byte := packBytes (s.length / 8) s

/-- The table word of a group (R83). -/
def lutWord (lut : Lut) (group : BitVec 2) : Byte :=
  match group.toNat with
  | 0 => lut.w00
  | 1 => lut.w01
  | 2 => lut.w10
  | _ => lut.w11

/-! ### The colour stream -/

/-- NCH (R155). -/
def channelCount : DeviceKind → Nat
  | .threeChannel => 3
  | .fourChannelWithWhite => 4

/-- How many channels the record has (R76). -/
def recordChannels : ColourRecord → Nat
  | .three _ _ _ => 3
  | .four _ _ _ _ => 4

/-- The record matches the device (R154). -/
def recordFits (dev : DeviceKind) (r : ColourRecord) : Bool := recordChannels r = channelCount dev

/-- The record's channels, in the form of a colour word (R76). -/
def recordColour : ColourRecord → Colour
  | .three r g b => ⟨r, g, b, 0#8⟩
  | .four r g b w => ⟨r, g, b, w⟩

/-- The record that a colour word stands for in a WRITE to this device: on a three-channel block a word with `w` other
than 0 is a four-channel colour (R76). -/
def wordRecord (dev : DeviceKind) (c : Colour) : ColourRecord :=
  match dev with
  | .threeChannel => if c.w = 0#8 then .three c.r c.g c.b else .four c.r c.g c.b c.w
  | .fourChannelWithWhite => .four c.r c.g c.b c.w

/-- The record of a colour word matches the device (R76, R154; `record_fits` in Laws/Ops.lean). -/
def Colour.fits (dev : DeviceKind) (c : Colour) : Bool :=
  match dev with
  | .threeChannel => c.w = 0#8
  | .fourChannelWithWhite => true

/-- The colours the words list are all of the device's kind (R154). Those of a host stream are not known before they are
drawn: the pull looks at each of them (log 16). -/
def sourceFits (dev : DeviceKind) : ColourSource → Bool
  | .listed cs => cs.all (Colour.fits dev)
  | .stream _ _ => true

/-- next() (R77): a colour record and the rest of the stream, or None. -/
def nextColour (dev : DeviceKind) : ColourSource → Option (ColourRecord × ColourSource)
  | .listed [] => none
  | .listed (c :: cs) => some (wordRecord dev c, .listed cs)
  | .stream id pos =>
    match Config.hostStream id pos with
    | none => none
    | some r => some (r, .stream id (pos + 1))

/-! ### Lengths -/

/-- RB, the effective reset byte count (R31). -/
def latchLength (p : Params) (cfg : BlockConfig) : Nat :=
  match cfg.encoder with
  | .fixed4x => p.fixedResetBytes
  | .timed _ tp => tp.resetBytes

/-- L, the output bytes of a channel byte (R32). -/
def encodedLength (cfg : BlockConfig) : Nat :=
  match cfg.encoder with
  | .fixed4x => 4
  | .timed _ tp => tp.total

/-- How many iterations the encoder's loop has: four groups (R121) or eight logical bits (R123). -/
def encoderUnits (cfg : BlockConfig) : Nat :=
  match cfg.encoder with
  | .fixed4x => 4
  | .timed _ _ => 8

/-- The capacity that bounds BUF; only Prerendered has one (R27, R181). -/
def bufferCapacity (cfg : BlockConfig) : Option Nat :=
  match cfg.strategy with
  | .streaming => none
  | .prerendered capacity => some capacity.toNat
  | .buffered => none

/-- SingleTransaction (R28). -/
def isSingle (cfg : BlockConfig) : Bool :=
  match cfg.resetMode with
  | .byteAtATime => false
  | .singleTransaction => true

/-- The Streaming strategy (R26). -/
def isStreaming (cfg : BlockConfig) : Bool :=
  match cfg.strategy with
  | .streaming => true
  | .prerendered _ => false
  | .buffered => false

/-- The Buffered strategy (R26). -/
def isBuffered (cfg : BlockConfig) : Bool :=
  match cfg.strategy with
  | .streaming => false
  | .prerendered _ => false
  | .buffered => true

end Sys2Proof.Machine
end

