-- ==== Sys2Proof/Machine/Parameters.lean ====
section
/-! DEFINITION. Which parameters the model admits (spec/00_scope.md R7, spec/93_implementation_defined.md U17, U21). -/

namespace Sys2Proof.Machine

/-- The high sub-bits of a nibble that is a run of high sub-bits and then a run of low ones, each with at least one;
`none` for any other nibble (U21). -/
def nibbleHigh (n : BitVec 4) : Option Nat :=
  match n.toNat with
  | 8 => some 1
  | 12 => some 2
  | 14 => some 3
  | _ => none

/-- The nibbles that encode a logical 0: the high nibble for the first bit of the group, the low one for the second
(R83). -/
def zeroNibbles (lut : Lut) : List (BitVec 4) :=
  [lut.w00.extractLsb' 4 4, lut.w00.extractLsb' 0 4, lut.w01.extractLsb' 4 4, lut.w10.extractLsb' 0 4]

/-- The nibbles that encode a logical 1 (R83). -/
def oneNibbles (lut : Lut) : List (BitVec 4) :=
  [lut.w01.extractLsb' 0 4, lut.w10.extractLsb' 4 4, lut.w11.extractLsb' 4 4, lut.w11.extractLsb' 0 4]

/-- More high sub-bits in the nibble of a 1 than in the nibble of a 0 (U21). -/
def longerHigh (zero one : BitVec 4) : Bool :=
  match nibbleHigh zero, nibbleHigh one with
  | some h0, some h1 => h0 < h1
  | _, _ => false

/-- A conforming table: every nibble well shaped, and every nibble of a 1 longer high than every nibble of a 0 (U21;
log 2). -/
def lutConforms (lut : Lut) : Bool :=
  (zeroNibbles lut).all fun zero => (oneNibbles lut).all fun one => longerHigh zero one

/-- The parameters R7 admits, with a conforming table. -/
def paramsValid (p : Params) : Bool :=
  0 < p.zeroHighThreshold && 0 < p.oneHighThreshold && 0 < p.bitPeriodThreshold && 1 ≤ p.minClockHz
    && 2 ≤ p.maxTotal && lutConforms p.lut

end Sys2Proof.Machine
end

