-- ==== Sys2Proof/Machine/Timing.lean ====
section
/-! DEFINITION. TIMING_DERIVE (spec/40_timing_model.md R100 to R110) and the invariant of the timing parameters
(spec/10_state.md R30). -/

namespace Sys2Proof.Machine

/-- `zero_high` (R102). -/
def deriveZeroHigh (p : Params) (clock : Nat) : Nat := max 1 (clock / p.zeroHighThreshold)

/-- `one_high`: floor, then + 1, the exact quotient too (R103, 90_conflicts.md C3). -/
def deriveOneHigh (p : Params) (clock : Nat) : Nat := clock / p.oneHighThreshold + 1

/-- `total`, with the one adjustment when it equals `one_high` (R104, R105). -/
def deriveTotal (p : Params) (clock : Nat) : Nat :=
  let total := clock / p.bitPeriodThreshold + 1
  if total = deriveOneHigh p clock then total + 1 else total

/-- `ceil_div` (R10). -/
def ceilDiv (a b : Nat) : Nat := (a + b - 1) / b

/-- `reset_bytes` (R108). -/
def deriveResetBytes (p : Params) (clock : Nat) : Nat := ceilDiv (p.resetUs * clock) 8000000

/-- TIMING_DERIVE: the checks in the order of R109, the first that fails deciding the cause (R100). -/
def timingDerive (p : Params) (clock : Nat) : Except TimingCause TimingParameters :=
  if clock < p.minClockHz then .error .belowMinimum
  else if p.maxTotal < deriveTotal p clock then .error .tooManySubBits
  else if 1 ≤ deriveZeroHigh p clock ∧ deriveZeroHigh p clock ≤ deriveOneHigh p clock
      ∧ deriveOneHigh p clock < deriveTotal p clock then
    .ok ⟨deriveZeroHigh p clock, deriveOneHigh p clock, deriveTotal p clock, deriveResetBytes p clock⟩
  else .error .invariant

end Sys2Proof.Machine
end

