-- ==== Sys2Proof/Machine/Encoder.lean ====
section
/-! DEFINITION. The BitEncoder (spec/41_bit_encoder.md R120 to R128; spec/30_encoding.md R81 to R84). -/

namespace Sys2Proof.Machine

/-- The sub-bits of one logical bit (R81). -/
def bitPattern (tp : TimingParameters) (v : Bool) : List Bool :=
  let high := if v then tp.oneHigh else tp.zeroHigh
  List.replicate high true ++ List.replicate (tp.total - high) false

/-- ENC_FIXED (R121). -/
def encFixed (lut : Lut) (d : Byte) : List Byte :=
  (List.range 4).map fun k => lutWord lut (bitGroup d k)

/-- Zeros up to the next whole byte (R124). -/
def padToByte (s : List Bool) : List Bool := s ++ List.replicate ((8 - s.length % 8) % 8) false

/-- The sub-bits of ENC_TIMED before padding: the eight logical bits, most significant first (R123). -/
def timedSubBits (tp : TimingParameters) (d : Byte) : List Bool :=
  (List.range 8).flatMap fun k => bitPattern tp (logicalBit d k)

/-- ENC_TIMED (R123). -/
def encTimed (tp : TimingParameters) (d : Byte) : List Byte := pack (padToByte (timedSubBits tp d))

/-- ENC: the configured encoder (R120). -/
def encodeByte (p : Params) (cfg : BlockConfig) (d : Byte) : List Byte :=
  match cfg.encoder with
  | .fixed4x => encFixed p.lut d
  | .timed _ tp => encTimed tp d

end Sys2Proof.Machine
end

