-- ==== Sys2Proof/Machine/ColorSequencer.lean ====
section
/-! DEFINITION. The ColorSequencer (spec/42_color_sequencer.md). -/

namespace Sys2Proof.Machine

/-- ORDER3 (R151). -/
def order3 (o : PixelOrder) (c : Colour) : List Byte :=
  match o with
  | .grb => [c.g, c.r, c.b]
  | .rgb => [c.r, c.g, c.b]
  | .rbg => [c.r, c.b, c.g]
  | .gbr => [c.g, c.b, c.r]
  | .brg => [c.b, c.r, c.g]
  | .bgr => [c.b, c.g, c.r]

/-- ORDER4: green, red, blue, white, whatever CFG.order holds (R153). -/
def order4 (c : Colour) : List Byte := [c.g, c.r, c.b, c.w]

/-- ORDER (R150). -/
def orderColour (cfg : BlockConfig) (c : Colour) : List Byte :=
  match cfg.device with
  | .threeChannel => order3 cfg.order c
  | .fourChannelWithWhite => order4 c

end Sys2Proof.Machine
end

