-- ==== Sys2Proof/Machine/Flags.lean ====
section
/-! DEFINITION. The block has no status flags and no condition codes (spec/10_state.md R39); what a command reports is
its result word (spec/30_encoding.md R79, spec/60_exceptions.md R200). -/

namespace Sys2Proof.Machine

/-- The kind of a transport event. -/
def eventKind : Event → EventKind
  | .send _ => .send
  | .read => .read
  | .write _ => .write

/-- `res[7:0]`, the error code (R79). -/
def resultCode : Result → Word
  | .ok => 0#32
  | .invalidTiming _ => 1#32
  | .outOfBounds => 2#32
  | .transportError _ _ => 3#32

/-- `res[15:8]`, the information field (R79, R109). -/
def resultInfo : Result → Word
  | .ok => 0#32
  | .invalidTiming .belowMinimum => 0#32
  | .invalidTiming .tooManySubBits => 1#32
  | .invalidTiming .invariant => 2#32
  | .outOfBounds => 0#32
  | .transportError .send _ => 0#32
  | .transportError .read _ => 1#32
  | .transportError .write _ => 2#32

/-- The 32-bit result word; `res[31:16]` is 0 (R79). -/
def resultWord (r : Result) : Word := resultCode r ||| resultInfo r <<< 8

end Sys2Proof.Machine
end

