-- ==== Sys2Proof/Machine/Ops.lean ====
section
/-! DEFINITION. The named operations: the buffer (spec/20_memory.md R52 to R56), the end of a command and the error that
ends one (spec/60_exceptions.md R201, spec/43_frame_sequencer.md R182), a transport event (R180), the append (R53, R174,
R175), the exchange (R170), and taking the next command from the host's stream. -/

namespace Sys2Proof.Machine

/-! ### The buffer -/

/-- The byte at an index, if one is listed (R54). -/
def memRead : Memory → Nat → Option Byte
  | [], _ => none
  | (a, v) :: m, i => if a = i then some v else memRead m i

/-- MemWrite(i, 1, v) (R52), keeping the indices strictly rising. -/
def memWrite : Memory → Nat → Byte → Memory
  | [], i, v => [(i, v)]
  | (a, w) :: m, i, v =>
    if i < a then (i, v) :: (a, w) :: m
    else if i = a then (i, v) :: m
    else (a, w) :: memWrite m i v

/-- MemRead(i, n): bytes `i .. i+n−1` in index order (R54), if all of them are listed. -/
def memReadRange (m : Memory) : Nat → Nat → Option (List Byte)
  | _, 0 => some []
  | i, n + 1 =>
    match memRead m i, memReadRange m (i + 1) n with
    | some v, some vs => some (v :: vs)
    | _, _ => none

/-- The canonical form: indices strictly rising. No value is left out of the list, since an unlisted index has none. -/
abbrev Memory.wf (m : Memory) : Prop := m.Pairwise fun c c' => c.1 < c'.1

/-! ### State updates -/

/-- The block with its SEQ changed. -/
def Block.withSeq (b : Block) (q : Seq) : Block := { b with seq := q }

/-- The state with its block replaced. -/
def State.withBlock (s : State) (b : Block) : State := { s with block := some b }

/-- The state with the SEQ of its block `b` changed. -/
def State.withSeq (s : State) (b : Block) (q : Seq) : State := s.withBlock (b.withSeq q)

/-! ### The end of a command, and errors -/

/-- SEQ when a WRITE has ended: Idle, the position 0, nothing pending; cursor and in_flight keep their values (R41). The
colours not pulled are no longer there: a colour sequence exists only for one WRITE (R162). -/
def Seq.toIdle (q : Seq) : Seq :=
  { q with
    phase := .idle, pixel := 0, chan := 0, sub := 0, latchLeft := 0
    enc := 0, acc := [], colour := none, colours := .listed [], ended := false }

/-- end_write(r) (R182): the result, the event trace and BUF go to the host (R13), and SEQ is Idle (R41). -/
def endWrite (r : Result) (b : Block) (s : State) : State :=
  { s with
    block := some (b.withSeq b.seq.toIdle)
    trace := []
    observed := s.observed ++ [⟨r, s.trace, b.buf, b.seq.colours⟩] }

/-- The result of a NEW_* command goes to the host: no event, no buffer byte written, no colour (R13). -/
def report (r : Result) (s : State) : State :=
  { s with trace := [], observed := s.observed ++ [⟨r, [], [], .listed []⟩] }

/-- raise E(info) in a WRITE (R201): no further event, append or pull; end_write still runs. Nothing is saved and
nothing is vectored to (R208). The one operation by which an error is taken. -/
def raiseError (r : Result) (b : Block) (s : State) : State := endWrite r b s

/-! ### Transport events -/

/-- What the trace lists for an event answered Ok: a Read's received byte (R80). -/
def okReply (e : Event) (received : Byte) : Reply :=
  match e with
  | .send _ => .ok
  | .read => .data received
  | .write _ => .ok

/-- One transport event of block `b` (R180). NotReady, or no answer yet: the block holds. Err: TransportError at once.
Ok: go on with `next`. -/
def transact (e : Event) (b : Block) (s : State) (next : State → State) : State :=
  match s.answers with
  | [] => s
  | .notReady :: later => { s with answers := later }
  | .err x :: later =>
    raiseError (.transportError (eventKind e) x) b { s with answers := later, trace := s.trace ++ [(e, .err x)] }
  | .ok received :: later =>
    next { s with answers := later, trace := s.trace ++ [(e, okReply e received)] }

/-- XCHG(v) (R167, R170): TxSend(v) and then TxRead(), one event a step. Two bytes are in flight exactly between the
two; `advance` is what an issued byte does to the position. -/
def exchange (v : Byte) (b : Block) (advance : Seq → Seq) (s : State) : State :=
  if b.seq.inFlight = 2 then
    transact .read b s fun s' => s'.withSeq b (advance { b.seq with inFlight := 1 })
  else
    transact (.send v) b s fun s' => s'.withSeq b { b.seq with inFlight := 2 }

/-! ### Append -/

/-- Do `n` more bytes fit (R53)? Without a capacity they always do (R181). -/
def groupFits (cfg : BlockConfig) (cursor n : Nat) : Bool :=
  match bufferCapacity cfg with
  | none => true
  | some capacity => cursor + n ≤ capacity

/-- append(v) of the next byte of a group that has `left` bytes to go, this one among them (R52, R53). The check is the
group's at its first byte; at the later ones it asks for the rest of the group and passes (log 12). -/
def appendByte (left : Nat) (v : Byte) (b : Block) (advance : Seq → Seq) (s : State) : State :=
  if groupFits b.cfg b.seq.cursor (max 1 left) then
    s.withBlock
      { b with
        buf := memWrite b.buf b.seq.cursor v
        seq := advance { b.seq with cursor := b.seq.cursor + 1 } }
  else raiseError .outOfBounds b s

/-! ### The host's stream -/

/-- What the block finds when it is ready for a command. -/
inductive Command where
  | none
  | refused (e : DecodeError)
  | command (i : Instr) (s : State)
deriving Repr

/-- The next command of the host's stream, and the state without its words (R70 to R72). -/
def nextCommand (s : State) : Command :=
  match s.cmds with
  | [] => .none
  | w :: ws =>
    match decode (w :: ws) with
    | .error e => .refused e
    | .ok (i, rest) => .command i { s with cmds := rest }

end Sys2Proof.Machine
end

