-- ==== Sys2Proof/Machine/Sequencer.lean ====
section
/-! DEFINITION. Where the frame sequencer stands inside a WRITE, and the moves it makes that no row of the opcode table
names (spec/43_frame_sequencer.md R161 to R182, R188; spec/10_state.md R34 to R37). -/

namespace Sys2Proof.Machine

/-! ### The control point -/

/-- What the sequencer does next; a function of CFG and SEQ. -/
inductive Control where
  /-- Idle: a command is awaited. -/
  | idle
  /-- Streaming: the dummy byte is to be sent (R169). -/
  | dummy
  /-- A latch byte is to be issued or appended (R165). -/
  | latch
  /-- A latch phase has no byte left (R35). -/
  | latchDone
  /-- The next colour is to be pulled (R162). -/
  | pull
  /-- A group or logical bit of the current channel byte is to be encoded (R121, R123). -/
  | encode
  /-- An encoded output byte is to be issued or appended (R167, R174). -/
  | emit
  /-- The Encoding phase is over (R173). -/
  | rendered
  /-- The bulk payload write (R177, R178). -/
  | bulkWrite
  /-- The final drain read (R171). -/
  | drain
deriving DecidableEq, Repr

/-- The control point inside the loop over colours (R167, R173). -/
def payloadControl (cfg : BlockConfig) (q : Seq) : Control :=
  match q.colour with
  | none => .pull
  | some _ => if q.enc < encoderUnits cfg then .encode else .emit

/-- The control point of a configuration and a SEQ. -/
def controlAt (cfg : BlockConfig) (q : Seq) : Control :=
  match q.phase with
  | .idle => .idle
  | .encoding =>
    if 0 < q.latchLeft then .latch
    else if q.ended then .rendered
    else payloadControl cfg q
  | .preLatch => if 0 < q.latchLeft then .latch else .latchDone
  | .payload =>
    if isStreaming cfg then
      if q.inFlight = 0 then .dummy else payloadControl cfg q
    else .bulkWrite
  | .postLatch => if 0 < q.latchLeft then .latch else .latchDone
  | .drain => .drain

/-- The control point of a block. -/
def control (b : Block) : Control := controlAt b.cfg b.seq

/-- The channel byte at the position: `ORDER(c)[chan]` (R163). -/
def currentByte (b : Block) : Byte :=
  match b.seq.colour with
  | none => 0#8
  | some c => (orderColour b.cfg c).getD b.seq.chan 0#8

/-- The row that encodes the next group or logical bit of the current channel byte (R121, R123). -/
def encodingRow (b : Block) : Instr :=
  match b.cfg.encoder with
  | .fixed4x => lutInstr (bitGroup (currentByte b) b.seq.enc)
  | .timed _ _ => timedBitInstr (logicalBit (currentByte b) b.seq.enc)

/-! ### The start of a WRITE -/

/-- start_write() and the first phase (R161, R167, R173). In the Encoding phase a pre-latch is a group of RB bytes to
append first, exactly with SingleTransaction and pre_latch (R173). -/
def startSeq (p : Params) (cfg : BlockConfig) (colours : ColourSource) : Seq where
  phase := if isStreaming cfg then .payload else .encoding
  pixel := 0
  chan := 0
  sub := 0
  latchLeft := if !isStreaming cfg && isSingle cfg && cfg.preLatch then latchLength p cfg else 0
  cursor := 0
  inFlight := 0
  enc := 0
  acc := []
  colour := none
  colours := colours
  ended := false

/-- The block at the start of a WRITE: Buffered empties BUF, Prerendered keeps it (R161, R56). That a Prerendered BUF is
then as the last WRITE left it, though the host owns it (R51), is the model's choice (log 28). -/
def startBlock (p : Params) (b : Block) (colours : ColourSource) : Block where
  cfg := b.cfg
  seq := startSeq p b.cfg colours
  buf := if isBuffered b.cfg then [] else b.buf

/-! ### Position -/

/-- The position after an issued or appended output byte: `sub`, then `chan`, then `pixel` (R35). The byte leaves the
accumulator; at the end of the channel byte the accumulator is empty (R38) and the encoder starts again. -/
def advancePosition (cfg : BlockConfig) (q : Seq) : Seq :=
  if q.sub + 1 < encodedLength cfg then { q with sub := q.sub + 1, acc := q.acc.drop 8 }
  else if q.chan + 1 < channelCount cfg.device then
    { q with sub := 0, chan := q.chan + 1, enc := 0, acc := [] }
  else { q with sub := 0, chan := 0, pixel := q.pixel + 1, enc := 0, acc := [], colour := none }

/-- A latch byte issued or appended (R35). -/
def advanceLatch (q : Seq) : Seq := { q with latchLeft := q.latchLeft - 1 }

/-! ### The moves -/

/-- next() has answered None (R162): Streaming goes to the post-latch (R167); a bulk strategy appends the post-latch with
SingleTransaction (R173), and has rendered the frame then. The post-latch is entered by the same step (log 27). -/
def coloursEnded (b : Block) (s : State) : State :=
  if isStreaming b.cfg then
    s.withSeq b { b.seq with ended := true, phase := .postLatch, latchLeft := latchLength s.params b.cfg }
  else
    s.withSeq b
      { b.seq with ended := true, latchLeft := if isSingle b.cfg then latchLength s.params b.cfg else 0 }

/-- One pull (R162). A colour record of the other kind is refused: no channel of it is dropped and none is added (R154). The colours that words
list are looked at before the WRITE starts (`writeColours`), a host stream's here, where they are drawn (log 16). -/
def pullColour (b : Block) (s : State) : Out :=
  match nextColour b.cfg.device b.seq.colours with
  | some (r, rest) =>
    if recordFits b.cfg.device r then .next (s.withSeq b { b.seq with colour := some (recordColour r), colours := rest })
    else .refused .colourMismatch
  | none => .next (coloursEnded b s)

/-- One output byte of the current channel byte: exchanged (R167), or appended under the group check (R174). -/
def emitByte (b : Block) (s : State) : State :=
  if isStreaming b.cfg then exchange (packByte b.seq.acc) b (advancePosition b.cfg) s
  else appendByte (encodedLength b.cfg - b.seq.sub) (packByte b.seq.acc) b (advancePosition b.cfg) s

/-- The end of a latch phase (R167, R178, R188): PreLatch goes to Payload; PostLatch to Drain, or to the end of a bulk
frame. It is a step of its own (log 27). -/
def afterLatch (b : Block) (s : State) : State :=
  if b.seq.phase = .preLatch then s.withSeq b { b.seq with phase := .payload }
  else if isStreaming b.cfg then s.withSeq b { b.seq with phase := .drain }
  else endWrite .ok b s

/-- The end of the Encoding phase (R173): TRANSMIT_SINGLE, or TRANSMIT_PER_BYTE, which begins with the pre-latch
(R178). It is a step of its own (log 27). -/
def beginTransmit (b : Block) (s : State) : State :=
  if !isSingle b.cfg && b.cfg.preLatch then
    s.withSeq b { b.seq with phase := .preLatch, latchLeft := latchLength s.params b.cfg }
  else s.withSeq b { b.seq with phase := .payload }

/-- TxWrite(MemRead(0, cursor)): with SingleTransaction the whole frame, after which the WRITE ends (R177), else the
payload, after which comes the post-latch (R178). That the step in which the write is answered Ok also ends the WRITE, or
enters the post-latch, is the model's choice (log 27). -/
def bulkWrite (b : Block) (s : State) : Out :=
  match memReadRange b.buf 0 b.seq.cursor with
  | none => .fault .unwrittenBufferByte
  | some bytes =>
    .next (transact (.write bytes) b s fun s' =>
      if isSingle b.cfg then endWrite .ok b s'
      else s'.withSeq b { b.seq with phase := .postLatch, latchLeft := latchLength s.params b.cfg })

/-- The final drain read, which balances the pair and ends the WRITE (R171, R182); one step does both (log 27). -/
def drainRead (b : Block) (s : State) : State :=
  transact .read b s fun s' => endWrite .ok (b.withSeq { b.seq with inFlight := 0 }) s'

end Sys2Proof.Machine
end

