-- ==== Sys2Proof/Machine/Construction.lean ====
section
/-! DEFINITION. The construction commands (spec/40_timing_model.md R112, R113; spec/10_state.md R42; the pseudo-command
NEW of spec/30_encoding.md R88). -/

namespace Sys2Proof.Machine

/-- No meaning runs under parameters that R7 excludes (U17). -/
def underParams (s : State) (k : Out) : Out :=
  if paramsValid s.params then k else .fault .badParameters

/-- A WRITE is executing (R40). -/
def isBusy (s : State) : Bool :=
  match s.block with
  | none => false
  | some b => b.seq.phase ≠ .idle

/-- SEQ after a construction (R42). -/
def constructedSeq : Seq where
  phase := .idle
  pixel := 0
  chan := 0
  sub := 0
  latchLeft := 0
  cursor := 0
  inFlight := 0
  enc := 0
  acc := []
  colour := none
  colours := .listed []
  ended := false

/-- CFG after a construction (R42). -/
def constructedConfig (encoder : Encoder) (f : NewFields) : BlockConfig :=
  ⟨encoder, f.device, f.order, f.preLatch, f.strategy, f.resetMode⟩

/-- The block after a construction (R42). No byte of a Prerendered buffer is listed: the caller's bytes are not
specified (U3; log 13). -/
def constructedBlock (encoder : Encoder) (f : NewFields) : Block :=
  ⟨constructedConfig encoder f, constructedSeq, []⟩

/-- A successful construction replaces the whole state of the block (R230, R231) and answers Ok. -/
def construct (encoder : Encoder) (f : NewFields) (s : State) : State :=
  report .ok (s.withBlock (constructedBlock encoder f))

/-- NEW_FIXED (R113): it cannot fail. -/
def newFixed (f : NewFields) (s : State) : Out :=
  underParams s <| if isBusy s then .refused .busy else .next (construct .fixed4x f s)

/-- NEW_TIMED (R112). On InvalidTiming the block is left unconstructed. -/
def newTimed (f : NewFields) (clockHz : Word) (s : State) : Out :=
  underParams s <|
    if isBusy s then .refused .busy
    else
      match timingDerive s.params clockHz.toNat with
      | .error cause => .next (report (.invalidTiming cause) { s with block := none })
      | .ok tp => .next (construct (.timed clockHz tp) f s)

/-- NEW_FIXED. -/
def execNewFixed (f : NewFields) (s : State) : Out := newFixed f s

/-- NEW_TIMED. -/
def execNewTimed (f : NewFields) (clockHz : Word) (s : State) : Out := newTimed f clockHz s

/-- NEW: `NEW.FIXED strat=stream`, every other field at its default (R43, R88). -/
def execNew (s : State) : Out := newFixed ⟨.threeChannel, .grb, false, .streaming, .byteAtATime⟩ s

end Sys2Proof.Machine
end

