-- ==== Sys2Proof/Machine/Units.lean ====
section
/-! DEFINITION. The internal rows: one encoder iteration (LUT_00 to LUT_11, TIMED_BIT_0, TIMED_BIT_1), the latch byte and
the dummy byte (spec/30_encoding.md R81, R83, R85; spec/43_frame_sequencer.md R169). The sequencer performs them; the host
cannot issue them (R70; log 8). -/

namespace Sys2Proof.Machine

/-- Run an internal row where the sequencer stands at `at_`; anywhere else it is no instruction (R70). -/
def atControl (at_ : Control) (s : State) (k : Block → Out) : Out :=
  underParams s <|
    match s.block with
    | none => .refused .unconstructed
    | some b => if control b = at_ then k b else .refused .notIssuable

/-- The sub-bits of one iteration go into the accumulator (R38), and the loop index advances (R121, R123). -/
def pushSubBits (bits : List Bool) (b : Block) (s : State) : State :=
  s.withSeq b { b.seq with acc := b.seq.acc ++ bits, enc := b.seq.enc + 1 }

/-- One iteration of ENC_FIXED: the table word of a group (R83, R121). -/
def lookUp (group : BitVec 2) (s : State) : Out :=
  atControl .encode s fun b =>
    match b.cfg.encoder with
    | .fixed4x => .next (pushSubBits (byteBits (lutWord s.params.lut group)) b s)
    | .timed _ _ => .refused .notIssuable

/-- One iteration of ENC_TIMED: the pattern of a logical bit (R81, R123). -/
def encodeBit (v : Bool) (s : State) : Out :=
  atControl .encode s fun b =>
    match b.cfg.encoder with
    | .fixed4x => .refused .notIssuable
    | .timed _ tp => .next (pushSubBits (bitPattern tp v) b s)

/-- LUT_00. -/
def execLut00 (s : State) : Out := lookUp 0#2 s

/-- LUT_01. -/
def execLut01 (s : State) : Out := lookUp 1#2 s

/-- LUT_10. -/
def execLut10 (s : State) : Out := lookUp 2#2 s

/-- LUT_11. -/
def execLut11 (s : State) : Out := lookUp 3#2 s

/-- TIMED_BIT_0. -/
def execTimedBit0 (s : State) : Out := encodeBit false s

/-- TIMED_BIT_1. -/
def execTimedBit1 (s : State) : Out := encodeBit true s

/-- One latch byte 0x00 (R85): exchanged with Streaming (R167), appended in the Encoding phase (R175), a one-byte write
in a latch phase of a bulk strategy (R178). -/
def latchOne (b : Block) (s : State) : State :=
  if isStreaming b.cfg then exchange 0x00#8 b advanceLatch s
  else if b.seq.phase = .encoding then appendByte b.seq.latchLeft 0x00#8 b advanceLatch s
  else transact (.write [0x00#8]) b s fun s' => s'.withSeq b (advanceLatch b.seq)

/-- LATCH_BYTE. -/
def execLatchByte (s : State) : Out := atControl .latch s fun b => .next (latchOne b s)

/-- DUMMY_BYTE (R169): sent with no read after it; then the pre-latch if there is one, else the payload (R167). -/
def execDummyByte (s : State) : Out :=
  atControl .dummy s fun b =>
    .next (transact (.send s.params.dummyByte) b s fun s' =>
      if b.cfg.preLatch then
        s'.withSeq b
          { b.seq with inFlight := 1, phase := .preLatch, latchLeft := latchLength s.params b.cfg }
      else s'.withSeq b { b.seq with inFlight := 1 })

end Sys2Proof.Machine
end

