-- ==== Sys2Proof/Machine/Write.lean ====
section
/-! DEFINITION. WRITE (spec/43_frame_sequencer.md R160) and its pseudo-commands LATCH and BLANK (spec/30_encoding.md
R88). The command is accepted and started by one step; the frame is then sent by the steps of Machine/Step.lean, one
transport event, append, encoder iteration or pull each (log 7), since the transport may hold any event for ever (R180). -/

namespace Sys2Proof.Machine

/-- WRITE(colours): refused without a block (R231), while busy (R66), or for a listed colour of the other kind
(R154); otherwise start_write() (R161). -/
def writeColours (colours : ColourSource) (s : State) : Out :=
  underParams s <|
    match s.block with
    | none => .refused .unconstructed
    | some b =>
      if isBusy s then .refused .busy
      else if sourceFits b.cfg.device colours then
        .next { s with block := some (startBlock s.params b colours), trace := [] }
      else .refused .colourMismatch

/-- WRITE. -/
def execWrite (colours : ColourSource) (s : State) : Out := writeColours colours s

/-- LATCH: a WRITE with no colours (R88, R183). -/
def execLatch (s : State) : Out := writeColours (.listed []) s

/-- BLANK n: a WRITE of n black colours (R88). -/
def execBlank (n : Nat) (s : State) : Out := writeColours (.listed (List.replicate n Colour.black)) s

end Sys2Proof.Machine
end

