-- ==== Sys2Proof/Machine/Dispatch.lean ====
section
/-! DEFINITION. The dispatch: one arm per constructor of `Instr`. -/

namespace Sys2Proof.Machine

def exec (i : Instr) (s : State) : Host.Outcome State Fault Refusal :=
  match i with
  | .newFixed fields => Sys2Proof.Machine.execNewFixed fields s
  | .newTimed fields clockHz => Sys2Proof.Machine.execNewTimed fields clockHz s
  | .write colours => Sys2Proof.Machine.execWrite colours s
  | .new => Sys2Proof.Machine.execNew s
  | .latch => Sys2Proof.Machine.execLatch s
  | .blank n => Sys2Proof.Machine.execBlank n s
  | .lut00 => Sys2Proof.Machine.execLut00 s
  | .lut01 => Sys2Proof.Machine.execLut01 s
  | .lut10 => Sys2Proof.Machine.execLut10 s
  | .lut11 => Sys2Proof.Machine.execLut11 s
  | .timedBit0 => Sys2Proof.Machine.execTimedBit0 s
  | .timedBit1 => Sys2Proof.Machine.execTimedBit1 s
  | .latchByte => Sys2Proof.Machine.execLatchByte s
  | .dummyByte => Sys2Proof.Machine.execDummyByte s

end Sys2Proof.Machine
end

