-- ==== Sys2Proof/Machine/Step.lean ====
section
/-! DEFINITION. One step of the block (spec/00_scope.md R12; log 7): idle or unconstructed, it takes the next command of
the host, or waits; inside a WRITE it makes the move of its control point. -/

namespace Sys2Proof.Machine

/-- The block is ready: run the host's next command, or wait for one. -/
def stepCommand (s : State) : Out :=
  match nextCommand s with
  | .none => .next s
  | .refused e => .refused (.undecodable e)
  | .command i s' => exec i s'

/-- One step. -/
def step (s : State) : Host.Outcome State Fault Refusal :=
  if paramsValid s.params then
    match s.block with
    | none => stepCommand s
    | some b =>
      match control b with
      | .idle => stepCommand s
      | .dummy => exec .dummyByte s
      | .latch => exec .latchByte s
      | .latchDone => .next (afterLatch b s)
      | .pull => pullColour b s
      | .encode => exec (encodingRow b) s
      | .emit => .next (emitByte b s)
      | .rendered => .next (beginTransmit b s)
      | .bulkWrite => bulkWrite b s
      | .drain => .next (drainRead b s)
  else .fault .badParameters

/-! ### Placing an instruction where the next step takes it -/

/-- A block of configuration `cfg` that is about to encode group `group` of a channel byte, inside a WRITE. -/
def blockAtGroup (cfg : BlockConfig) (buf : Memory) (group : Nat) : Block :=
  let d : Byte := BitVec.ofNat 8 (64 * group)
  { cfg := cfg
    seq :=
      { constructedSeq with
        phase := if isStreaming cfg then .payload else .encoding
        inFlight := if isStreaming cfg then 1 else 0
        colour := some ⟨d, d, d, if cfg.device = .threeChannel then 0#8 else d⟩ }
    buf := buf }

/-- An internal row of at most 8 bits is read as a LUT2 row (log 10): the block stands where it encodes that group. -/
def State.withGroup (s : State) (group : Nat) : State :=
  match s.block with
  | none =>
    s.withBlock (blockAtGroup ⟨.fixed4x, .threeChannel, .grb, false, .streaming, .byteAtATime⟩ [] group)
  | some b => s.withBlock (blockAtGroup { b.cfg with encoder := .fixed4x } b.buf group)

/-- The block, if there is one, waits for a command. -/
def State.ready (s : State) : State :=
  match s.block with
  | none => s
  | some b => if b.seq.phase = .idle then s else s.withBlock (b.withSeq b.seq.toIdle)

/-- The state in which the next step takes the instruction of a table row's bits: a command's words stand at the head of
the host's stream and the block waits for a command; an internal row stands at its control point. -/
def State.withFetchWord (s : State) (nbits w : Nat) : State :=
  if nbits ≤ 8 then s.withGroup w
  else
    let s' := s.ready
    { s' with cmds := tableCommandWords nbits w ++ s.cmds }

end Sys2Proof.Machine
end

