-- ==== Sys2Proof/Machine/Assembler.lean ====
section
/-! DEFINITION. The spec's textual syntax of commands and its defaults (spec/30_encoding.md R87, R88; spec/10_state.md
R43). A line is a list of characters; what it assembles to is an instruction, whose words are `encode`'s. No step calls
the assembler (log 26). -/

namespace Sys2Proof.Machine

/-! ### Fields and defaults -/

/-- The fields a NEW.* line gives; one that is left out is `none`. -/
structure NewOptions where
  device : Option DeviceKind
  order : Option PixelOrder
  preLatch : Option Bool
  resetMode : Option ResetMode
  /-- `strat`, without the capacity. -/
  strat : Option (List Char)
  cap : Option Nat
  clk : Option Nat
deriving DecidableEq, Repr

/-- No field given. -/
def noOptions : NewOptions := ⟨none, none, none, none, none, none, none⟩

/-- A number that fits a 32-bit operand word (R72). -/
def asWord (n : Nat) : Option Word := if n < 4294967296 then some (BitVec.ofNat 32 n) else none

/-- `strat` and `cap`: `cap` is there exactly when `strat=prerender`, and `strat` has no default (R43, R87). -/
def optionStrategy (o : NewOptions) : Option Strategy :=
  match o.strat, o.cap with
  | none, _ => none
  | some t, none =>
    if t = "stream".toList then some .streaming
    else if t = "buffered".toList then some .buffered
    else none
  | some t, some n => if t = "prerender".toList then (asWord n).map .prerendered else none

/-- The fields, with the defaults of R43 for the ones left out. -/
def optionFields (o : NewOptions) : Option NewFields :=
  (optionStrategy o).map fun strategy =>
    ⟨o.device.getD .threeChannel, o.order.getD .grb, o.preLatch.getD false, strategy,
      o.resetMode.getD .byteAtATime⟩

/-! ### Characters -/

/-- The text before a `;` (R87). -/
def stripComment (line : List Char) : List Char := line.takeWhile (fun c => c ≠ ';')

/-- Space or tab. -/
def isBlank (c : Char) : Bool := c = ' ' || c = '\t'

/-- The pieces between separators, empty pieces too. -/
def splitAt (sep : Char → Bool) : List Char → List (List Char)
  | [] => [[]]
  | c :: cs =>
    if sep c then [] :: splitAt sep cs
    else
      match splitAt sep cs with
      | [] => [[c]]
      | piece :: pieces => (c :: piece) :: pieces

/-- The words of a line. -/
def lineTokens (line : List Char) : List (List Char) := (splitAt isBlank line).filter (fun t => t ≠ [])

/-- A digit of a base, as a number. -/
def digitValue (base : Nat) (c : Char) : Option Nat :=
  let n := c.toNat
  let v :=
    if 48 ≤ n ∧ n ≤ 57 then n - 48
    else if 97 ≤ n ∧ n ≤ 102 then n - 87
    else if 65 ≤ n ∧ n ≤ 70 then n - 55
    else base
  if v < base then some v else none

/-- The digits of a base after what is read already. -/
def parseDigits (base : Nat) : Nat → List Char → Option Nat
  | n, [] => some n
  | n, c :: cs =>
    match digitValue base c with
    | none => none
    | some v => parseDigits base (base * n + v) cs

/-- A number: decimal, or hexadecimal with a 0x prefix (R87). -/
def parseNumber : List Char → Option Nat
  | [] => none
  | '0' :: 'x' :: c :: cs => parseDigits 16 0 (c :: cs)
  | c :: cs => parseDigits 10 0 (c :: cs)

/-! ### NEW.FIXED and NEW.TIMED -/

/-- `dev`. -/
def parseDevice (v : List Char) : Option DeviceKind :=
  if v = "3".toList then some .threeChannel
  else if v = "4".toList then some .fourChannelWithWhite
  else none

/-- `order`. -/
def parseOrder (v : List Char) : Option PixelOrder :=
  if v = "GRB".toList then some .grb
  else if v = "RGB".toList then some .rgb
  else if v = "RBG".toList then some .rbg
  else if v = "GBR".toList then some .gbr
  else if v = "BRG".toList then some .brg
  else if v = "BGR".toList then some .bgr
  else none

/-- `prelatch`. -/
def parseFlag (v : List Char) : Option Bool :=
  if v = "0".toList then some false
  else if v = "1".toList then some true
  else none

/-- `reset`. -/
def parseReset (v : List Char) : Option ResetMode :=
  if v = "byte".toList then some .byteAtATime
  else if v = "single".toList then some .singleTransaction
  else none

/-- One `key=value` of a NEW.* line; a key is given at most once. -/
def parseOption (o : NewOptions) (token : List Char) : Option NewOptions :=
  match splitAt (fun c => c = '=') token with
  | [key, v] =>
    if key = "dev".toList then
      if o.device.isSome then none else (parseDevice v).map fun x => { o with device := some x }
    else if key = "order".toList then
      if o.order.isSome then none else (parseOrder v).map fun x => { o with order := some x }
    else if key = "prelatch".toList then
      if o.preLatch.isSome then none else (parseFlag v).map fun x => { o with preLatch := some x }
    else if key = "reset".toList then
      if o.resetMode.isSome then none else (parseReset v).map fun x => { o with resetMode := some x }
    else if key = "strat".toList then
      if o.strat.isSome then none else some { o with strat := some v }
    else if key = "cap".toList then
      if o.cap.isSome then none else (parseNumber v).map fun x => { o with cap := some x }
    else if key = "clk".toList then
      if o.clk.isSome then none else (parseNumber v).map fun x => { o with clk := some x }
    else none
  | _ => none

/-- The options of a NEW.* line. -/
def parseOptions : NewOptions → List (List Char) → Option NewOptions
  | o, [] => some o
  | o, token :: tokens =>
    match parseOption o token with
    | none => none
    | some o' => parseOptions o' tokens

/-- NEW.FIXED takes no clock. -/
def assembleFixed (tokens : List (List Char)) : Option Instr :=
  match parseOptions noOptions tokens with
  | none => none
  | some o => if o.clk.isSome then none else (optionFields o).map .newFixed

/-- NEW.TIMED takes a clock. -/
def assembleTimed (tokens : List (List Char)) : Option Instr :=
  match parseOptions noOptions tokens with
  | none => none
  | some o =>
    match o.clk, optionFields o with
    | some n, some f => (asWord n).map (.newTimed f)
    | _, _ => none

/-! ### WRITE -/

/-- A channel value. -/
def parseChannel (v : List Char) : Option Byte :=
  match parseNumber v with
  | none => none
  | some n => if n < 256 then some (BitVec.ofNat 8 n) else none

/-- The inside of a colour: three values on a three-channel block, four on a four-channel one (R87). -/
def parseColour (dev : DeviceKind) (inside : List Char) : Option Colour :=
  match dev, (splitAt (fun c => c = ',') inside).map parseChannel with
  | .threeChannel, [some r, some g, some b] => some ⟨r, g, b, 0#8⟩
  | .fourChannelWithWhite, [some r, some g, some b, some w] => some ⟨r, g, b, w⟩
  | _, _ => none

/-- What stands before each `)`: `(inside` for the first colour, `,(inside` for the later ones, nothing after the last
one. -/
def parseColours (dev : DeviceKind) : Bool → List (List Char) → Option (List Colour)
  | _, [] => none
  | _, [last] => if last = [] then some [] else none
  | isFirst, piece :: pieces =>
    match isFirst, piece with
    | true, '(' :: inside =>
      match parseColour dev inside, parseColours dev false pieces with
      | some c, some cs => some (c :: cs)
      | _, _ => none
    | false, ',' :: '(' :: inside =>
      match parseColour dev inside, parseColours dev false pieces with
      | some c, some cs => some (c :: cs)
      | _, _ => none
    | _, _ => none

/-- WRITE; blanks between the characters of the colour list mean nothing. The count word has 32 bits (R72). -/
def assembleWrite (dev : DeviceKind) (text : List (List Char)) : Option Instr :=
  match parseColours dev true (splitAt (fun c => c = ')') text.flatten) with
  | none => none
  | some cs => if countFits cs.length then some (.write (.listed cs)) else none

/-- BLANK n (R88); the count word has 32 bits (R10, R72). -/
def assembleBlank (n : List Char) : Option Instr :=
  match parseNumber n with
  | none => none
  | some n => if countFits n then some (.blank n) else none

/-! ### A line -/

/-- The instruction a line stands for, on a block of the given kind; `none` for a line that is no command (R87, R88). -/
def assemble (dev : DeviceKind) (line : List Char) : Option Instr :=
  match lineTokens (stripComment line) with
  | [] => none
  | head :: tokens =>
    if head = "NEW.FIXED".toList then assembleFixed tokens
    else if head = "NEW.TIMED".toList then assembleTimed tokens
    else if head = "WRITE".toList then assembleWrite dev tokens
    else if head = "NEW".toList then if tokens = [] then some .new else none
    else if head = "LATCH".toList then if tokens = [] then some .latch else none
    else if head = "BLANK".toList then
      match tokens with
      | [n] => assembleBlank n
      | _ => none
    else none

end Sys2Proof.Machine
end

