-- ==== Sys2Proof/Machine/Frame.lean ====
section
/-! DEFINITION. A whole frame as the spec writes it down: its payload, its latch gaps, the event trace of each strategy,
the buffer layout, the minimum capacity and the wire image (spec/43_frame_sequencer.md R163 to R189). No step calls these;
claims compare what the steps do with them. -/

namespace Sys2Proof.Machine

/-- LATCH: RB zero bytes (R165). -/
def latchGap (p : Params) (cfg : BlockConfig) : List Byte := List.replicate (latchLength p cfg) 0x00#8

/-- `pre·LATCH` (R166, R167). -/
def preLatchGap (p : Params) (cfg : BlockConfig) : List Byte := if cfg.preLatch then latchGap p cfg else []

/-- PAY(c) (R164). -/
def pixelPayload (p : Params) (cfg : BlockConfig) (c : Colour) : List Byte :=
  (orderColour cfg c).flatMap (encodeByte p cfg)

/-- PAY (R164). -/
def framePayload (p : Params) (cfg : BlockConfig) (colours : List Colour) : List Byte :=
  colours.flatMap (pixelPayload p cfg)

/-- `pre·LATCH ++ PAY ++ LATCH` (R173, R186). -/
def wholeFrame (p : Params) (cfg : BlockConfig) (colours : List Colour) : List Byte :=
  preLatchGap p cfg ++ framePayload p cfg colours ++ latchGap p cfg

/-- XCHG's two events (R167). -/
def exchangeEvents (v : Byte) : List Event := [.send v, .read]

/-- The events of a successful streaming frame (R167). -/
def streamEvents (p : Params) (cfg : BlockConfig) (colours : List Colour) : List Event :=
  .send p.dummyByte :: (wholeFrame p cfg colours).flatMap exchangeEvents ++ [.read]

/-- What a successful Encoding phase leaves in `BUF[0..cursor)` (R173). -/
def bufferImage (p : Params) (cfg : BlockConfig) (colours : List Colour) : List Byte :=
  if isSingle cfg then wholeFrame p cfg colours else framePayload p cfg colours

/-- The events of a successful bulk frame (R177, R178). -/
def bulkEvents (p : Params) (cfg : BlockConfig) (colours : List Colour) : List Event :=
  if isSingle cfg then [.write (wholeFrame p cfg colours)]
  else
    (preLatchGap p cfg).map (fun v => .write [v])
      ++ .write (framePayload p cfg colours) :: (latchGap p cfg).map (fun v => .write [v])

/-- The events of a successful frame (R167, R177, R178). -/
def frameEvents (p : Params) (cfg : BlockConfig) (colours : List Colour) : List Event :=
  if isStreaming cfg then streamEvents p cfg colours else bulkEvents p cfg colours

/-- MINCAP(N) (R176). -/
def minCapacity (p : Params) (cfg : BlockConfig) (n : Nat) : Nat :=
  if isSingle cfg then
    n * channelCount cfg.device * encodedLength cfg + ((if cfg.preLatch then 1 else 0) + 1) * latchLength p cfg
  else n * channelCount cfg.device * encodedLength cfg

/-- The bytes an event puts on the line when it is answered Ok (R186). -/
def eventBytes : Event → List Byte
  | .send b => [b]
  | .read => []
  | .write bytes => bytes

/-- The bytes of the events answered Ok, in event order (R186). -/
def wireBytes (trace : List (Event × Reply)) : List Byte :=
  trace.flatMap fun er =>
    match er.2 with
    | .ok => eventBytes er.1
    | .data _ => eventBytes er.1
    | .err _ => []

/-- The wire image: the sub-bits on the data line, each byte MSB first (R186). -/
def wireImage (trace : List (Event × Reply)) : List Bool := (wireBytes trace).flatMap byteBits

/-- The wire image of a successful frame (R186). -/
def frameWire (p : Params) (cfg : BlockConfig) (colours : List Colour) : List Byte :=
  if isStreaming cfg then p.dummyByte :: wholeFrame p cfg colours else wholeFrame p cfg colours

/-- The event that failed, if the trace ends with one (R180: nothing follows it). -/
def failedEvent (trace : List (Event × Reply)) : Option Event :=
  match trace.getLast? with
  | some (e, .err _) => some e
  | _ => none

/-- What the line may have carried: the wire image, and of a failed Send nothing or its byte, of a failed Write some
prefix of its bytes (spec/93_implementation_defined.md U9; log 21). -/
def LineMayCarry (trace : List (Event × Reply)) (bytes : List Byte) : Prop :=
  match failedEvent trace with
  | none => bytes = wireBytes trace
  | some e => ∃ part, part <+: eventBytes e ∧ bytes = wireBytes trace ++ part

/-- The sub-bits of one latch gap (R185): at a bus clock of `f` Hz it lasts this many times `1/f`. -/
def latchSubBits (p : Params) (cfg : BlockConfig) : Nat := 8 * latchLength p cfg

end Sys2Proof.Machine
end

