-- ==== Sys2Proof/Safety.lean ====
section
/-! DEFINITION. What counts as a sound state of the block. The invariant joins two kinds of clauses: those the spec states
in prose (spec/10_state.md R30, R35 to R38, R41, R42; spec/20_memory.md R50, R53, R55, R56; spec/42_color_sequencer.md R154;
spec/43_frame_sequencer.md R162, R170, R173, R188), and those that hold only by the model's own choices of what SEQ holds
between two moves, how BUF and the trace are kept, and where a check is made (log 1, 2, 7, 11, 13, 15, 16, 18, 25, 27). Each
clause below names the rule or the log entry it rests on. -/

namespace Sys2Proof.Machine

/-- The invariant of the timing parameters (R30). -/
abbrev TimingInv (p : Params) (tp : TimingParameters) : Prop :=
  1 ≤ tp.zeroHigh ∧ tp.zeroHigh ≤ tp.oneHigh ∧ tp.oneHigh < tp.total ∧ tp.total ≤ p.maxTotal

/-- A Timed block's parameters satisfy R30. -/
def ConfigInv (p : Params) (cfg : BlockConfig) : Prop :=
  match cfg.encoder with
  | .fixed4x => True
  | .timed _ tp => TimingInv p tp

/-- The sub-bits that one encoder iteration adds: a table word's eight, or one logical bit's `total` (R83, R81). -/
def unitLength (cfg : BlockConfig) : Nat :=
  match cfg.encoder with
  | .fixed4x => 8
  | .timed _ tp => tp.total

/-- SEQ while no WRITE executes. The position is the spec's; the other two clauses are the model's choice. -/
structure IdleInv (q : Seq) : Prop where
  /-- The position is 0 (R35, R41). -/
  position : q.pixel = 0 ∧ q.chan = 0 ∧ q.sub = 0 ∧ q.latchLeft = 0
  /-- The model's choice: the loop index is 0 (log 25), and the accumulator is empty after an error too (log 11, where R38
  and R42 speak of the ends of a channel byte and of the construction). -/
  encoder : q.enc = 0 ∧ q.acc = []
  /-- The model's choice: no colour, no rest of the colours, None not seen (log 25). -/
  source : q.colour = none ∧ q.colours = .listed [] ∧ q.ended = false

/-- BUF and the cursor (R36, R50, R53, R55, R56; log 13). -/
structure BufferInv (b : Block) : Prop where
  /-- The indices listed rise strictly; the model's choice of how BUF is kept (log 13). -/
  canonical : Memory.wf b.buf
  /-- The cursor never exceeds the capacity (R36, R53). -/
  cursorFits : ∀ capacity, bufferCapacity b.cfg = some capacity → b.seq.cursor ≤ capacity
  /-- No byte stands at or beyond the capacity (R53). -/
  bytesFit : ∀ capacity, bufferCapacity b.cfg = some capacity → ∀ cell ∈ b.buf, cell.1 < capacity
  /-- Every byte below the cursor is written (R55); that an unwritten byte is one not listed is log 13. -/
  written : ∀ i, i < b.seq.cursor → (memRead b.buf i).isSome
  /-- Buffered: BUF is as long as the cursor (R56). -/
  bufferedLength : isBuffered b.cfg = true → ∀ cell ∈ b.buf, cell.1 < b.seq.cursor
  /-- Streaming: there is no BUF (R50), and the cursor is not used (R36) and keeps its 0 (R42). -/
  noBuffer : isStreaming b.cfg = true → b.buf = [] ∧ b.seq.cursor = 0

/-- The position and the encoder (R35, R38), with the loop variables `enc`, `acc`, `colour` and `ended` that the model keeps
between two moves by its own choice (log 11, 25). -/
structure PositionInv (p : Params) (b : Block) : Prop where
  /-- `sub` and `chan` stay in their ranges (R35), and the loop index in its own (R121, R123; log 25). -/
  ranges : b.seq.sub < encodedLength b.cfg ∧ b.seq.chan < channelCount b.cfg.device
    ∧ b.seq.enc ≤ encoderUnits b.cfg
  /-- No more latch bytes are left than a latch has (R35, R165); in the Encoding phase too, by the use of log 27. -/
  latch : b.seq.latchLeft ≤ latchLength p b.cfg
  /-- Between two colours the position within the pixel is 0 (R35) and, with the next clause, the accumulator is empty
  (R38); that `colour` and `enc` tell so is log 25. -/
  betweenColours : b.seq.colour = none → b.seq.chan = 0 ∧ b.seq.sub = 0 ∧ b.seq.enc = 0
  /-- The model's choice (log 11, 25): the accumulator holds what is encoded and not yet issued. -/
  accumulator : b.seq.acc.length + 8 * b.seq.sub = b.seq.enc * unitLength b.cfg
  /-- The model's choice (log 11): a channel byte is wholly encoded before its first byte is issued. -/
  encodedFirst : b.seq.enc < encoderUnits b.cfg → b.seq.sub = 0
  /-- After None no colour is pending (R162; log 25). -/
  drained : b.seq.ended = true → b.seq.colour = none

/-- The phases of each strategy (R188), and in_flight (R37, R170, R171). Which values of the phase, `in_flight` and `ended`
stand together between two moves is the model's choice (log 7, 25, 27); each such clause says so. -/
structure PhaseInv (b : Block) : Prop where
  /-- in_flight is 0, 1 or 2 (R37). -/
  inFlightRange : b.seq.inFlight ≤ 2
  /-- Only Streaming has bytes in flight (R37). -/
  bulkInFlight : isStreaming b.cfg = false → b.seq.inFlight = 0
  /-- Streaming has no Encoding phase, and Drain is Streaming's alone (R188). -/
  strategyPhase : if isStreaming b.cfg then b.seq.phase ≠ .encoding else b.seq.phase ≠ .drain
  /-- SingleTransaction has neither a PreLatch nor a PostLatch phase (R188). -/
  singlePhase : isStreaming b.cfg = false → isSingle b.cfg = true →
    b.seq.phase ≠ .preLatch ∧ b.seq.phase ≠ .postLatch
  /-- After the dummy byte at least one byte is in flight (R37); the step in which the drain is answered also leaves Drain
  (log 27). -/
  afterDummy : isStreaming b.cfg = true →
    b.seq.phase = .preLatch ∨ b.seq.phase = .postLatch ∨ b.seq.phase = .drain → 1 ≤ b.seq.inFlight
  /-- Before the dummy byte no colour is pulled (R167); that in_flight 0 in Payload means so is log 27, the rest log 25. -/
  beforeDummy : isStreaming b.cfg = true → b.seq.phase = .payload → b.seq.inFlight = 0 →
    b.seq.colour = none ∧ b.seq.ended = false
  /-- Two bytes are in flight only between a send and its paired read (R170), which are two moves (log 7). -/
  paired : b.seq.phase ≠ .idle → b.seq.inFlight = 2 → control b = .latch ∨ control b = .emit
  /-- A streaming pre-latch and payload come before None, a post-latch and a drain after it (R162, R167). The model's choice:
  `ended` says so (log 25), and the step that sees None enters the post-latch, so the two change together (log 27). -/
  streamEnded : isStreaming b.cfg = true → b.seq.phase ≠ .idle →
    (b.seq.ended = true ↔ b.seq.phase = .postLatch ∨ b.seq.phase = .drain)
  /-- A bulk strategy transmits only what is wholly rendered (R173); that `ended` says so is log 25. -/
  bulkEnded : isStreaming b.cfg = false →
    b.seq.phase = .preLatch ∨ b.seq.phase = .payload ∨ b.seq.phase = .postLatch → b.seq.ended = true

/-- The colours of a WRITE are of the device's kind (R154): the one pulled, so that no channel of it is dropped, and those
that words list. The model's choice: a listed colour is checked when WRITE starts (log 15), a streamed one when it is pulled
(log 16). -/
structure ColoursInv (b : Block) : Prop where
  pulled : ∀ c, b.seq.colour = some c → Colour.fits b.cfg.device c = true
  listed : sourceFits b.cfg.device b.seq.colours = true

/-- The invariant of a constructed block. -/
structure BlockInv (p : Params) (b : Block) : Prop where
  config : ConfigInv p b.cfg
  idle : b.seq.phase = .idle → IdleInv b.seq
  buffer : BufferInv b
  position : PositionInv p b
  phase : PhaseInv b
  colours : ColoursInv b

/-- The invariant of the machine. Its clauses are the spec's but for those marked as the model's choice, here and in the
parts it is made of. -/
structure Inv (s : State) : Prop where
  /-- The parameters are admitted (R7; log 1, 2). -/
  params : paramsValid s.params = true
  /-- The block is sound, if there is one. -/
  block : ∀ b, s.block = some b → BlockInv s.params b
  /-- The model's choice (log 18): the trace is empty while no WRITE executes. -/
  trace : isBusy s = false → s.trace = []

/-! ### Runs and frames -/

/-- `k` steps of the machine. -/
def runSteps (k : Nat) (s : State) : Out := Host.Core.run Sys2Proof.core k s

/-- An answer that is an error. -/
def Reply.isErr : Reply → Bool
  | .ok => false
  | .data _ => false
  | .err _ => true

/-- No event of the trace failed. -/
def NoneFailed (trace : List (Event × Reply)) : Prop := ∀ er ∈ trace, er.2.isErr = false

/-- The events of a trace, without their answers. -/
def traceEvents (trace : List (Event × Reply)) : List Event := trace.map Prod.fst

/-- What the host may observe of a WRITE of the listed colours that has ended (R167, R176 to R180, R201, R203):
- Ok: the whole frame was issued, every event was answered Ok, and with a bulk strategy the rendered frame stands in BUF;
- OutOfBounds: nothing was issued, and the buffer is smaller than the frame;
- TransportError: a part of the frame was issued, its last event failed and no earlier one did;
- a WRITE never ends with InvalidTiming. -/
def FrameEnds (p : Params) (cfg : BlockConfig) (colours : List Colour) (o : Observation) : Prop :=
  match o.result with
  | .ok =>
    traceEvents o.trace = frameEvents p cfg colours ∧ NoneFailed o.trace
      ∧ (isStreaming cfg = false →
          memReadRange o.buf 0 (bufferImage p cfg colours).length = some (bufferImage p cfg colours))
  | .outOfBounds =>
    o.trace = []
      ∧ ∃ capacity, bufferCapacity cfg = some capacity ∧ capacity < minCapacity p cfg colours.length
  | .transportError kind e =>
    ∃ before event, o.trace = before ++ [(event, .err e)] ∧ kind = eventKind event ∧ NoneFailed before
      ∧ traceEvents o.trace <+: frameEvents p cfg colours
  | .invalidTiming _ => False

/-! ### What a step may do -/

/-- The transport event that the next move of a block issues, if it issues one. -/
def pendingEvent (p : Params) (b : Block) : Option Event :=
  match control b with
  | .idle => none
  | .dummy => some (.send p.dummyByte)
  | .latch =>
    if isStreaming b.cfg then some (if b.seq.inFlight = 2 then .read else .send 0x00#8)
    else if b.seq.phase = .encoding then none
    else some (.write [0x00#8])
  | .latchDone => none
  | .pull => none
  | .encode => none
  | .emit =>
    if isStreaming b.cfg then some (if b.seq.inFlight = 2 then .read else .send (packByte b.seq.acc)) else none
  | .rendered => none
  | .bulkWrite => (memReadRange b.buf 0 b.seq.cursor).map .write
  | .drain => some .read

/-- The phases that may follow the one of `q` in a WRITE without an error, other than the phase itself (R188). With
Streaming, Payload stands before the pre-latch while the dummy byte is not sent, and after it from then on: the step that
sends the dummy byte enters the pre-latch (log 27). -/
def nextPhases (cfg : BlockConfig) (q : Seq) : List Phase :=
  match q.phase with
  | .idle => if isStreaming cfg then [.payload] else [.encoding]
  | .encoding => if !isSingle cfg && cfg.preLatch then [.preLatch] else [.payload]
  | .preLatch => [.payload]
  | .payload =>
    if isStreaming cfg then
      if q.inFlight = 0 then if cfg.preLatch then [.preLatch] else []
      else [.postLatch]
    else if isSingle cfg then [.idle]
    else [.postLatch]
  | .postLatch => if isStreaming cfg then [.drain] else [.idle]
  | .drain => [.idle]

/-- A Send. -/
def Event.isSend : Event → Bool
  | .send _ => true
  | .read => false
  | .write _ => false

/-- A Read. -/
def Event.isRead : Event → Bool
  | .send _ => false
  | .read => true
  | .write _ => false

/-- While a WRITE executes, `in_flight` counts the bytes sent and not yet read (R37). -/
def EchoInv (s : State) : Prop :=
  ∀ b, s.block = some b → b.seq.phase ≠ .idle →
    (traceEvents s.trace).countP Event.isSend = (traceEvents s.trace).countP Event.isRead + b.seq.inFlight

/-- An answer Ok. -/
def Answer.isOk : Answer → Bool
  | .ok _ => true
  | .err _ => false
  | .notReady => false

/-- An answer Err. -/
def Answer.isErr : Answer → Bool
  | .ok _ => false
  | .err _ => true
  | .notReady => false

/-- What the host sees of an observation apart from BUF. -/
def Observation.seen (o : Observation) : Result × List (Event × Reply) := (o.result, o.trace)

end Sys2Proof.Machine
end

