-- ==== Sys2Proof/Certificates/Slice0/Obligations.lean ====
section
/-! DEFINITION. The statements about this block, one per `def`, in the order of OBLIGATIONS.json. A statement's docstring
names the rules of spec/ it rests on, and the log entries where a clause is the model's own choice. -/

open Sys2Proof Sys2Proof.Machine

/-! ### Encodings -/

/-- The four worked encodings (R89): a line assembles to an instruction, whose words are these, and they decode to it. -/
def Obligations.WorkedEncodings : Prop :=
  (∀ (dev : DeviceKind) (line : String) (i : Instr) (words : List Word),
    (dev, line, i, words) ∈
      [ (DeviceKind.threeChannel, "NEW.FIXED strat=stream",
          Instr.newFixed ⟨.threeChannel, .grb, false, .streaming, .byteAtATime⟩, [0x00000001#32]),
        (.threeChannel, "NEW.TIMED clk=3200000 strat=prerender cap=15",
          .newTimed ⟨.threeChannel, .grb, false, .prerendered 15#32, .byteAtATime⟩ 3200000#32,
          [0x00002002#32, 0x0030D400#32, 0x0000000F#32]),
        (.threeChannel, "NEW.FIXED dev=4 prelatch=1 strat=prerender reset=single cap=296",
          .newFixed ⟨.fourChannelWithWhite, .grb, true, .prerendered 296#32, .singleTransaction⟩,
          [0x0000B101#32, 0x00000128#32]),
        (.threeChannel, "WRITE (0x11,0x22,0x33)",
          .write (.listed [⟨0x11#8, 0x22#8, 0x33#8, 0x00#8⟩]),
          [0x00000003#32, 0x00000001#32, 0x11223300#32]) ] →
    assemble dev line.toList = some i ∧ encode i = words ∧ decode words = .ok (i, []))

/-- Decoding the words of a command gives the command (a pseudo-command: what it stands for), and leaves the words after
it (R71 to R76, R88). -/
def Obligations.DecodeOfEncode : Prop :=
  ∀ (i : Instr) (rest : List Word), i.isCommand = true → i.WellFormed = true →
    decode (encode i ++ rest) = .ok (i.expand, rest)

/-- What decodes is exactly the words of a well-formed core command: no bit of a word is dropped, and each command has
one spelling (R71 to R78). -/
def Obligations.EncodeOfDecode : Prop :=
  ∀ (ws : List Word) (i : Instr) (rest : List Word), decode ws = .ok (i, rest) →
    encode i ++ rest = ws ∧ i.isCommand = true ∧ i.WellFormed = true ∧ i.expand = i

/-- The reserved encodings are refused (R78). A colour of the other kind is refused when the block runs the command,
since only the block knows its device (log 15); the other refusals come from the decoder. -/
def Obligations.ReservedEncodingsRefused : Prop :=
  ∀ (s : State) (w : Word) (ops : List Word), paramsValid s.params = true → isBusy s = false → s.cmds = w :: ops →
    ((w.extractLsb' 0 8).toNat ≠ 1 → (w.extractLsb' 0 8).toNat ≠ 2 → (w.extractLsb' 0 8).toNat ≠ 3 →
      ∃ e, step s = .refused (.undecodable e))
    ∧ ((w.extractLsb' 0 8).toNat = 1 ∨ (w.extractLsb' 0 8).toNat = 2 →
        6 ≤ (w.extractLsb' 9 3).toNat ∨ (w.extractLsb' 13 2).toNat = 3 ∨ w.extractLsb' 16 16 ≠ 0#16 →
        ∃ e, step s = .refused (.undecodable e))
    ∧ ((w.extractLsb' 0 8).toNat = 3 → w.extractLsb' 8 24 ≠ 0#24 → ∃ e, step s = .refused (.undecodable e))
    ∧ ((w.extractLsb' 0 8).toNat = 1 → (w.extractLsb' 13 2).toNat = 1 → ops = [] →
        ∃ e, step s = .refused (.undecodable e))
    ∧ ((w.extractLsb' 0 8).toNat = 2 → ops.length < (if (w.extractLsb' 13 2).toNat = 1 then 2 else 1) →
        ∃ e, step s = .refused (.undecodable e))
    ∧ ((w.extractLsb' 0 8).toNat = 3 → ops = [] ∨ (∃ count rest, ops = count :: rest ∧ rest.length < count.toNat) →
        ∃ e, step s = .refused (.undecodable e))
    ∧ (∀ b count rest, w = 3#32 → ops = count :: rest → count.toNat ≤ rest.length →
        s.block = some b → b.cfg.device = .threeChannel →
        (∃ colour ∈ rest.take count.toNat, colour.extractLsb' 0 8 ≠ 0#8) →
        step s = .refused .colourMismatch)

/-- The opcode, the strategy field and the count word fix a command's length (R72), and the device, pre_latch and
reset_mode bits (mask 0x9100) do not change how a NEW_* word decodes (R75). -/
def Obligations.CommandLengthFixed : Prop :=
  ∀ (w : Word) (ops : List Word) (i : Instr) (rest : List Word), decode (w :: ops) = .ok (i, rest) →
    (∃ n, n ≤ ops.length ∧ rest = ops.drop n
      ∧ ((w.extractLsb' 0 8).toNat = 1 → n = if (w.extractLsb' 13 2).toNat = 1 then 1 else 0)
      ∧ ((w.extractLsb' 0 8).toNat = 2 → n = if (w.extractLsb' 13 2).toNat = 1 then 2 else 1)
      ∧ ((w.extractLsb' 0 8).toNat = 3 → ∃ count, ops.head? = some count ∧ n = 1 + count.toNat))
    ∧ ∀ flags : Word, flags &&& 0xFFFF6EFF#32 = 0#32 → (w.extractLsb' 0 8).toNat ≠ 3 →
        ∃ i', decode ((w ^^^ flags) :: ops) = .ok (i', rest)

/-- The pseudo-commands are what they expand to (R88), in meaning, in words and in the assembler. -/
def Obligations.PseudoCommandsExpand : Prop :=
  (∀ s, exec .new s = exec (.newFixed ⟨.threeChannel, .grb, false, .streaming, .byteAtATime⟩) s)
    ∧ (∀ s, exec .latch s = exec (.write (.listed [])) s)
    ∧ (∀ n s, exec (.blank n) s = exec (.write (.listed (List.replicate n ⟨0#8, 0#8, 0#8, 0#8⟩))) s)
    ∧ encode .new = encode (.newFixed ⟨.threeChannel, .grb, false, .streaming, .byteAtATime⟩)
    ∧ encode .latch = encode (.write (.listed []))
    ∧ (∀ n, encode (.blank n) = encode (.write (.listed (List.replicate n ⟨0#8, 0#8, 0#8, 0#8⟩))))
    ∧ (∀ dev, assemble dev "NEW".toList = some .new ∧ assemble dev "LATCH".toList = some .latch
        ∧ assemble dev "BLANK 3".toList = some (.blank 3))

/-- A field that a NEW.* line leaves out takes its default; `strat`, and `cap` with strat=prerender, must be given
(R43). -/
def Obligations.OmittedFieldsDefault : Prop :=
  (∀ (o : NewOptions) (f : NewFields), optionFields o = some f →
    (o.device = none → f.device = .threeChannel) ∧ (o.order = none → f.order = .grb)
      ∧ (o.preLatch = none → f.preLatch = false) ∧ (o.resetMode = none → f.resetMode = .byteAtATime))
    ∧ (∀ o : NewOptions, o.strat = none → optionFields o = none)
    ∧ (∀ o : NewOptions, o.strat = some "prerender".toList → o.cap = none → optionFields o = none)
    ∧ (∀ dev, assemble dev "NEW.FIXED strat=stream".toList
        = some (.newFixed ⟨.threeChannel, .grb, false, .streaming, .byteAtATime⟩))
    ∧ (∀ dev, assemble dev "NEW.FIXED dev=4".toList = none
        ∧ assemble dev "NEW.FIXED strat=prerender".toList = none)

/-! ### TimingModel -/

/-- NEW_TIMED (R112) with TIMING_DERIVE written out (R100): refused while busy (R66), the causes in their order (R109),
and the block that a success constructs (R42); nothing else of the state changes but the report to the host. The model's
choice: BUF is empty, where R42 leaves a Prerendered one unspecified (log 13); the report's record and its empty lists
(log 18); the values of the loop variables while Idle (log 25). -/
def Obligations.NewTimedConstructs : Prop :=
  ∀ (f : NewFields) (clk : Word) (s : State), paramsValid s.params = true →
    let p := s.params
    let c := clk.toNat
    let zeroHigh := max 1 (c / p.zeroHighThreshold)
    let oneHigh := c / p.oneHighThreshold + 1
    let total := if c / p.bitPeriodThreshold + 1 = oneHigh then c / p.bitPeriodThreshold + 2
      else c / p.bitPeriodThreshold + 1
    let fails := fun cause => exec (.newTimed f clk) s = .next { s with
      block := none, trace := [], observed := s.observed ++ [⟨.invalidTiming cause, [], [], .listed []⟩] }
    (isBusy s = true → exec (.newTimed f clk) s = .refused .busy)
    ∧ (isBusy s = false →
        (c < p.minClockHz → fails .belowMinimum)
        ∧ (p.minClockHz ≤ c → p.maxTotal < total → fails .tooManySubBits)
        ∧ (p.minClockHz ≤ c → total ≤ p.maxTotal → ¬(1 ≤ zeroHigh ∧ zeroHigh ≤ oneHigh ∧ oneHigh < total) →
            fails .invariant)
        ∧ (p.minClockHz ≤ c → total ≤ p.maxTotal → zeroHigh ≤ oneHigh → oneHigh < total →
            exec (.newTimed f clk) s = .next { s with
              block := some
                { cfg := ⟨.timed clk ⟨zeroHigh, oneHigh, total, (p.resetUs * c + 8000000 - 1) / 8000000⟩,
                    f.device, f.order, f.preLatch, f.strategy, f.resetMode⟩
                  seq := ⟨.idle, 0, 0, 0, 0, 0, 0, 0, [], none, .listed [], false⟩
                  buf := [] }
              trace := []
              observed := s.observed ++ [⟨.ok, [], [], .listed []⟩] }))

/-- Under the reference parameters (R111): (a) which clocks are accepted, (b) the adjustment of R105 never fires, (c) nor
the guard of R107, (d) zero_high < one_high, (e) the range of reset_bytes. -/
def Obligations.ReferenceClocks : Prop :=
  ∀ clk : Word,
    ((∃ tp, timingDerive Params.reference clk.toNat = .ok tp) ↔ 2000000 ≤ clk.toNat ∧ clk.toNat ≤ 22399999)
    ∧ (2000000 ≤ clk.toNat → clk.toNat / 800000 + 1 ≠ clk.toNat / 1720000 + 1)
    ∧ timingDerive Params.reference clk.toNat ≠ .error .invariant
    ∧ (∀ tp, timingDerive Params.reference clk.toNat = .ok tp →
        tp.zeroHigh < tp.oneHigh ∧ 75 ≤ tp.resetBytes ∧ tp.resetBytes ≤ 840)

/-- What the counts of an accepted clock say of times, multiplied out (R102, R103, R104, R105): a 0 is high at most the
threshold period unless the minimum of 1 applies, a 1 is high longer than its threshold period, a bit lasts longer than
the nominal period. -/
def Obligations.TimingBounds : Prop :=
  ∀ (p : Params) (c : Nat) (tp : TimingParameters), paramsValid p = true → timingDerive p c = .ok tp →
    tp.zeroHigh = max 1 (c / p.zeroHighThreshold)
      ∧ (p.zeroHighThreshold ≤ c → tp.zeroHigh * p.zeroHighThreshold ≤ c)
      ∧ tp.oneHigh = c / p.oneHighThreshold + 1 ∧ c < tp.oneHigh * p.oneHighThreshold
      ∧ ((tp.total = c / p.bitPeriodThreshold + 1 ∧ tp.total ≠ tp.oneHigh)
          ∨ (tp.oneHigh = c / p.bitPeriodThreshold + 1 ∧ tp.total = tp.oneHigh + 1))
      ∧ c < tp.total * p.bitPeriodThreshold

/-- reset_bytes is the smallest number of zero bytes whose sub-bits last RESET_US microseconds at the clock (R108), so a
Timed latch lasts at least that; 140 bytes of the fixed table last 300 microseconds exactly up to 3 733 333 Hz (R185). -/
def Obligations.LatchDuration : Prop :=
  (∀ (p : Params) (c : Nat) (tp : TimingParameters), timingDerive p c = .ok tp →
    p.resetUs * c ≤ 8 * tp.resetBytes * 1000000
      ∧ ∀ n, p.resetUs * c ≤ 8 * n * 1000000 → tp.resetBytes ≤ n)
    ∧ (∀ (p : Params) (cfg : BlockConfig) (clk : Word) (tp : TimingParameters),
        cfg.encoder = .timed clk tp → timingDerive p clk.toNat = .ok tp →
        latchSubBits p cfg = 8 * tp.resetBytes ∧ p.resetUs * clk.toNat ≤ latchSubBits p cfg * 1000000)
    ∧ (∀ (cfg : BlockConfig) (f : Nat), cfg.encoder = .fixed4x →
        latchSubBits Params.reference cfg = 1120
          ∧ (300 * f ≤ latchSubBits Params.reference cfg * 1000000 ↔ f ≤ 3733333))

/-- TP is what TIMING_DERIVE gives for CFG.clock_hz, in every block and for ever (R29, R33, R112). -/
def Obligations.StepKeepsDerivedTiming : Prop :=
  let derived := fun s : State => ∀ b clk tp, s.block = some b → b.cfg.encoder = .timed clk tp →
    timingDerive s.params clk.toNat = .ok tp
  derived State.reset ∧ ∀ s t, derived s → step s = .next t → derived t

/-! ### Construction -/

/-- NEW_FIXED (R113), and NEW (R88): refused while busy (R66), else it cannot fail, and nothing else of the state changes
but the report to the host. The model's choice: BUF is empty, where R42 leaves a Prerendered one unspecified (log 13); the
report's record and its empty lists (log 18); the values of the loop variables while Idle (log 25). -/
def Obligations.NewFixedConstructs : Prop :=
  ∀ (f : NewFields) (s : State), paramsValid s.params = true →
    let built := fun fields : NewFields => Host.Outcome.next (φ := Fault) (ρ := Refusal) { s with
      block := some
        { cfg := ⟨.fixed4x, fields.device, fields.order, fields.preLatch, fields.strategy, fields.resetMode⟩
          seq := ⟨.idle, 0, 0, 0, 0, 0, 0, 0, [], none, .listed [], false⟩
          buf := [] }
      trace := []
      observed := s.observed ++ [⟨.ok, [], [], .listed []⟩] }
    (isBusy s = true → exec (.newFixed f) s = .refused .busy ∧ exec .new s = .refused .busy)
    ∧ (isBusy s = false → exec (.newFixed f) s = built f
        ∧ exec .new s = built ⟨.threeChannel, .grb, false, .streaming, .byteAtATime⟩)

/-- A command that arrives while the block is busy is refused (R66). That a busy block takes no command word from the
host's queue is the model's choice (log 3). -/
def Obligations.BusyRefusesCommands : Prop :=
  ∀ s : State, paramsValid s.params = true → isBusy s = true →
    (∀ i : Instr, i.isCommand = true → exec i s = .refused .busy) ∧ (∀ t, step s = .next t → t.cmds = s.cmds)

/-- The unconstructed block (R231): at power-on and after a failed NEW_TIMED; it accepts NEW_* and refuses WRITE, and a
construction on an Idle block leaves nothing of that block. -/
def Obligations.UnconstructedBlock : Prop :=
  State.reset.block = none
    ∧ ∀ s : State, paramsValid s.params = true →
      (s.block = none →
        (∀ colours, exec (.write colours) s = .refused .unconstructed)
        ∧ exec .latch s = .refused .unconstructed ∧ (∀ n, exec (.blank n) s = .refused .unconstructed)
        ∧ (∀ f, ∃ t, exec (.newFixed f) s = .next t) ∧ (∀ f clk, ∃ t, exec (.newTimed f clk) s = .next t))
      ∧ (isBusy s = false → ∀ f clk,
          (∀ cause, timingDerive s.params clk.toNat = .error cause →
            ∃ t, exec (.newTimed f clk) s = .next t ∧ t.block = none)
          ∧ exec (.newFixed f) s = exec (.newFixed f) { s with block := none }
          ∧ exec (.newTimed f clk) s = exec (.newTimed f clk) { s with block := none })

/-- Parameters that R7 excludes are rejected before anything runs (spec/93_implementation_defined.md U17). -/
def Obligations.BadParametersFault : Prop :=
  (∀ s : State, paramsValid s.params = false →
    step s = .fault .badParameters ∧ ∀ i, exec i s = .fault .badParameters)
    ∧ (∀ p : Params, p.zeroHighThreshold = 0 ∨ p.oneHighThreshold = 0 ∨ p.bitPeriodThreshold = 0
        ∨ p.minClockHz = 0 ∨ p.maxTotal < 2 → paramsValid p = false)

/-- A colour of the other kind is refused, and nothing else is refused as one (R154): a listed colour by the WRITE to a
ready block (the model's choice of the place, log 15), any colour by the step that draws it, where a host stream hands
over a record of three or of four channels (the model's choice of the place, log 16). -/
def Obligations.ColourMismatchRefused : Prop :=
  ∀ (s : State) (b : Block), paramsValid s.params = true → s.block = some b →
    (b.seq.phase = .idle → ∀ cs : List Colour,
      (exec (.write (.listed cs)) s = .refused .colourMismatch
        ↔ b.cfg.device = .threeChannel ∧ ∃ c ∈ cs, c.w ≠ 0x00#8))
    ∧ (control b = .pull →
        (step s = .refused .colourMismatch
          ↔ (b.cfg.device = .threeChannel ∧ ∃ c cs, b.seq.colours = .listed (c :: cs) ∧ c.w ≠ 0x00#8)
            ∨ ∃ id pos r, b.seq.colours = .stream id pos ∧ Config.hostStream id pos = some r
                ∧ recordChannels r ≠ channelCount b.cfg.device))

/-! ### BitEncoder -/

/-- LUT_00 to LUT_11 (R83): the table word's sub-bits, most significant first, go into the accumulator, and the next
group comes. The model's choice (log 8, after R70): under Timed, and away from the encode point, inside a WRITE or not, they
are refused as not issuable. The four reference words. -/
def Obligations.TableLookups : Prop :=
  (∀ (s : State) (b : Block), paramsValid s.params = true → s.block = some b →
   (control b ≠ .encode → ∀ i ∈ [Instr.lut00, .lut01, .lut10, .lut11], exec i s = .refused .notIssuable)
   ∧ (control b = .encode →
    let after := fun v : Byte => Host.Outcome.next (φ := Fault) (ρ := Refusal) { s with
      block := some { b with seq := { b.seq with
        acc := b.seq.acc ++ [v.getLsbD 7, v.getLsbD 6, v.getLsbD 5, v.getLsbD 4,
          v.getLsbD 3, v.getLsbD 2, v.getLsbD 1, v.getLsbD 0]
        enc := b.seq.enc + 1 } } }
    (b.cfg.encoder = .fixed4x →
      exec .lut00 s = after s.params.lut.w00 ∧ exec .lut01 s = after s.params.lut.w01
        ∧ exec .lut10 s = after s.params.lut.w10 ∧ exec .lut11 s = after s.params.lut.w11)
    ∧ (b.cfg.encoder ≠ .fixed4x →
        ∀ i ∈ [Instr.lut00, .lut01, .lut10, .lut11], exec i s = .refused .notIssuable)))
    ∧ Params.reference.lut = ⟨0x88#8, 0x8E#8, 0xE8#8, 0xEE#8⟩

/-- TIMED_BIT_0 and TIMED_BIT_1 (R81): a high run and a low run of `total` sub-bits together. The model's choice (log 8,
after R70): under Fixed4x, and away from the encode point, inside a WRITE or not, they are refused as not issuable. -/
def Obligations.TimedBits : Prop :=
  ∀ (s : State) (b : Block), paramsValid s.params = true → s.block = some b →
   (control b ≠ .encode →
      exec .timedBit0 s = .refused .notIssuable ∧ exec .timedBit1 s = .refused .notIssuable)
   ∧ (control b = .encode →
    let after := fun (high low : Nat) => Host.Outcome.next (φ := Fault) (ρ := Refusal) { s with
      block := some { b with seq := { b.seq with
        acc := b.seq.acc ++ (List.replicate high true ++ List.replicate low false)
        enc := b.seq.enc + 1 } } }
    (∀ clk tp, b.cfg.encoder = .timed clk tp →
      exec .timedBit0 s = after tp.zeroHigh (tp.total - tp.zeroHigh)
        ∧ exec .timedBit1 s = after tp.oneHigh (tp.total - tp.oneHigh))
    ∧ (b.cfg.encoder = .fixed4x →
        exec .timedBit0 s = .refused .notIssuable ∧ exec .timedBit1 s = .refused .notIssuable))

/-- The internal rows are no commands (R70): where the sequencer does not perform them they are refused. -/
def Obligations.InternalRowsNotIssuable : Prop :=
  ∀ (i : Instr) (s : State), i.isCommand = false → paramsValid s.params = true → isBusy s = false →
    (s.block = none → exec i s = .refused .unconstructed)
    ∧ (∀ b, s.block = some b → exec i s = .refused .notIssuable)

/-- From the start of a channel byte, the encoder's iterations leave exactly ENC of that byte in the accumulator, and
change nothing else (R120, R121, R123). The model's choice: one iteration is one step (log 7), and the whole byte is encoded
before any of it is issued (log 11). -/
def Obligations.EncoderLoopBuildsEnc : Prop :=
  ∀ (s : State) (b : Block), Inv s → s.block = some b → control b = .encode → b.seq.enc = 0 →
    ∃ acc, runSteps (encoderUnits b.cfg) s
        = .next { s with block := some { b with seq := { b.seq with enc := encoderUnits b.cfg, acc := acc } } }
      ∧ (b.cfg.encoder = .fixed4x → pack acc = encFixed s.params.lut (currentByte b))
      ∧ (∀ clk tp, b.cfg.encoder = .timed clk tp → pack acc = encTimed tp (currentByte b))

/-- The high sub-bits of a channel byte's encoding (R126): one_high for each 1 of the byte, zero_high for each 0; under
the reference table 3 and 1. -/
def Obligations.HighSubBitCount : Prop :=
  let highs := fun bytes : List Byte => (bytes.flatMap byteBits).countP (· = true)
  let ones := fun d : Byte => (byteBits d).countP (· = true)
  (∀ (p : Params) (tp : TimingParameters) (d : Byte), TimingInv p tp →
    highs (encTimed tp d) = ones d * tp.oneHigh + (8 - ones d) * tp.zeroHigh)
    ∧ (∀ d : Byte, highs (encFixed Params.reference.lut d) = ones d * 3 + (8 - ones d) * 1)

/-- The reference table is the Timed encoding with one_high 3, zero_high 1 and total 4, which no clock gives (R129). -/
def Obligations.FixedTableIsTimedOneThreeFour : Prop :=
  (∀ (d : Byte) (resetBytes : Nat), encFixed Params.reference.lut d = encTimed ⟨1, 3, 4, resetBytes⟩ d)
    ∧ (∀ (clk : Word) (resetBytes : Nat), timingDerive Params.reference clk.toNat ≠ .ok ⟨1, 3, 4, resetBytes⟩)

/-- Every channel byte's encoding begins high and ends low, and so does every single byte of the fixed table's; a Timed
byte may end high (R130, R131). -/
def Obligations.LineLowAfterChannelByte : Prop :=
  (∀ (p : Params) (cfg : BlockConfig) (d : Byte), paramsValid p = true → ConfigInv p cfg →
    ((encodeByte p cfg d).flatMap byteBits).head? = some true
      ∧ ((encodeByte p cfg d).flatMap byteBits).getLast? = some false
      ∧ (cfg.encoder = .fixed4x → ∀ v ∈ encodeByte p cfg d, v.getLsbD 7 = true ∧ v.getLsbD 0 = false))
    ∧ (∀ resetBytes, encTimed ⟨1, 2, 5, resetBytes⟩ 0xFF#8 = [0xC6#8, 0x31#8, 0x8C#8, 0x63#8, 0x18#8])

/-- The payload's length (R155, R164): NCH times L bytes a pixel, L = 4 or `total`. -/
def Obligations.PayloadLength : Prop :=
  ∀ (p : Params) (cfg : BlockConfig) (cs : List Colour), ConfigInv p cfg →
    let nch := match cfg.device with
      | .threeChannel => 3
      | .fourChannelWithWhite => 4
    let l := match cfg.encoder with
      | .fixed4x => 4
      | .timed _ tp => tp.total
    (∀ c, (pixelPayload p cfg c).length = nch * l) ∧ (framePayload p cfg cs).length = cs.length * nch * l

/-! ### ColorSequencer -/

/-- ORDER (R150), ORDER3 (R151) and ORDER4 (R153). -/
def Obligations.ChannelOrder : Prop :=
  ∀ (cfg : BlockConfig) (r g b w : Byte),
    (cfg.device = .threeChannel → orderColour cfg ⟨r, g, b, w⟩ =
      match cfg.order with
      | .grb => [g, r, b]
      | .rgb => [r, g, b]
      | .rbg => [r, b, g]
      | .gbr => [g, b, r]
      | .brg => [b, r, g]
      | .bgr => [b, g, r])
    ∧ (cfg.device = .fourChannelWithWhite → orderColour cfg ⟨r, g, b, w⟩ = [g, r, b, w])

/-! ### WRITE, one move at a time -/

/-- WRITE, LATCH and BLANK start a frame on any Idle block, whatever an earlier WRITE left (R160, R161, R209). The step
enters the first phase too, so that a bulk SingleTransaction pre-latch is already counted (R173; log 27). Nothing else of
the state changes. -/
def Obligations.WriteStarts : Prop :=
  ∀ (s : State) (b : Block), paramsValid s.params = true → s.block = some b → b.seq.phase = .idle →
    let started := fun colours => Host.Outcome.next (φ := Fault) (ρ := Refusal) { s with
      block := some
        { cfg := b.cfg
          seq :=
            { phase := if isStreaming b.cfg then .payload else .encoding
              pixel := 0, chan := 0, sub := 0
              latchLeft := if isStreaming b.cfg = false ∧ isSingle b.cfg = true ∧ b.cfg.preLatch = true
                then latchLength s.params b.cfg else 0
              cursor := 0, inFlight := 0, enc := 0, acc := [], colour := none, colours := colours, ended := false }
          buf := if isBuffered b.cfg then [] else b.buf }
      trace := [] }
    (∀ cs, (b.cfg.device = .threeChannel → ∀ c ∈ cs, c.w = 0x00#8) →
      exec (.write (.listed cs)) s = started (.listed cs))
    ∧ (∀ id pos, exec (.write (.stream id pos)) s = started (.stream id pos))
    ∧ exec .latch s = started (.listed [])
    ∧ (∀ n, exec (.blank n) s = started (.listed (List.replicate n ⟨0#8, 0#8, 0#8, 0#8⟩)))

/-- A pull (R162): the next colour, if it is of the device's kind, else the refusal of R154; or None, after which Streaming
begins its post-latch (R167) and a bulk strategy has only a SingleTransaction post-latch left to render (R173). The model's
choice: None and the post-latch are one step, and `latch_left` counts the post-latch of the Encoding phase (log 27); a host
stream is a free value, and its colours are looked at when they are drawn (log 16). -/
def Obligations.PullsColours : Prop :=
  ∀ (s : State) (b : Block), paramsValid s.params = true → s.block = some b → control b = .pull →
    let seqIs := fun q : Seq => step s = .next { s with block := some { b with seq := q } }
    let pulled := fun (c : Colour) (rest : ColourSource) => seqIs { b.seq with colour := some c, colours := rest }
    let mismatch := step s = .refused .colourMismatch
    let none_ :=
      (isStreaming b.cfg = true → seqIs { b.seq with
        ended := true, phase := .postLatch, latchLeft := latchLength s.params b.cfg })
      ∧ (isStreaming b.cfg = false → seqIs { b.seq with
          ended := true, latchLeft := if isSingle b.cfg then latchLength s.params b.cfg else 0 })
    (∀ c cs, b.seq.colours = .listed (c :: cs) →
        (b.cfg.device = .fourChannelWithWhite ∨ c.w = 0x00#8 → pulled c (.listed cs))
        ∧ (b.cfg.device = .threeChannel → c.w ≠ 0x00#8 → mismatch))
    ∧ (b.seq.colours = .listed [] → none_)
    ∧ (∀ id pos, b.seq.colours = .stream id pos →
        match Config.hostStream id pos with
        | none => none_
        | some (.three red green blue) =>
          (b.cfg.device = .threeChannel → pulled ⟨red, green, blue, 0x00#8⟩ (.stream id (pos + 1)))
          ∧ (b.cfg.device = .fourChannelWithWhite → mismatch)
        | some (.four red green blue white) =>
          (b.cfg.device = .fourChannelWithWhite → pulled ⟨red, green, blue, white⟩ (.stream id (pos + 1)))
          ∧ (b.cfg.device = .threeChannel → mismatch))

/-- An encoded output byte (R35, R167, R170, R174): exchanged with Streaming, one event a step; appended at the cursor with
a bulk strategy. The model's choice (log 27): the position moves on in the step of the read, or of the append. -/
def Obligations.OutputByteIssued : Prop :=
  ∀ (s : State) (b : Block), paramsValid s.params = true → s.block = some b → control b = .emit →
    let v := packByte b.seq.acc
    let moved := fun q : Seq =>
      if q.sub + 1 < encodedLength b.cfg then { q with sub := q.sub + 1, acc := q.acc.drop 8 }
      else if q.chan + 1 < channelCount b.cfg.device then { q with sub := 0, chan := q.chan + 1, enc := 0, acc := [] }
      else { q with sub := 0, chan := 0, pixel := q.pixel + 1, enc := 0, acc := [], colour := none }
    (∀ r later, isStreaming b.cfg = true → b.seq.inFlight ≠ 2 → s.answers = .ok r :: later →
      step s = .next { s with
        answers := later, trace := s.trace ++ [(.send v, .ok)]
        block := some { b with seq := { b.seq with inFlight := 2 } } })
    ∧ (∀ r later, isStreaming b.cfg = true → b.seq.inFlight = 2 → s.answers = .ok r :: later →
        step s = .next { s with
          answers := later, trace := s.trace ++ [(.read, .data r)]
          block := some { b with seq := moved { b.seq with inFlight := 1 } } })
    ∧ (isStreaming b.cfg = false →
        (∀ capacity, bufferCapacity b.cfg = some capacity →
          b.seq.cursor + max 1 (encodedLength b.cfg - b.seq.sub) ≤ capacity) →
        step s = .next { s with
          block := some
            { b with
              seq := moved { b.seq with cursor := b.seq.cursor + 1 }
              buf := memWrite b.buf b.seq.cursor v } })

/-- LATCH_BYTE (R85, R165): exchanged with Streaming (R167, R170), appended in the Encoding phase under the group check
(R173, R175), a one-byte write in a latch phase of a bulk strategy (R178); each counts `latch_left` down (R35). The
model's choice: `latch_left` counts the appended latch of the Encoding phase too (log 27), and elsewhere the row is refused
as not issuable (log 8, after R70). -/
def Obligations.LatchByteIssued : Prop :=
  ∀ (s : State) (b : Block), paramsValid s.params = true → s.block = some b →
    (control b ≠ .latch → exec .latchByte s = .refused .notIssuable)
    ∧ (control b = .latch →
      (∀ r later, isStreaming b.cfg = true → b.seq.inFlight ≠ 2 → s.answers = .ok r :: later →
        exec .latchByte s = .next { s with
          answers := later, trace := s.trace ++ [(.send 0x00#8, .ok)]
          block := some { b with seq := { b.seq with inFlight := 2 } } })
      ∧ (∀ r later, isStreaming b.cfg = true → b.seq.inFlight = 2 → s.answers = .ok r :: later →
          exec .latchByte s = .next { s with
            answers := later, trace := s.trace ++ [(.read, .data r)]
            block := some { b with seq := { b.seq with inFlight := 1, latchLeft := b.seq.latchLeft - 1 } } })
      ∧ (isStreaming b.cfg = false → b.seq.phase = .encoding →
          (∀ capacity, bufferCapacity b.cfg = some capacity → b.seq.cursor + b.seq.latchLeft ≤ capacity) →
          exec .latchByte s = .next { s with
            block := some
              { b with
                seq := { b.seq with cursor := b.seq.cursor + 1, latchLeft := b.seq.latchLeft - 1 }
                buf := memWrite b.buf b.seq.cursor 0x00#8 } })
      ∧ (∀ r later, isStreaming b.cfg = false → b.seq.phase ≠ .encoding → s.answers = .ok r :: later →
          exec .latchByte s = .next { s with
            answers := later, trace := s.trace ++ [(.write [0x00#8], .ok)]
            block := some { b with seq := { b.seq with latchLeft := b.seq.latchLeft - 1 } } }))

/-- DUMMY_BYTE (R169): the first event of a streaming WRITE, with no read after it; then the pre-latch, if there is one
(R166, R167). The model's choice: the same step enters the pre-latch (log 27), and elsewhere the row is refused as not
issuable (log 8, after R70). -/
def Obligations.DummyByteSent : Prop :=
  ∀ (s : State) (b : Block), paramsValid s.params = true → s.block = some b →
    (control b ≠ .dummy → exec .dummyByte s = .refused .notIssuable)
    ∧ (∀ r later, control b = .dummy → s.answers = .ok r :: later →
        exec .dummyByte s = .next { s with
          answers := later, trace := s.trace ++ [(.send s.params.dummyByte, .ok)]
          block := some { b with seq :=
            if b.cfg.preLatch then
              { b.seq with inFlight := 1, phase := .preLatch, latchLeft := latchLength s.params b.cfg }
            else { b.seq with inFlight := 1 } } })

/-- The transport's answers (R180): NotReady holds the block and is not listed (R80); Err ends the WRITE at once with the
kind (R79) and the transport's own error value, and the block is Idle again with its cursor and in_flight as they were (R41,
R182, R204); Ok goes on, the event in the trace. The model's choice: the values of the loop variables while Idle (log 25),
and the colours left kept in the observation (log 18). -/
def Obligations.TransportAnswers : Prop :=
  ∀ (s : State) (b : Block) (e : Event), paramsValid s.params = true → s.block = some b →
    pendingEvent s.params b = some e →
    (∀ later, s.answers = .notReady :: later → step s = .next { s with answers := later })
    ∧ (∀ x later, s.answers = .err x :: later →
        step s = .next { s with
          answers := later
          trace := []
          block := some { b with seq :=
            ⟨.idle, 0, 0, 0, 0, b.seq.cursor, b.seq.inFlight, 0, [], none, .listed [], false⟩ }
          observed := s.observed ++
            [⟨.transportError (eventKind e) x, s.trace ++ [(e, .err x)], b.buf, b.seq.colours⟩] }
        ∧ resultInfo (.transportError (eventKind e) x) =
          match e with
          | .send _ => 0#32
          | .read => 1#32
          | .write _ => 2#32)
    ∧ (∀ r later, s.answers = .ok r :: later → ∃ t, step s = .next t ∧ t.answers = later
        ∧ ((t.trace = s.trace ++ [(e, okReply e r)] ∧ t.observed = s.observed)
          ∨ (t.trace = []
              ∧ t.observed = s.observed ++ [⟨.ok, s.trace ++ [(e, okReply e r)], b.buf, b.seq.colours⟩])))

/-- The model's two waits: a ready block without a command (log 4; log 28 for BUF), and a block whose event has no answer
yet (log 5), stay as they are. -/
def Obligations.WaitsWithoutInput : Prop :=
  ∀ s : State, paramsValid s.params = true →
    (isBusy s = false → s.cmds = [] → step s = .next s)
    ∧ (∀ b e, s.block = some b → pendingEvent s.params b = some e → s.answers = [] → step s = .next s)

/-- What a step inside a WRITE leaves alone (R33, R41, R52, R80): the parameters, CFG and TP; every byte of BUF but the one
at the cursor, which only the Encoding phase writes (R173), and then moves the cursor; the answers, when the move is no
event. It either goes on, or it ends the WRITE with one observation and the block is Idle. The model's choice: the host's
command words are kept too (log 3), and the observation is a record that holds BUF (log 18). -/
def Obligations.BusyStepFrame : Prop :=
  ∀ (s t : State) (b : Block), Inv s → s.block = some b → b.seq.phase ≠ .idle → step s = .next t →
    t.params = s.params ∧ t.cmds = s.cmds
    ∧ (pendingEvent s.params b = none → t.answers = s.answers)
    ∧ ∃ b', t.block = some b' ∧ b'.cfg = b.cfg
      ∧ (∀ i, memRead b'.buf i ≠ memRead b.buf i →
          i = b.seq.cursor ∧ b.seq.phase = .encoding ∧ b'.seq.cursor = b.seq.cursor + 1)
      ∧ (b'.seq.cursor = b.seq.cursor ∨ (b.seq.phase = .encoding ∧ b'.seq.cursor = b.seq.cursor + 1))
      ∧ ((t.observed = s.observed ∧ b'.seq.phase ≠ .idle)
          ∨ ∃ o, t.observed = s.observed ++ [o] ∧ b'.seq.phase = .idle ∧ t.trace = [] ∧ o.buf = b'.buf)

/-- A group is appended whole or not at all (R53, R174, R175): if the L bytes of a channel byte, or the bytes of a latch,
do not fit, the WRITE ends with OutOfBounds and nothing is written; if they fit, that many steps write exactly them at
the cursor. The model's choice: one append is one step (log 7); `latch_left` is the length of the latch group still to append
(log 27); and the check is made again for the rest of a group at each of its bytes (log 12), so that the latch clause also
speaks of states in the middle of a latch, where R175 makes no check. -/
def Obligations.GroupAppendedWhole : Prop :=
  ∀ (s : State) (b : Block), Inv s → s.block = some b → b.seq.phase = .encoding →
    ∀ (n : Nat) (bytes : List Byte),
      (control b = .emit ∧ b.seq.sub = 0 ∧ n = encodedLength b.cfg ∧ bytes = pack b.seq.acc)
        ∨ (control b = .latch ∧ n = b.seq.latchLeft ∧ bytes = List.replicate n 0x00#8) →
      (∀ capacity, bufferCapacity b.cfg = some capacity → capacity < b.seq.cursor + n →
        step s = .next (endWrite .outOfBounds b s))
      ∧ ((∀ capacity, bufferCapacity b.cfg = some capacity → b.seq.cursor + n ≤ capacity) →
          ∃ t b', runSteps n s = .next t ∧ t.block = some b' ∧ b'.cfg = b.cfg
            ∧ b'.seq.cursor = b.seq.cursor + n
            ∧ memReadRange b'.buf b.seq.cursor n = some bytes
            ∧ (∀ i, i < b.seq.cursor ∨ b.seq.cursor + n ≤ i → memRead b'.buf i = memRead b.buf i)
            ∧ t.answers = s.answers ∧ t.trace = s.trace ∧ t.observed = s.observed)

/-- The bulk write of BUF's first `cursor` bytes (R177, R178): with SingleTransaction the WRITE has ended, with
ByteAtATime the post-latch follows. The model's choice (log 27): the step in which the write is answered Ok ends the WRITE
or enters the post-latch. -/
def Obligations.BulkPayloadWritten : Prop :=
  ∀ (s : State) (b : Block) (bytes : List Byte) (r : Byte) (later : List Answer),
    paramsValid s.params = true → s.block = some b → control b = .bulkWrite →
    memReadRange b.buf 0 b.seq.cursor = some bytes → s.answers = .ok r :: later →
    let s' := { s with answers := later, trace := s.trace ++ [(.write bytes, .ok)] }
    (isSingle b.cfg = true → step s = .next (endWrite .ok b s'))
    ∧ (isSingle b.cfg = false → step s = .next { s' with block := some { b with seq :=
        { b.seq with phase := .postLatch, latchLeft := latchLength s.params b.cfg } } })

/-- The final drain read balances the pair (R171) and ends the WRITE, the block Idle again (R41, R182). The model's choice:
one step does both (log 27), the values of the loop variables while Idle (log 25), and the colours left kept in the
observation (log 18). -/
def Obligations.FinalDrainRead : Prop :=
  ∀ (s : State) (b : Block) (r : Byte) (later : List Answer),
    paramsValid s.params = true → s.block = some b → control b = .drain → s.answers = .ok r :: later →
    step s = .next { s with
      answers := later
      trace := []
      block := some { b with seq := ⟨.idle, 0, 0, 0, 0, b.seq.cursor, 0, 0, [], none, .listed [], false⟩ }
      observed := s.observed ++ [⟨.ok, s.trace ++ [(.read, .data r)], b.buf, b.seq.colours⟩] }

/-- The moves between the parts of a frame (R167, R173, R178): a latch phase that has no byte left, and the end of the
Encoding phase. That they are steps of their own is the model's choice (log 27). -/
def Obligations.PartsFollow : Prop :=
  ∀ (s : State) (b : Block), paramsValid s.params = true → s.block = some b →
    let seqIs := fun q : Seq => step s = .next { s with block := some { b with seq := q } }
    (control b = .latchDone → b.seq.phase = .preLatch → seqIs { b.seq with phase := .payload })
    ∧ (control b = .latchDone → b.seq.phase = .postLatch → isStreaming b.cfg = true →
        seqIs { b.seq with phase := .drain })
    ∧ (control b = .latchDone → b.seq.phase = .postLatch → isStreaming b.cfg = false →
        step s = .next (endWrite .ok b s))
    ∧ (control b = .rendered → isSingle b.cfg = false → b.cfg.preLatch = true →
        seqIs { b.seq with phase := .preLatch, latchLeft := latchLength s.params b.cfg })
    ∧ (control b = .rendered → isSingle b.cfg = true ∨ b.cfg.preLatch = false →
        seqIs { b.seq with phase := .payload })

/-! ### WRITE, all its moves -/

/-- The phases of a WRITE come in each strategy's order, an error goes straight to Idle, and only an error leaves the
order; with Streaming and a pre-latch, the dummy byte leads to the pre-latch and to nothing else (R188). A step that reports
a result, Ok or an error, leaves the block Idle (R182, R201). The model's choice (log 27): the step that sends the dummy byte
is the one that enters the pre-latch, so that a Payload with no byte in flight is followed by the pre-latch alone, and a
Payload with bytes in flight by the post-latch, where R167 assigns the phase by itself; and the step in which the bulk write
is answered Ok is the one that enters the post-latch or ends the WRITE. -/
def Obligations.PhaseOrder : Prop :=
  ∀ (s t : State) (b b' : Block), Inv s → s.block = some b → t.block = some b' → step s = .next t →
    (b'.seq.phase = b.seq.phase ∨ b'.seq.phase ∈ nextPhases b.cfg b.seq
      ∨ (b'.seq.phase = .idle ∧ ∃ o, t.observed = s.observed ++ [o] ∧ o.result ≠ .ok))
    ∧ (isStreaming b.cfg = true → b.cfg.preLatch = true → b.seq.phase = .payload → b.seq.inFlight = 0 →
        b'.seq.phase = .payload → b'.seq.inFlight = 0)
    ∧ (∀ o, t.observed = s.observed ++ [o] → b'.seq.phase = .idle)

/-- From a sound state no step faults, and a busy block always has a next state, unless a host stream hands it a colour of
the other kind: that draw is refused (R55, R154, R200, R206; the model's choice of the place, log 16). -/
def Obligations.SoundStepsNeverFault : Prop :=
  ∀ s : State, Inv s → (∀ r, step s ≠ .fault r)
    ∧ (isBusy s = true → (∃ t, step s = .next t)
        ∨ (step s = .refused .colourMismatch
            ∧ ∃ b id pos r, s.block = some b ∧ control b = .pull ∧ b.seq.colours = .stream id pos
              ∧ Config.hostStream id pos = some r ∧ recordChannels r ≠ channelCount b.cfg.device))

/-- A step runs the decoded instruction: a ready block runs the command at the head of the host's words, on the state
without those words (R12, R70, R72), and refuses words that are no command (R78); inside a WRITE the step runs the internal
row of its control point: the dummy byte (R169), a latch byte (R165), a lookup (R121) or a timed bit (R123). The model's
choice: the host's words are the queue State.cmds, of which a ready block takes the head (log 3), and the sequencer's moves
that the opcode table names are instructions, run where the sequencer stands at them (log 8). -/
def Obligations.StepRunsDecoded : Prop :=
  ∀ s : State, paramsValid s.params = true →
    (∀ i rest, isBusy s = false → decode s.cmds = .ok (i, rest) → step s = exec i { s with cmds := rest })
    ∧ (∀ e, isBusy s = false → s.cmds ≠ [] → decode s.cmds = .error e → step s = .refused (.undecodable e))
    ∧ (∀ b, s.block = some b →
        (control b = .dummy → step s = exec .dummyByte s)
        ∧ (control b = .latch → step s = exec .latchByte s)
        ∧ (control b = .encode → ∀ clk tp, b.cfg.encoder = .timed clk tp →
            step s = exec (if logicalBit (currentByte b) b.seq.enc then .timedBit1 else .timedBit0) s)
        ∧ (control b = .encode → b.cfg.encoder = .fixed4x →
            ∀ group, group = bitGroup (currentByte b) b.seq.enc →
              (group = 0#2 → step s = exec .lut00 s) ∧ (group = 1#2 → step s = exec .lut01 s)
                ∧ (group = 2#2 → step s = exec .lut10 s) ∧ (group = 3#2 → step s = exec .lut11 s)))

/-- The invariant of the machine is kept by every step (R30, R35 to R38, R41, R53, R55, R56, R154, R170, R188). `Inv` also
holds clauses that are the model's choice and no rule of the spec: the parameters in State (log 1, 2); the accumulator and
`encodedFirst` (log 11); the canonical form of BUF and the unlisted byte (log 13); where the colours' kind is checked
(log 15, 16); the trace that is empty outside a WRITE (log 18); the loop variables enc, colour, colours and ended, and their
values while Idle (log 25); and which values of SEQ stand together between two moves (log 7, 27), as `streamEnded` and
latch_left in the Encoding phase. Safety.lean says of each clause which it is. -/
def Obligations.StepKeepsInvariant : Prop :=
  ∀ s t : State, Inv s → step s = .next t → Inv t

/-- The invariant holds at power-on, where there is no block (R231). The reference parameters, the empty environment and the
empty trace are the model's choice (log 1, 5, 18, 19). -/
def Obligations.ResetInvariant : Prop :=
  Inv State.reset ∧ State.reset.block = none ∧ State.reset.params = Params.reference

/-- While a WRITE executes, in_flight is the lead of the sends over the reads, and stays so (R37, R170, R171). The model's
choice: the events issued so far stand in State.trace (log 18), and in_flight moves in the step in which its event is answered
(log 27). -/
def Obligations.StepKeepsEchoBalance : Prop :=
  ∀ s t : State, Inv s → EchoInv s → step s = .next t → EchoInv t

/-- WHATEVER THE TRANSPORT ANSWERS, a WRITE of listed colours, followed for any number of steps, is either still going
on, having issued a beginning of the frame's events without a failure, or it has ended as `FrameEnds` says (R167, R176 to
R180, R201, R203). No step of it faults or is refused. The model's choice: the answers are a list (log 5), the steps (log 7),
and that the host's command words are kept (log 3). -/
def Obligations.EveryFrameEndsWell : Prop :=
  ∀ (s s0 : State) (b : Block) (cs : List Colour), Inv s → s.block = some b → b.seq.phase = .idle →
    exec (.write (.listed cs)) s = .next s0 →
    ∀ k, (∃ t, runSteps k s0 = .next t ∧ t.observed = s.observed ∧ isBusy t = true ∧ NoneFailed t.trace
        ∧ traceEvents t.trace <+: frameEvents s.params b.cfg cs)
      ∨ ∃ j t o, j ≤ k ∧ runSteps j s0 = .next t ∧ t.observed = s.observed ++ [o] ∧ isBusy t = false
        ∧ t.cmds = s.cmds ∧ FrameEnds s.params b.cfg cs o

/-- When the transport answers enough events Ok and none Err, however often NotReady, and the buffer is large enough, the
WRITE ends Ok, with the whole frame issued (R167, R177, R178, R182). The model's choice: the answers are a list (log 5), the
steps (log 7), and that the host's command words are kept (log 3). -/
def Obligations.FrameCompletes : Prop :=
  ∀ (s s0 : State) (b : Block) (cs : List Colour), Inv s → s.block = some b → b.seq.phase = .idle →
    exec (.write (.listed cs)) s = .next s0 →
    (∀ a ∈ s.answers, a.isErr = false) →
    (frameEvents s.params b.cfg cs).length ≤ s.answers.countP Answer.isOk →
    (∀ capacity, bufferCapacity b.cfg = some capacity → minCapacity s.params b.cfg cs.length ≤ capacity) →
    ∃ k t b' o, runSteps k s0 = .next t ∧ t.block = some b' ∧ b'.seq.phase = .idle ∧ b'.cfg = b.cfg
      ∧ b'.seq.inFlight = 0 ∧ t.cmds = s.cmds ∧ t.observed = s.observed ++ [o] ∧ o.result = .ok
      ∧ traceEvents o.trace = frameEvents s.params b.cfg cs

/-- A Prerendered WRITE of N pixels completes its Encoding phase exactly when the capacity is at least MINCAP(N) (R176);
otherwise it ends with OutOfBounds and has issued no event (R203). No answer of the transport is needed for either. -/
def Obligations.MinimumCapacity : Prop :=
  ∀ (s s0 : State) (b : Block) (cs : List Colour) (capacity : Word), Inv s → s.block = some b →
    b.seq.phase = .idle → b.cfg.strategy = .prerendered capacity → exec (.write (.listed cs)) s = .next s0 →
    let nch := match b.cfg.device with
      | .threeChannel => 3
      | .fourChannelWithWhite => 4
    let pre := if b.cfg.preLatch then 1 else 0
    let mincap := match b.cfg.resetMode with
      | .byteAtATime => cs.length * nch * encodedLength b.cfg
      | .singleTransaction => cs.length * nch * encodedLength b.cfg + (pre + 1) * latchLength s.params b.cfg
    (mincap ≤ capacity.toNat → ∃ k t b', runSteps k s0 = .next t ∧ t.block = some b' ∧ b'.seq.phase ≠ .idle
      ∧ b'.seq.phase ≠ .encoding ∧ t.observed = s.observed ∧ b'.seq.cursor = mincap
      ∧ memReadRange b'.buf 0 b'.seq.cursor = some (bufferImage s.params b.cfg cs))
    ∧ (capacity.toNat < mincap → ∃ k t o, runSteps k s0 = .next t ∧ t.observed = s.observed ++ [o]
        ∧ o.result = .outOfBounds ∧ o.trace = [] ∧ t.answers = s.answers)

/-- Frames are independent (R187): two machines with the same CFG, TP and parameters, given the same WRITE, the same
answers and the same commands after it, show the same results and event traces for ever, whatever their earlier WRITEs
left in BUF, cursor and in_flight. -/
def Obligations.FramesIndependent : Prop :=
  ∀ (s1 s2 r1 r2 : State) (b1 b2 : Block) (colours : ColourSource),
    Inv s1 → Inv s2 → s1.block = some b1 → s2.block = some b2 → b1.seq.phase = .idle → b2.seq.phase = .idle →
    b1.cfg = b2.cfg → s1.params = s2.params → s1.cmds = s2.cmds → s1.answers = s2.answers →
    exec (.write colours) s1 = .next r1 → exec (.write colours) s2 = .next r2 →
    ∀ k t1, runSteps k r1 = .next t1 → ∃ t2, runSteps k r2 = .next t2 ∧ t1.trace = t2.trace
      ∧ (t1.observed.drop s1.observed.length).map Observation.seen
          = (t2.observed.drop s2.observed.length).map Observation.seen

/-- A host stream ends, or its WRITE never ends Ok, however many steps it is given (R162; log 16). -/
def Obligations.UnboundedStreamNeverCompletes : Prop :=
  ∀ (s s0 : State) (b : Block) (id pos : Nat), Inv s → s.block = some b → b.seq.phase = .idle →
    exec (.write (.stream id pos)) s = .next s0 →
    (∃ n, Config.hostStream id (pos + n) = none)
    ∨ ∀ k t o, runSteps k s0 = .next t → t.observed = s.observed ++ [o] → o.result ≠ .ok

/-! ### Whole frames -/

/-- The counts of a successful streaming frame of N pixels (R172). -/
def Obligations.StreamingCounts : Prop :=
  ∀ (p : Params) (cfg : BlockConfig) (cs : List Colour), ConfigInv p cfg →
    let nch := match cfg.device with
      | .threeChannel => 3
      | .fourChannelWithWhite => 4
    let pre := if cfg.preLatch then 1 else 0
    let n := 1 + pre * latchLength p cfg + cs.length * nch * encodedLength cfg + latchLength p cfg
    (streamEvents p cfg cs).countP Event.isSend = n ∧ (streamEvents p cfg cs).countP Event.isRead = n

/-- The wire image of a frame whose events were all answered Ok (R186), the same sub-bits for every strategy but for the
dummy byte's, each byte most significant bit first. -/
def Obligations.WireImageOfFrame : Prop :=
  ∀ (p : Params) (cfg : BlockConfig) (cs : List Colour) (trace : List (Event × Reply)),
    NoneFailed trace → traceEvents trace = frameEvents p cfg cs →
    let gap := List.replicate (latchLength p cfg) 0x00#8
    let bytes := (if isStreaming cfg then [p.dummyByte] else [])
      ++ ((if cfg.preLatch then gap else []) ++ cs.flatMap (pixelPayload p cfg) ++ gap)
    wireBytes trace = bytes
      ∧ wireImage trace = bytes.flatMap fun v =>
        [v.getLsbD 7, v.getLsbD 6, v.getLsbD 5, v.getLsbD 4, v.getLsbD 3, v.getLsbD 2, v.getLsbD 1, v.getLsbD 0]

/-- Whatever a failed event put on the line (spec/93_implementation_defined.md U9), a WRITE puts nothing there but a
beginning of its frame (R186, R204; log 21). -/
def Obligations.LineCarriesFramePrefix : Prop :=
  ∀ (p : Params) (cfg : BlockConfig) (cs : List Colour) (o : Observation) (bytes : List Byte),
    FrameEnds p cfg cs o → LineMayCarry o.trace bytes → bytes <+: frameWire p cfg cs

/-- The frame without colours (R183), which LATCH sends. -/
def Obligations.EmptyFrame : Prop :=
  ∀ (p : Params) (cfg : BlockConfig),
    let rb := latchLength p cfg
    let pre := if cfg.preLatch then 1 else 0
    (isStreaming cfg = true → frameEvents p cfg [] =
      [Event.send p.dummyByte] ++ (List.replicate (pre * rb) [Event.send 0x00#8, .read]).flatten
        ++ (List.replicate rb [Event.send 0x00#8, .read]).flatten ++ [.read])
    ∧ (isStreaming cfg = false → isSingle cfg = false → frameEvents p cfg [] =
        List.replicate (pre * rb) (.write [0x00#8]) ++ [.write []] ++ List.replicate rb (.write [0x00#8]))
    ∧ (isStreaming cfg = false → isSingle cfg = true → frameEvents p cfg [] =
        [.write (List.replicate ((pre + 1) * rb) 0x00#8)])
    ∧ minCapacity p cfg 0 = if isSingle cfg then (pre + 1) * rb else 0

/-- The result word (R79): its code, its information field, and zeros above; the transport's error value is passed on
beside it. -/
def Obligations.ResultWords : Prop :=
  (∀ r : Result, (resultWord r).extractLsb' 16 16 = 0#16)
    ∧ resultWord .ok = 0x00000000#32
    ∧ resultWord (.invalidTiming .belowMinimum) = 0x00000001#32
    ∧ resultWord (.invalidTiming .tooManySubBits) = 0x00000101#32
    ∧ resultWord (.invalidTiming .invariant) = 0x00000201#32
    ∧ resultWord .outOfBounds = 0x00000002#32
    ∧ (∀ e, resultWord (.transportError .send e) = 0x00000003#32)
    ∧ (∀ e, resultWord (.transportError .read e) = 0x00000103#32)
    ∧ (∀ e, resultWord (.transportError .write e) = 0x00000203#32)

/-- What the assembler reads has words that mean it, or what a pseudo-command stands for (R88): every operand is
range-checked (R10, R72, R87). The model's choice (log 26): a line with a count of 2^32 or more is no command, and what no
words spell is encoded as words that the decoder refuses (R78), never as those of another command. -/
def Obligations.AssembledLinesEncode : Prop :=
  (∀ (dev : DeviceKind) (line : List Char) (i : Instr), assemble dev line = some i →
    i.isCommand = true ∧ i.WellFormed = true ∧ decode (encode i) = .ok (i.expand, []))
    ∧ (∀ i : Instr, i.isCommand = true → i.WellFormed = false → ∃ e, decode (encode i) = .error e)
    ∧ (∀ dev, assemble dev "BLANK 4294967295".toList = some (.blank 4294967295)
        ∧ assemble dev "BLANK 4294967296".toList = none)
end

