-- ==== Sys2Proof/Laws/State.lean ====
section
/-! SUPPORT. The record updates of the state, field by field, so that no later proof unfolds one. -/

namespace Sys2Proof.Machine

section Updates

variable (s : State) (b : Block) (q : Seq) (r : Result)

@[simp] theorem State.withBlock_params : (s.withBlock b).params = s.params := rfl
@[simp] theorem State.withBlock_block : (s.withBlock b).block = some b := rfl
@[simp] theorem State.withBlock_cmds : (s.withBlock b).cmds = s.cmds := rfl
@[simp] theorem State.withBlock_answers : (s.withBlock b).answers = s.answers := rfl
@[simp] theorem State.withBlock_trace : (s.withBlock b).trace = s.trace := rfl
@[simp] theorem State.withBlock_observed : (s.withBlock b).observed = s.observed := rfl

@[simp] theorem State.withSeq_params : (s.withSeq b q).params = s.params := rfl
@[simp] theorem State.withSeq_block : (s.withSeq b q).block = some (b.withSeq q) := rfl
@[simp] theorem State.withSeq_cmds : (s.withSeq b q).cmds = s.cmds := rfl
@[simp] theorem State.withSeq_answers : (s.withSeq b q).answers = s.answers := rfl
@[simp] theorem State.withSeq_trace : (s.withSeq b q).trace = s.trace := rfl
@[simp] theorem State.withSeq_observed : (s.withSeq b q).observed = s.observed := rfl

@[simp] theorem Block.withSeq_cfg : (b.withSeq q).cfg = b.cfg := rfl
@[simp] theorem Block.withSeq_seq : (b.withSeq q).seq = q := rfl
@[simp] theorem Block.withSeq_buf : (b.withSeq q).buf = b.buf := rfl

@[simp] theorem Seq.toIdle_phase : q.toIdle.phase = .idle := rfl
@[simp] theorem Seq.toIdle_pixel : q.toIdle.pixel = 0 := rfl
@[simp] theorem Seq.toIdle_chan : q.toIdle.chan = 0 := rfl
@[simp] theorem Seq.toIdle_sub : q.toIdle.sub = 0 := rfl
@[simp] theorem Seq.toIdle_latchLeft : q.toIdle.latchLeft = 0 := rfl
@[simp] theorem Seq.toIdle_cursor : q.toIdle.cursor = q.cursor := rfl
@[simp] theorem Seq.toIdle_inFlight : q.toIdle.inFlight = q.inFlight := rfl
@[simp] theorem Seq.toIdle_enc : q.toIdle.enc = 0 := rfl
@[simp] theorem Seq.toIdle_acc : q.toIdle.acc = [] := rfl
@[simp] theorem Seq.toIdle_colour : q.toIdle.colour = none := rfl
@[simp] theorem Seq.toIdle_colours : q.toIdle.colours = .listed [] := rfl
@[simp] theorem Seq.toIdle_ended : q.toIdle.ended = false := rfl

@[simp] theorem endWrite_params : (endWrite r b s).params = s.params := rfl
@[simp] theorem endWrite_block : (endWrite r b s).block = some (b.withSeq b.seq.toIdle) := rfl
@[simp] theorem endWrite_cmds : (endWrite r b s).cmds = s.cmds := rfl
@[simp] theorem endWrite_answers : (endWrite r b s).answers = s.answers := rfl
@[simp] theorem endWrite_trace : (endWrite r b s).trace = [] := rfl
@[simp] theorem endWrite_observed :
    (endWrite r b s).observed = s.observed ++ [⟨r, s.trace, b.buf, b.seq.colours⟩] := rfl

@[simp] theorem report_params : (report r s).params = s.params := rfl
@[simp] theorem report_block : (report r s).block = s.block := rfl
@[simp] theorem report_cmds : (report r s).cmds = s.cmds := rfl
@[simp] theorem report_answers : (report r s).answers = s.answers := rfl
@[simp] theorem report_trace : (report r s).trace = [] := rfl
@[simp] theorem report_observed : (report r s).observed = s.observed ++ [⟨r, [], [], .listed []⟩] := rfl

end Updates

end Sys2Proof.Machine
end

