-- ==== Sys2Proof/Laws/Memory.lean ====
section
/-! SUPPORT. The buffer: a read after a write, the canonical form, and the bulk read. -/

namespace Sys2Proof.Machine

theorem memRead_memWrite_same (m : Memory) (i : Nat) (v : Byte) : memRead (memWrite m i v) i = some v := by
  induction m with
  | nil => simp [memWrite, memRead]
  | cons c m ih =>
    obtain ⟨a, w⟩ := c
    simp only [memWrite]
    split
    · simp [memRead]
    · split
      · simp [memRead]
      · rename_i h h'
        simp [memRead, Ne.symm h', ih]

theorem memRead_memWrite_ne (m : Memory) {i j : Nat} (v : Byte) (h : j ≠ i) :
    memRead (memWrite m i v) j = memRead m j := by
  induction m with
  | nil => simp [memWrite, memRead, Ne.symm h]
  | cons c m ih =>
    obtain ⟨a, w⟩ := c
    simp only [memWrite]
    split
    · simp [memRead, Ne.symm h]
    · split
      · rename_i h'
        subst h'
        simp [memRead, Ne.symm h]
      · simp only [memRead, ih]

/-- Every cell of a written buffer is the written one or an old one. -/
theorem mem_memWrite {m : Memory} {i : Nat} {v : Byte} {c : Host.Cell} (h : c ∈ memWrite m i v) :
    c = (i, v) ∨ c ∈ m := by
  induction m with
  | nil => simpa [memWrite] using h
  | cons d m ih =>
    obtain ⟨a, w⟩ := d
    simp only [memWrite] at h
    split at h
    · simpa using h
    · split at h
      · simp only [List.mem_cons] at h ⊢
        tauto
      · simp only [List.mem_cons] at h ⊢
        rcases h with h | h
        · exact .inr (.inl h)
        · rcases ih h with h | h
          · exact .inl h
          · exact .inr (.inr h)

/-- A write keeps the canonical form. -/
theorem memWrite_wf {m : Memory} (h : Memory.wf m) (i : Nat) (v : Byte) : Memory.wf (memWrite m i v) := by
  induction m with
  | nil => simp [memWrite, Memory.wf]
  | cons c m ih =>
    obtain ⟨a, w⟩ := c
    rw [Memory.wf, List.pairwise_cons] at h
    simp only [memWrite]
    split
    · rename_i hi
      refine List.pairwise_cons.2 ⟨?_, List.pairwise_cons.2 h⟩
      intro d hd
      rcases List.mem_cons.1 hd with rfl | hd
      · exact hi
      · exact Nat.lt_trans hi (h.1 d hd)
    · split
      · rename_i hi
        subst hi
        exact List.pairwise_cons.2 h
      · rename_i hi hne
        refine List.pairwise_cons.2 ⟨?_, ih h.2⟩
        intro d hd
        rcases mem_memWrite hd with rfl | hd
        · exact Nat.lt_of_le_of_ne (Nat.le_of_not_lt hi) (Ne.symm hne)
        · exact h.1 d hd

/-- A bulk read whose bytes are all written succeeds. -/
theorem memReadRange_isSome {m : Memory} {i n : Nat} (h : ∀ k, k < n → (memRead m (i + k)).isSome) :
    (memReadRange m i n).isSome := by
  induction n generalizing i with
  | zero => rfl
  | succ n ih =>
    have h0 : (memRead m i).isSome := by simpa using h 0 (Nat.succ_pos n)
    have hs : (memReadRange m (i + 1) n).isSome :=
      ih fun k hk => by simpa [Nat.add_assoc, Nat.add_comm 1 k] using h (k + 1) (Nat.succ_lt_succ hk)
    obtain ⟨v, hv⟩ := Option.isSome_iff_exists.1 h0
    obtain ⟨vs, hvs⟩ := Option.isSome_iff_exists.1 hs
    simp [memReadRange, hv, hvs]

/-- A bulk read appended to: one byte more. -/
theorem memReadRange_succ (m : Memory) (i n : Nat) :
    memReadRange m i (n + 1) =
      match memReadRange m i n, memRead m (i + n) with
      | some vs, some v => some (vs ++ [v])
      | _, _ => none := by
  induction n generalizing i with
  | zero => cases h : memRead m i <;> simp [memReadRange, h]
  | succ n ih =>
    rw [memReadRange, ih (i + 1)]
    have : i + 1 + n = i + (n + 1) := by omega
    rw [this]
    simp only [memReadRange]
    cases memRead m i <;> cases memReadRange m (i + 1) n <;> cases memRead m (i + (n + 1)) <;> simp

/-- A write at or beyond the end of a bulk read does not show in it. -/
theorem memReadRange_memWrite_above (m : Memory) {i n a : Nat} (v : Byte) (h : i + n ≤ a) :
    memReadRange (memWrite m a v) i n = memReadRange m i n := by
  induction n generalizing i with
  | zero => rfl
  | succ n ih => rw [memReadRange, memReadRange, memRead_memWrite_ne m v (by omega), ih (by omega)]

end Sys2Proof.Machine
end

