-- ==== Sys2Proof/Laws/Ops.lean ====
section
/-! SUPPORT. One lemma per shared operation that says everything it can do. -/

namespace Sys2Proof.Machine

/-- What holds of a held event, of a failed one and of one that goes on holds of the event. -/
theorem transact_induct {P : State → Prop} {e : Event} {b : Block} {s : State} {next : State → State}
    (hold : P s)
    (wait : ∀ later, s.answers = .notReady :: later → P { s with answers := later })
    (fail : ∀ x later, s.answers = .err x :: later →
      P (endWrite (.transportError (eventKind e) x) b
        { s with answers := later, trace := s.trace ++ [(e, .err x)] }))
    (go : ∀ received later, s.answers = .ok received :: later →
      P (next { s with answers := later, trace := s.trace ++ [(e, okReply e received)] })) :
    P (transact e b s next) := by
  unfold transact
  split
  · exact hold
  · exact wait _ ‹_›
  · exact fail _ _ ‹_›
  · exact go _ _ ‹_›

@[simp] theorem transact_nil {e : Event} {b : Block} {s : State} {next : State → State}
    (h : s.answers = []) : transact e b s next = s := by
  simp [transact, h]

theorem transact_notReady {e : Event} {b : Block} {s : State} {next : State → State} {later : List Answer}
    (h : s.answers = .notReady :: later) : transact e b s next = { s with answers := later } := by
  simp [transact, h]

theorem transact_err {e : Event} {b : Block} {s : State} {next : State → State} {x : Nat} {later : List Answer}
    (h : s.answers = .err x :: later) :
    transact e b s next =
      endWrite (.transportError (eventKind e) x) b
        { s with answers := later, trace := s.trace ++ [(e, .err x)] } := by
  simp [transact, h, raiseError]

theorem transact_ok {e : Event} {b : Block} {s : State} {next : State → State} {received : Byte}
    {later : List Answer} (h : s.answers = .ok received :: later) :
    transact e b s next = next { s with answers := later, trace := s.trace ++ [(e, okReply e received)] } := by
  simp [transact, h]

/-- The append writes at the cursor when the rest of its group fits, and ends the WRITE otherwise. -/
theorem appendByte_fits {left : Nat} {v : Byte} {b : Block} {advance : Seq → Seq} {s : State}
    (h : groupFits b.cfg b.seq.cursor (max 1 left) = true) :
    appendByte left v b advance s =
      s.withBlock ⟨b.cfg, advance { b.seq with cursor := b.seq.cursor + 1 }, memWrite b.buf b.seq.cursor v⟩ := by
  simp [appendByte, h]

theorem appendByte_full {left : Nat} {v : Byte} {b : Block} {advance : Seq → Seq} {s : State}
    (h : groupFits b.cfg b.seq.cursor (max 1 left) = false) :
    appendByte left v b advance s = endWrite .outOfBounds b s := by
  simp [appendByte, h, raiseError]

theorem underParams_valid {s : State} (h : paramsValid s.params = true) (k : Out) : underParams s k = k := by
  simp [underParams, h]

theorem atControl_at {c : Control} {s : State} {b : Block} {k : Block → Out} (hp : paramsValid s.params = true)
    (hs : s.block = some b) (hc : control b = c) : atControl c s k = k b := by
  simp [atControl, underParams, hp, hs, hc]

/-- A row away from its control point, inside a WRITE or not. -/
theorem atControl_other {c : Control} {s : State} {b : Block} {k : Block → Out} (hp : paramsValid s.params = true)
    (hs : s.block = some b) (hc : control b ≠ c) : atControl c s k = .refused .notIssuable := by
  simp [atControl, underParams, hp, hs, hc]

theorem isBusy_some {s : State} {b : Block} (hs : s.block = some b) :
    isBusy s = decide (b.seq.phase ≠ .idle) := by
  simp [isBusy, hs]

@[simp] theorem byteBits_length (v : Byte) : (byteBits v).length = 8 := by simp [byteBits]

theorem bitPattern_length {tp : TimingParameters} (h0 : tp.zeroHigh ≤ tp.total) (h1 : tp.oneHigh ≤ tp.total)
    (v : Bool) : (bitPattern tp v).length = tp.total := by
  cases v <;> simp [bitPattern] <;> omega

@[simp] theorem recordFits_three (r g b : Byte) (dev : DeviceKind) :
    recordFits dev (.three r g b) = decide (dev = .threeChannel) := by
  cases dev <;> rfl

@[simp] theorem recordFits_four (r g b w : Byte) (dev : DeviceKind) :
    recordFits dev (.four r g b w) = decide (dev = .fourChannelWithWhite) := by
  cases dev <;> rfl

/-- A word's record matches the device exactly when the word has no `w` that the device lacks (R76). -/
theorem record_fits (dev : DeviceKind) (c : Colour) : recordFits dev (wordRecord dev c) = Colour.fits dev c := by
  cases dev
  · by_cases h : c.w = 0#8 <;> simp [wordRecord, Colour.fits, h]
  · rfl

/-- A word whose record matches the device is what the record holds. -/
theorem record_colour {dev : DeviceKind} {c : Colour} (h : Colour.fits dev c = true) : recordColour (wordRecord dev c) = c := by
  cases dev
  · have h : c.w = 0#8 := by simpa [Colour.fits] using h
    simp [wordRecord, recordColour, ← h]
  · rfl

/-- What a record that matches the device puts into SEQ is a colour of its kind. -/
theorem colour_fits {dev : DeviceKind} {r : ColourRecord} (h : recordFits dev r = true) : Colour.fits dev (recordColour r) = true := by
  cases dev <;> cases r <;> simp_all [Colour.fits, recordColour]

/-- A configuration's iterations add up to its output bytes. -/
theorem units_length (cfg : BlockConfig) : encoderUnits cfg * unitLength cfg = 8 * encodedLength cfg := by
  cases h : cfg.encoder <;> simp [encoderUnits, unitLength, encodedLength, h]

theorem encodedLength_pos {p : Params} {cfg : BlockConfig} (h : ConfigInv p cfg) : 2 ≤ encodedLength cfg := by
  cases he : cfg.encoder with
  | fixed4x => simp only [encodedLength, he]; omega
  | timed ck tp =>
    simp only [ConfigInv, he, TimingInv] at h
    simp only [encodedLength, he]
    omega

theorem channelCount_pos (d : DeviceKind) : 0 < channelCount d := by cases d <;> decide

end Sys2Proof.Machine
end

