-- ==== Sys2Proof/Laws/Sequencer.lean ====
section
/-! SUPPORT. What each control point of the sequencer means, said once. -/

namespace Sys2Proof.Machine

/-- The loop over colours runs here. -/
def inPayloadLoop (cfg : BlockConfig) (q : Seq) : Prop :=
  (q.phase = .encoding ∧ q.latchLeft = 0 ∧ q.ended = false)
    ∨ (q.phase = .payload ∧ isStreaming cfg = true ∧ q.inFlight ≠ 0)

section Points

variable {cfg : BlockConfig} {q : Seq}

theorem payloadControl_cases :
    (payloadControl cfg q = .pull ∧ q.colour = none)
      ∨ (payloadControl cfg q = .encode ∧ q.colour ≠ none ∧ q.enc < encoderUnits cfg)
      ∨ (payloadControl cfg q = .emit ∧ q.colour ≠ none ∧ encoderUnits cfg ≤ q.enc) := by
  unfold payloadControl
  cases h : q.colour with
  | none => simp
  | some c =>
    by_cases he : q.enc < encoderUnits cfg
    · simp [he]
    · simp [he, Nat.le_of_not_lt he]

/-- Every control point with what it says of SEQ. -/
theorem controlAt_cases :
    (controlAt cfg q = .idle ∧ q.phase = .idle)
      ∨ (controlAt cfg q = .dummy ∧ q.phase = .payload ∧ isStreaming cfg = true ∧ q.inFlight = 0)
      ∨ (controlAt cfg q = .latch ∧ 0 < q.latchLeft
          ∧ (q.phase = .encoding ∨ q.phase = .preLatch ∨ q.phase = .postLatch))
      ∨ (controlAt cfg q = .latchDone ∧ q.latchLeft = 0 ∧ (q.phase = .preLatch ∨ q.phase = .postLatch))
      ∨ (controlAt cfg q = .pull ∧ q.colour = none ∧ inPayloadLoop cfg q)
      ∨ (controlAt cfg q = .encode ∧ q.colour ≠ none ∧ q.enc < encoderUnits cfg ∧ inPayloadLoop cfg q)
      ∨ (controlAt cfg q = .emit ∧ q.colour ≠ none ∧ encoderUnits cfg ≤ q.enc ∧ inPayloadLoop cfg q)
      ∨ (controlAt cfg q = .rendered ∧ q.phase = .encoding ∧ q.latchLeft = 0 ∧ q.ended = true)
      ∨ (controlAt cfg q = .bulkWrite ∧ q.phase = .payload ∧ isStreaming cfg = false)
      ∨ (controlAt cfg q = .drain ∧ q.phase = .drain) := by
  unfold controlAt inPayloadLoop
  have hp := payloadControl_cases (cfg := cfg) (q := q)
  cases hph : q.phase with
  | idle => simp
  | drain => simp
  | preLatch => by_cases hl : q.latchLeft = 0 <;> simp [hl, Nat.pos_iff_ne_zero]
  | postLatch => by_cases hl : q.latchLeft = 0 <;> simp [hl, Nat.pos_iff_ne_zero]
  | encoding =>
    by_cases hl : q.latchLeft = 0
    · cases he : q.ended
      · rcases hp with ⟨h1, h2⟩ | ⟨h1, h2, h3⟩ | ⟨h1, h2, h3⟩ <;> simp [*]
      · simp [hl]
    · simp [hl, Nat.pos_iff_ne_zero]
  | payload =>
    cases hs : isStreaming cfg
    · simp
    · by_cases hf : q.inFlight = 0
      · simp [hf]
      · rcases hp with ⟨h1, h2⟩ | ⟨h1, h2, h3⟩ | ⟨h1, h2, h3⟩ <;> simp [*]

theorem controlAt_idle : controlAt cfg q = .idle ↔ q.phase = .idle := by
  constructor
  · intro h
    rcases controlAt_cases (cfg := cfg) (q := q) with h' | h' | h' | h' | h' | h' | h' | h' | h' | h' <;>
      simp_all
  · intro h
    simp [controlAt, h]

theorem controlAt_dummy :
    controlAt cfg q = .dummy ↔ q.phase = .payload ∧ isStreaming cfg = true ∧ q.inFlight = 0 := by
  constructor
  · intro h
    rcases controlAt_cases (cfg := cfg) (q := q) with h' | h' | h' | h' | h' | h' | h' | h' | h' | h' <;>
      simp_all
  · rintro ⟨h1, h2, h3⟩
    simp [controlAt, h1, h2, h3]

theorem controlAt_latch :
    controlAt cfg q = .latch ↔
      0 < q.latchLeft ∧ (q.phase = .encoding ∨ q.phase = .preLatch ∨ q.phase = .postLatch) := by
  constructor
  · intro h
    rcases controlAt_cases (cfg := cfg) (q := q) with h' | h' | h' | h' | h' | h' | h' | h' | h' | h' <;>
      simp_all
  · rintro ⟨h1, h2 | h2 | h2⟩ <;> simp [controlAt, h1, h2]

theorem controlAt_pull : controlAt cfg q = .pull ↔ q.colour = none ∧ inPayloadLoop cfg q := by
  constructor
  · intro h
    rcases controlAt_cases (cfg := cfg) (q := q) with h' | h' | h' | h' | h' | h' | h' | h' | h' | h' <;>
      simp_all
  · rintro ⟨h1, ⟨h2, h3, h4⟩ | ⟨h2, h3, h4⟩⟩ <;> simp [controlAt, payloadControl, h1, h2, h3, h4]

theorem controlAt_encode :
    controlAt cfg q = .encode ↔ q.colour ≠ none ∧ q.enc < encoderUnits cfg ∧ inPayloadLoop cfg q := by
  constructor
  · intro h
    rcases controlAt_cases (cfg := cfg) (q := q) with h' | h' | h' | h' | h' | h' | h' | h' | h' | h' <;>
      simp_all
  · rintro ⟨h1, h5, ⟨h2, h3, h4⟩ | ⟨h2, h3, h4⟩⟩ <;>
      obtain ⟨c, hc⟩ := Option.ne_none_iff_exists'.1 h1 <;>
      simp [controlAt, payloadControl, hc, h2, h3, h4, h5]

theorem controlAt_emit :
    controlAt cfg q = .emit ↔ q.colour ≠ none ∧ encoderUnits cfg ≤ q.enc ∧ inPayloadLoop cfg q := by
  constructor
  · intro h
    rcases controlAt_cases (cfg := cfg) (q := q) with h' | h' | h' | h' | h' | h' | h' | h' | h' | h' <;>
      simp_all
  · rintro ⟨h1, h5, ⟨h2, h3, h4⟩ | ⟨h2, h3, h4⟩⟩ <;>
      obtain ⟨c, hc⟩ := Option.ne_none_iff_exists'.1 h1 <;>
      simp [controlAt, payloadControl, hc, h2, h3, h4, Nat.not_lt.2 h5]

theorem controlAt_latchDone :
    controlAt cfg q = .latchDone ↔ q.latchLeft = 0 ∧ (q.phase = .preLatch ∨ q.phase = .postLatch) := by
  constructor
  · intro h
    rcases controlAt_cases (cfg := cfg) (q := q) with h' | h' | h' | h' | h' | h' | h' | h' | h' | h' <;>
      simp_all
  · rintro ⟨h1, h2 | h2⟩ <;> simp [controlAt, h1, h2]

theorem controlAt_rendered :
    controlAt cfg q = .rendered ↔ q.phase = .encoding ∧ q.latchLeft = 0 ∧ q.ended = true := by
  constructor
  · intro h
    rcases controlAt_cases (cfg := cfg) (q := q) with h' | h' | h' | h' | h' | h' | h' | h' | h' | h' <;>
      simp_all
  · rintro ⟨h1, h2, h3⟩
    simp [controlAt, h1, h2, h3]

theorem controlAt_bulkWrite :
    controlAt cfg q = .bulkWrite ↔ q.phase = .payload ∧ isStreaming cfg = false := by
  constructor
  · intro h
    rcases controlAt_cases (cfg := cfg) (q := q) with h' | h' | h' | h' | h' | h' | h' | h' | h' | h' <;>
      simp_all
  · rintro ⟨h1, h2⟩
    simp [controlAt, h1, h2]

theorem controlAt_drain : controlAt cfg q = .drain ↔ q.phase = .drain := by
  constructor
  · intro h
    rcases controlAt_cases (cfg := cfg) (q := q) with h' | h' | h' | h' | h' | h' | h' | h' | h' | h' <;>
      simp_all
  · intro h
    simp [controlAt, h]

end Points

end Sys2Proof.Machine
end

