-- ==== Sys2Proof/Laws/Encoder.lean ====
section
/-! SUPPORT. Packing, and the encoder's output as the packing of what its iterations add. -/

namespace Sys2Proof.Machine

/-! ### Packing -/

theorem packByte_bits (v : Byte) (rest : List Bool) : packByte (byteBits v ++ rest) = v := by
  have h : packByte (byteBits v ++ rest) = packByte (byteBits v) := by
    simp [packByte, byteBits, List.range, List.range.loop]
  rw [h]
  clear h
  revert v
  decide

@[simp] theorem packBytes_length (n : Nat) (s : List Bool) : (packBytes n s).length = n := by
  induction n generalizing s with
  | zero => rfl
  | succ n ih => simp [packBytes, ih]

theorem packBytes_drop (n j : Nat) (s : List Bool) :
    (packBytes n s).drop j = packBytes (n - j) (s.drop (8 * j)) := by
  induction j generalizing n s with
  | zero => simp
  | succ j ih =>
    cases n with
    | zero => simp [packBytes]
    | succ n =>
      rw [packBytes, List.drop_succ_cons, ih, List.drop_drop, Nat.mul_succ, Nat.add_comm 8]
      congr 1
      omega

/-- The bytes of a run of whole bytes' sub-bits. -/
theorem packBytes_flatMap (f : Nat → Byte) (ks : List Nat) :
    packBytes ks.length (ks.flatMap fun k => byteBits (f k)) = ks.map f := by
  induction ks with
  | nil => rfl
  | cons k ks ih =>
    rw [List.flatMap_cons, List.length_cons, packBytes, packByte_bits, List.drop_left' (byteBits_length _), ih,
      List.map_cons]

/-! ### The iterations -/

/-- What iteration `k` of the encoder adds to the accumulator. -/
def unitBits (p : Params) (cfg : BlockConfig) (d : Byte) (k : Nat) : List Bool :=
  match cfg.encoder with
  | .fixed4x => byteBits (lutWord p.lut (bitGroup d k))
  | .timed _ tp => bitPattern tp (logicalBit d k)

/-- What the first `n` iterations add. -/
def subBits (p : Params) (cfg : BlockConfig) (d : Byte) (n : Nat) : List Bool :=
  (List.range n).flatMap (unitBits p cfg d)

theorem subBits_succ (p : Params) (cfg : BlockConfig) (d : Byte) (n : Nat) :
    subBits p cfg d (n + 1) = subBits p cfg d n ++ unitBits p cfg d n := by
  simp [subBits, List.range_succ]

theorem unitBits_length {p : Params} {cfg : BlockConfig} (h : ConfigInv p cfg) (d : Byte) (k : Nat) :
    (unitBits p cfg d k).length = unitLength cfg := by
  unfold ConfigInv at h
  cases he : cfg.encoder with
  | fixed4x => simp [unitBits, unitLength, he]
  | timed ck tp =>
    simp only [he] at h
    simp only [unitBits, unitLength, he]
    exact bitPattern_length (by omega) (by omega) _

theorem subBits_length {p : Params} {cfg : BlockConfig} (h : ConfigInv p cfg) (d : Byte) (n : Nat) :
    (subBits p cfg d n).length = n * unitLength cfg := by
  induction n with
  | zero => simp [subBits]
  | succ n ih => rw [subBits_succ, List.length_append, ih, unitBits_length h, Nat.succ_mul]

theorem timedSubBits_length {p : Params} {tp : TimingParameters} (h : TimingInv p tp) (d : Byte) :
    (timedSubBits tp d).length = 8 * tp.total := by
  have hb : ∀ v, (bitPattern tp v).length = tp.total := bitPattern_length (by omega) (by omega)
  simp [timedSubBits, hb]
  omega

/-- The padding of R124 adds nothing. -/
theorem padToByte_timed {p : Params} {tp : TimingParameters} (h : TimingInv p tp) (d : Byte) :
    padToByte (timedSubBits tp d) = timedSubBits tp d := by
  simp [padToByte, timedSubBits_length h]

/-- ENC is the packing of its iterations. -/
theorem encodeByte_eq {p : Params} {cfg : BlockConfig} (h : ConfigInv p cfg) (d : Byte) :
    encodeByte p cfg d = packBytes (encodedLength cfg) (subBits p cfg d (encoderUnits cfg)) := by
  unfold ConfigInv at h
  cases he : cfg.encoder with
  | fixed4x =>
    have := packBytes_flatMap (fun k => lutWord p.lut (bitGroup d k)) (List.range 4)
    have hu : unitBits p cfg d = fun k => byteBits (lutWord p.lut (bitGroup d k)) := by
      funext k
      simp [unitBits, he]
    simp only [List.length_range] at this
    simp [encodeByte, encodedLength, encoderUnits, he, encFixed, subBits, hu, this]
  | timed ck tp =>
    simp only [he] at h
    have hu : unitBits p cfg d = fun k => bitPattern tp (logicalBit d k) := by
      funext k
      simp [unitBits, he]
    simp only [encodeByte, encodedLength, encoderUnits, he, encTimed, subBits, hu]
    rw [padToByte_timed h, pack, timedSubBits_length h, Nat.mul_div_cancel_left _ (by decide)]
    rfl

theorem encodeByte_length {p : Params} {cfg : BlockConfig} (h : ConfigInv p cfg) (d : Byte) :
    (encodeByte p cfg d).length = encodedLength cfg := by
  rw [encodeByte_eq h, packBytes_length]

theorem orderColour_length (cfg : BlockConfig) (c : Colour) :
    (orderColour cfg c).length = channelCount cfg.device := by
  unfold orderColour
  cases cfg.device
  · cases cfg.order <;> rfl
  · rfl

end Sys2Proof.Machine
end

