-- ==== Sys2Proof/Laws/Invariant.lean ====
section
/-! SUPPORT. Each move of the sequencer, each update of SEQ and each construction keeps the block's invariant. -/
namespace Sys2Proof.Machine

theorem idle_colours {b : Block} (h : b.seq.colour = none ∧ b.seq.colours = .listed []) : ColoursInv b :=
  ⟨by simp [h.1], by simp [h.2, sourceFits]⟩

/-- A source of the device's kind stays one when a colour is drawn. -/
theorem nextColour_fits {dev : DeviceKind} {src rest : ColourSource} {r : ColourRecord} (h : sourceFits dev src = true)
    (hn : nextColour dev src = some (r, rest)) : sourceFits dev rest = true := by
  cases src with
  | listed l =>
    cases l with
    | nil => cases hn
    | cons c l =>
      cases hn
      simp only [sourceFits, List.all_cons, Bool.and_eq_true] at h
      exact h.2
  | stream id pos =>
    simp only [nextColour] at hn
    split at hn
    · cases hn
    · cases hn; rfl

/-- The pull of a listed colour is not refused (R154). -/
theorem BlockInv.head_fits {p : Params} {b : Block} (h : BlockInv p b) {c : Colour} {rest : List Colour}
    (hl : b.seq.colours = .listed (c :: rest)) : Colour.fits b.cfg.device c = true := by
  have := h.colours.listed
  rw [hl] at this
  simp only [sourceFits, List.all_cons, Bool.and_eq_true] at this
  exact this.1

theorem Inv.environment {s : State} (h : Inv s) (hb : isBusy s = true) (as : List Answer)
    (tr : List (Event × Reply)) : Inv { s with answers := as, trace := tr } :=
  ⟨h.params, h.block, fun hi => by
    have : isBusy s = false := hi
    simp [this] at hb⟩

theorem toIdle_inv {p : Params} {b : Block} (h : BlockInv p b) : BlockInv p (b.withSeq b.seq.toIdle) where
  config := h.config
  idle _ := ⟨⟨rfl, rfl, rfl, rfl⟩, ⟨rfl, rfl⟩, ⟨rfl, rfl, rfl⟩⟩
  buffer := ⟨h.buffer.1, h.buffer.2, h.buffer.3, h.buffer.4, h.buffer.5, h.buffer.6⟩
  position := by
    have := encodedLength_pos h.config
    have := channelCount_pos b.cfg.device
    refine ⟨⟨?_, ?_, ?_⟩, ?_, ?_, ?_, ?_, ?_⟩ <;> simp <;> omega
  phase := by
    refine ⟨h.phase.1, h.phase.2, ?_, ?_, ?_, ?_, ?_, ?_, ?_⟩ <;> simp
  colours := idle_colours ⟨rfl, rfl⟩

theorem endWrite_inv {r : Result} {b : Block} {s : State} (hp : paramsValid s.params = true)
    (hb : BlockInv s.params b) : Inv (endWrite r b s) :=
  ⟨hp, fun b' h => by
    simp only [endWrite_block, Option.some.injEq] at h
    subst h
    exact toIdle_inv hb, fun _ => rfl⟩

theorem withBlock_inv {s : State} {b : Block} (hp : paramsValid s.params = true)
    (hb : BlockInv s.params b) (hq : b.seq.phase ≠ .idle) : Inv (s.withBlock b) :=
  ⟨hp, fun b' h => by
    simp only [State.withBlock_block, Option.some.injEq] at h
    subst h
    exact hb, fun hi => by simp [isBusy, State.withBlock, hq] at hi⟩

theorem transact_inv {e : Event} {b : Block} {s : State} {next : State → State} (h : Inv s)
    (hs : s.block = some b) (hq : b.seq.phase ≠ .idle)
    (hn : ∀ as tr, Inv (next { s with answers := as, trace := tr })) : Inv (transact e b s next) := by
  have hbusy : isBusy s = true := by simp [isBusy, hs, hq]
  refine transact_induct h ?_ ?_ ?_
  · intro later _
    exact h.environment hbusy later s.trace
  · intro x later _
    exact endWrite_inv h.params (h.block b hs)
  · intro r later _
    exact hn _ _

/-- in_flight moves within its range at a control point that is `latch` or `emit`. -/
theorem inFlight_inv {p : Params} {b : Block} (h : BlockInv p b) (hst : isStreaming b.cfg = true)
    (hc : control b = .latch ∨ control b = .emit) (hq : b.seq.phase ≠ .idle) :
    BlockInv p (b.withSeq { b.seq with inFlight := 2 }) where
  config := h.config
  idle hi := absurd hi hq
  buffer := ⟨h.buffer.1, h.buffer.2, h.buffer.3, h.buffer.4, h.buffer.5, h.buffer.6⟩
  position := ⟨h.position.1, h.position.2, h.position.3, h.position.4, h.position.5, h.position.6⟩
  phase := by
    refine ⟨by simp, by simp [hst], h.phase.3, h.phase.4, by simp, by simp, ?_, h.phase.8, h.phase.9⟩
    intro _ _
    simp only [control, controlAt_latch, controlAt_emit, inPayloadLoop] at hc ⊢
    simp_all
    tauto
  colours := ⟨h.colours.1, h.colours.2⟩

theorem pull_inv {p : Params} {b : Block} (h : BlockInv p b) (hc : control b = .pull)
    {r : ColourRecord} {rest : ColourSource} (hn : nextColour b.cfg.device b.seq.colours = some (r, rest))
    (hfit : recordFits b.cfg.device r = true) :
    BlockInv p (b.withSeq { b.seq with colour := some (recordColour r), colours := rest }) := by
  simp only [control, controlAt_pull, inPayloadLoop] at hc
  have h7 := h.phase.paired
  have hb := h.position.betweenColours hc.1
  have hacc := h.position.accumulator
  have hu : 0 < encoderUnits b.cfg := by unfold encoderUnits; split <;> omega
  have hend := h.phase.streamEnded
  refine ⟨h.config, ?_, ⟨h.buffer.1, h.buffer.2, h.buffer.3, h.buffer.4, h.buffer.5, h.buffer.6⟩,
    ⟨h.position.1, h.position.2, by simp, h.position.4, h.position.5, ?_⟩,
    ⟨h.phase.1, h.phase.2, h.phase.3, h.phase.4, h.phase.5, ?_, ?_, h.phase.8, h.phase.9⟩,
    ⟨fun _ hcol => by cases hcol; exact colour_fits hfit, nextColour_fits h.colours.2 hn⟩⟩
  · intro hi; simp_all
  · intro he
    simp only [Block.withSeq_seq] at he
    rcases hc.2 with h' | h'
    · simp_all
    · have := hend h'.2.1; simp_all
  · intro h1 h2 h3
    simp_all
  · intro h1 h2
    have h7 := h7 h1 h2
    simp only [control, controlAt_latch, controlAt_emit, inPayloadLoop] at h7
    rcases h7 with h7 | h7
    · rcases hc.2 with h' | h'
      · omega
      · simp_all
    · simp_all

theorem pullNoneStream_inv {p : Params} {b : Block} (h : BlockInv p b) (hc : control b = .pull)
    (hst : isStreaming b.cfg = true) :
    BlockInv p (b.withSeq { b.seq with ended := true, phase := .postLatch, latchLeft := latchLength p b.cfg }) := by
  simp only [control, controlAt_pull, inPayloadLoop] at hc
  have h7 := h.phase.paired
  have hsp := h.phase.strategyPhase
  refine ⟨h.config, by simp, ⟨h.buffer.1, h.buffer.2, h.buffer.3, h.buffer.4, h.buffer.5, h.buffer.6⟩,
    ⟨h.position.1, by simp, h.position.3, h.position.4, h.position.5, by simp [hc.1]⟩,
    ⟨h.phase.1, h.phase.2, ?_, by simp [hst], ?_, by simp, ?_, by simp, by simp [hst]⟩, ⟨h.colours.1, h.colours.2⟩⟩
  · simp [hst]
  · simp [hst] at hsp ⊢
    simp [hsp] at hc
    omega
  · intro h1 h2
    simp only [Block.withSeq_seq] at h2
    have h7 := h7 (by rcases hc.2 with h' | h' <;> simp [h'.1]) h2
    simp only [control, controlAt_latch, controlAt_emit, inPayloadLoop] at h7
    simp_all

theorem pullNoneBulk_inv {p : Params} {b : Block} (h : BlockInv p b) (hc : control b = .pull)
    (hst : isStreaming b.cfg = false) :
    BlockInv p (b.withSeq { b.seq with
      ended := true, latchLeft := if isSingle b.cfg then latchLength p b.cfg else 0 }) := by
  simp only [control, controlAt_pull, inPayloadLoop] at hc
  have h2 := h.phase.bulkInFlight hst
  have hsp := h.phase.strategyPhase
  refine ⟨h.config, ?_, ⟨h.buffer.1, h.buffer.2, h.buffer.3, h.buffer.4, h.buffer.5, h.buffer.6⟩,
    ⟨h.position.1, ?_, h.position.3, h.position.4, h.position.5, by simp [hc.1]⟩,
    ⟨h.phase.1, h.phase.2, h.phase.3, h.phase.4, h.phase.5, by simp [hst], ?_, by simp [hst], by simp⟩, ⟨h.colours.1, h.colours.2⟩⟩
  · simp_all
  · simp; split <;> omega
  · simp_all

/-- One more iteration of the encoder. -/
theorem encode_inv {p : Params} {b : Block} (h : BlockInv p b) (hc : control b = .encode) {bits : List Bool}
    (hbits : bits.length = unitLength b.cfg) :
    BlockInv p (b.withSeq { b.seq with acc := b.seq.acc ++ bits, enc := b.seq.enc + 1 }) := by
  simp only [control, controlAt_encode, inPayloadLoop] at hc
  have h7 := h.phase.paired
  have hsub := h.position.encodedFirst hc.2.1
  have hacc := h.position.accumulator
  have hr := h.position.ranges
  refine ⟨h.config, ?_, ⟨h.buffer.1, h.buffer.2, h.buffer.3, h.buffer.4, h.buffer.5, h.buffer.6⟩,
    ⟨⟨hr.1, hr.2.1, hc.2.1⟩, h.position.2, by simp [hc.1], ?_, fun _ => hsub, h.position.6⟩,
    ⟨h.phase.1, h.phase.2, h.phase.3, h.phase.4, h.phase.5, h.phase.6, ?_, h.phase.8, h.phase.9⟩, ⟨h.colours.1, h.colours.2⟩⟩
  · intro hi; simp_all
  · simp [hsub] at hacc ⊢
    rw [hbits, hacc, Nat.add_mul, one_mul]
  · intro h1 h2
    have h7 := h7 h1 h2
    simp only [control, controlAt_latch, controlAt_emit, inPayloadLoop] at h7
    have := hc.2.1
    rcases h7 with h7 | h7
    · rcases hc.2.2 with h' | h'
      · omega
      · simp_all
    · omega

/-- An output byte issued or appended; `q` is SEQ but for in_flight and the cursor. -/
theorem advance_inv {p : Params} {b : Block} (h : BlockInv p b) (hc : control b = .emit) {f : Nat} {cur : Nat} {m : Memory}
    (hf : if isStreaming b.cfg then f = 1 else f = 0)
    (hbuf : BufferInv ⟨b.cfg, {b.seq with cursor := cur}, m⟩) :
    BlockInv p ⟨b.cfg, advancePosition b.cfg { b.seq with inFlight := f, cursor := cur }, m⟩ := by
  simp only [control, controlAt_emit, inPayloadLoop] at hc
  have hf2 : f ≠ 2 := by intro h; subst h; split at hf <;> simp_all
  have hf1 : f ≤ 1 := by split at hf <;> omega
  have hacc := h.position.accumulator
  have hr := h.position.ranges
  have hlen := units_length b.cfg
  have he : b.seq.enc = encoderUnits b.cfg := by omega
  rw [he, hlen] at hacc
  have hL := encodedLength_pos h.config
  have hch := channelCount_pos b.cfg.device
  have hend : b.seq.ended = false := by
    rcases hc.2.2 with h' | h'
    · exact h'.2.2
    · have := h.phase.streamEnded h'.2.1; simp_all
  have hph : b.seq.phase ≠ .idle := by
    rcases hc.2.2 with h' | h' <;> simp [h'.1]
  have hst := h.phase.streamEnded
  have hu : 0 < encoderUnits b.cfg := by unfold encoderUnits; split <;> omega
  unfold advancePosition
  dsimp only
  split
  · refine ⟨h.config, fun hi => absurd hi hph,
      ⟨hbuf.1, hbuf.2, hbuf.3, hbuf.4, hbuf.5, hbuf.6⟩,
      ⟨⟨by assumption, hr.2.1, hr.2.2⟩, h.position.2, by simp [hc.1], ?_, fun hlt => ?_, h.position.6⟩,
      ⟨by dsimp only; omega, fun hs => ?_, h.phase.3, h.phase.4, fun hs hp => ?_, fun hs hp hf0 => ?_, fun _ h2 => absurd h2 hf2, h.phase.8, h.phase.9⟩, ⟨h.colours.1, h.colours.2⟩⟩
    · simp [he, hlen]; omega
    · dsimp only at hlt; omega
    · have hs : isStreaming b.cfg = false := hs
      simpa [hs] using hf
    · have hs : isStreaming b.cfg = true := hs
      simp [hs] at hf; simp [hf]
    · have hs : isStreaming b.cfg = true := hs
      simp [hs] at hf; simp [hf] at hf0
  · split
    · refine ⟨h.config, fun hi => absurd hi hph,
        ⟨hbuf.1, hbuf.2, hbuf.3, hbuf.4, hbuf.5, hbuf.6⟩,
        ⟨⟨by dsimp only; omega, by assumption, by simp⟩, h.position.2, by simp [hc.1], by simp, by simp, h.position.6⟩,
        ⟨by dsimp only; omega, fun hs => ?_, h.phase.3, h.phase.4, fun hs hp => ?_, fun hs hp hf0 => ?_, fun _ h2 => absurd h2 hf2, h.phase.8, h.phase.9⟩,
        ⟨h.colours.1, h.colours.2⟩⟩
      · have hs : isStreaming b.cfg = false := hs
        simpa [hs] using hf
      · have hs : isStreaming b.cfg = true := hs
        simp [hs] at hf; simp [hf]
      · have hs : isStreaming b.cfg = true := hs
        simp [hs] at hf; simp [hf] at hf0
    · refine ⟨h.config, fun hi => absurd hi hph,
        ⟨hbuf.1, hbuf.2, hbuf.3, hbuf.4, hbuf.5, hbuf.6⟩,
        ⟨⟨by dsimp only; omega, by dsimp only; omega, by simp⟩, h.position.2, by simp, by simp, by simp, by simp⟩,
        ⟨by dsimp only; omega, fun hs => ?_, h.phase.3, h.phase.4, fun hs hp => ?_, fun hs hp hf0 => ?_, fun _ h2 => absurd h2 hf2, h.phase.8, h.phase.9⟩,
        ⟨by simp, h.colours.2⟩⟩
      · have hs : isStreaming b.cfg = false := hs
        simpa [hs] using hf
      · have hs : isStreaming b.cfg = true := hs
        simp [hs] at hf; simp [hf]
      · have hs : isStreaming b.cfg = true := hs
        simp [hs] at hf; simp [hf] at hf0

/-- A latch byte issued or appended. -/
theorem advanceLatch_inv {p : Params} {b : Block} (h : BlockInv p b) (hc : control b = .latch) {f : Nat} {cur : Nat} {m : Memory}
    (hf : if isStreaming b.cfg then f = 1 else f = 0)
    (hbuf : BufferInv ⟨b.cfg, {b.seq with cursor := cur}, m⟩) :
    BlockInv p ⟨b.cfg, advanceLatch { b.seq with inFlight := f, cursor := cur }, m⟩ := by
  simp only [control, controlAt_latch] at hc
  have hf2 : f ≠ 2 := by intro h; subst h; split at hf <;> simp_all
  have hf1 : f ≤ 1 := by split at hf <;> omega
  have hph : b.seq.phase ≠ .idle := by
    rcases hc.2 with h' | h' | h' <;> simp [h']
  have hl := h.position.latch
  refine ⟨h.config, fun hi => absurd hi hph,
    ⟨hbuf.1, hbuf.2, hbuf.3, hbuf.4, hbuf.5, hbuf.6⟩,
    ⟨h.position.1, by simp [advanceLatch]; omega, h.position.3, h.position.4, h.position.5, h.position.6⟩,
    ⟨by simp [advanceLatch]; omega, fun hs => ?_, h.phase.3, h.phase.4, fun hs hp => ?_, fun hs hp hf0 => ?_, fun _ h2 => absurd h2 hf2, h.phase.8, h.phase.9⟩, ⟨h.colours.1, h.colours.2⟩⟩
  · have hs : isStreaming b.cfg = false := hs
    simpa [hs, advanceLatch] using hf
  · have hs : isStreaming b.cfg = true := hs
    simp [hs] at hf; simp [advanceLatch, hf]
  · have hs : isStreaming b.cfg = true := hs
    simp [hs] at hf; simp [advanceLatch, hf] at hf0

/-- Appending at the cursor keeps BUF sound. -/
theorem append_bufferInv {b : Block} (h : BufferInv b) (hst : isStreaming b.cfg = false)
    {n : Nat} (hn : 1 ≤ n) (hfit : groupFits b.cfg b.seq.cursor n = true) (v : Byte) :
    BufferInv ⟨b.cfg, { b.seq with cursor := b.seq.cursor + 1 }, memWrite b.buf b.seq.cursor v⟩ where
  canonical := memWrite_wf h.canonical _ _
  cursorFits cap hcap := by
    have : bufferCapacity b.cfg = some cap := hcap
    simp [groupFits, this] at hfit
    dsimp only; omega
  bytesFit cap hcap cell hcell := by
    have hc : bufferCapacity b.cfg = some cap := hcap
    simp [groupFits, hc] at hfit
    rcases mem_memWrite hcell with rfl | hm
    · dsimp only; omega
    · exact h.bytesFit cap hc cell hm
  written i hi := by
    dsimp only at hi ⊢
    by_cases he : i = b.seq.cursor
    · subst he; simp [memRead_memWrite_same]
    · rw [memRead_memWrite_ne _ _ he]
      exact h.written i (by omega)
  bufferedLength hb cell hcell := by
    dsimp only at hcell ⊢
    rcases mem_memWrite hcell with rfl | hm
    · simp
    · have := h.bufferedLength hb cell hm
      omega
  noBuffer hs := by
    have hs : isStreaming b.cfg = true := hs
    simp [hs] at hst


/-- A phase change at a point where nothing is pending. -/
theorem latchDone_inv {p : Params} {b : Block} (h : BlockInv p b) (hc : control b = .latchDone)
    (hp : b.seq.phase = .preLatch) : BlockInv p (b.withSeq { b.seq with phase := .payload }) := by
  have h7 := h.phase.paired (by simp [hp])
  have hne : b.seq.inFlight ≠ 2 := by
    intro h2
    have := h7 h2
    simp [hc] at this
  simp only [control, controlAt_latchDone] at hc
  have he := h.phase.streamEnded
  refine ⟨h.config, by simp, ⟨h.buffer.1, h.buffer.2, h.buffer.3, h.buffer.4, h.buffer.5, h.buffer.6⟩,
    ⟨h.position.1, h.position.2, h.position.3, h.position.4, h.position.5, h.position.6⟩,
    ⟨h.phase.1, h.phase.2, ?_, by simp, by simp, ?_, fun _ h2 => absurd h2 hne, ?_, ?_⟩, ⟨h.colours.1, h.colours.2⟩⟩
  · simp
  · intro hs _ h0
    have := h.phase.afterDummy hs (.inl hp)
    simp at h0
    omega
  · intro hs _
    have := he hs
    simp_all
  · intro hs _
    exact h.phase.bulkEnded hs (.inl hp)

theorem drain_inv {p : Params} {b : Block} (h : BlockInv p b) (hc : control b = .latchDone)
    (hp : b.seq.phase ≠ .preLatch) (hst : isStreaming b.cfg = true) :
    BlockInv p (b.withSeq { b.seq with phase := .drain }) := by
  have hph : b.seq.phase = .postLatch := by
    simp only [control, controlAt_latchDone] at hc
    simp_all
  have h7 := h.phase.paired (by simp [hph])
  have hne : b.seq.inFlight ≠ 2 := by
    intro h2
    have := h7 h2
    simp [hc] at this
  have he := h.phase.streamEnded hst
  have := h.phase.afterDummy hst (.inr (.inl hph))
  refine ⟨h.config, by simp, ⟨h.buffer.1, h.buffer.2, h.buffer.3, h.buffer.4, h.buffer.5, h.buffer.6⟩,
    ⟨h.position.1, h.position.2, h.position.3, h.position.4, h.position.5, h.position.6⟩,
    ⟨h.phase.1, h.phase.2, ?_, by simp, by simpa using fun _ => this, by simp, fun _ h2 => absurd h2 hne, ?_, by simp [hst]⟩, ⟨h.colours.1, h.colours.2⟩⟩
  · simp [hst]
  · intro _ _
    simp_all

theorem beginTransmit_inv {p : Params} {b : Block} (h : BlockInv p b) (hc : control b = .rendered) :
    isStreaming b.cfg = false ∧
    BlockInv p (b.withSeq { b.seq with phase := .payload }) ∧
    (isSingle b.cfg = false → BlockInv p (b.withSeq { b.seq with phase := .preLatch, latchLeft := latchLength p b.cfg })) := by
  simp only [control, controlAt_rendered] at hc
  have hst : isStreaming b.cfg = false := by
    have := h.phase.strategyPhase
    simp [hc.1] at this
    exact this
  have hf := h.phase.bulkInFlight hst
  refine ⟨hst, ?_, fun hsingle => ?_⟩
  · exact ⟨h.config, by simp, ⟨h.buffer.1, h.buffer.2, h.buffer.3, h.buffer.4, h.buffer.5, h.buffer.6⟩,
      ⟨h.position.1, h.position.2, h.position.3, h.position.4, h.position.5, h.position.6⟩,
      ⟨h.phase.1, h.phase.2, by simp, by simp, by simp, by simp [hst], by simp [hf], by simp [hst], by simp [hc.2.2]⟩, ⟨h.colours.1, h.colours.2⟩⟩
  · exact ⟨h.config, by simp, ⟨h.buffer.1, h.buffer.2, h.buffer.3, h.buffer.4, h.buffer.5, h.buffer.6⟩,
      ⟨h.position.1, by simp, h.position.3, h.position.4, h.position.5, h.position.6⟩,
      ⟨h.phase.1, h.phase.2, by simp, by simp [hsingle], by simp [hst], by simp, by simp [hf], by simp [hst], by simp [hc.2.2]⟩, ⟨h.colours.1, h.colours.2⟩⟩

theorem postLatch_inv {p : Params} {b : Block} (h : BlockInv p b) (hc : control b = .bulkWrite)
    (hsingle : isSingle b.cfg = false) :
    BlockInv p (b.withSeq { b.seq with phase := .postLatch, latchLeft := latchLength p b.cfg }) := by
  simp only [control, controlAt_bulkWrite] at hc
  have hf := h.phase.bulkInFlight hc.2
  have he := h.phase.bulkEnded hc.2 (.inr (.inl hc.1))
  exact ⟨h.config, by simp, ⟨h.buffer.1, h.buffer.2, h.buffer.3, h.buffer.4, h.buffer.5, h.buffer.6⟩,
    ⟨h.position.1, by simp, h.position.3, h.position.4, h.position.5, h.position.6⟩,
    ⟨h.phase.1, h.phase.2, by simp, by simp [hsingle], by simp [hc.2], by simp, by simp [hf], by simp [hc.2], by simp [he]⟩, ⟨h.colours.1, h.colours.2⟩⟩

theorem dummy_inv {p : Params} {b : Block} (h : BlockInv p b) (hc : control b = .dummy) :
    BlockInv p (b.withSeq { b.seq with inFlight := 1 }) ∧
    BlockInv p (b.withSeq { b.seq with inFlight := 1, phase := .preLatch, latchLeft := latchLength p b.cfg }) := by
  simp only [control, controlAt_dummy] at hc
  have he := h.phase.beforeDummy hc.2.1 hc.1 hc.2.2
  have hse := h.phase.streamEnded
  refine ⟨⟨h.config, by simp [hc.1], ⟨h.buffer.1, h.buffer.2, h.buffer.3, h.buffer.4, h.buffer.5, h.buffer.6⟩,
      ⟨h.position.1, h.position.2, h.position.3, h.position.4, h.position.5, h.position.6⟩,
      ⟨by simp, by simp [hc.2], h.phase.3, h.phase.4, by simp, by simp, by simp, h.phase.8, h.phase.9⟩, ⟨h.colours.1, h.colours.2⟩⟩,
    ⟨h.config, by simp, ⟨h.buffer.1, h.buffer.2, h.buffer.3, h.buffer.4, h.buffer.5, h.buffer.6⟩,
      ⟨h.position.1, by simp, h.position.3, h.position.4, h.position.5, h.position.6⟩,
      ⟨by simp, by simp [hc.2], by simp, by simp [hc.2], by simp, by simp, by simp, by simp [he.2], by simp [hc.2]⟩, ⟨h.colours.1, h.colours.2⟩⟩⟩

theorem drained_inv {p : Params} {b : Block} (h : BlockInv p b) :
    BlockInv p (b.withSeq { b.seq with inFlight := 0 }.toIdle) :=
  ⟨h.config, fun _ => ⟨⟨rfl, rfl, rfl, rfl⟩, ⟨rfl, rfl⟩, ⟨rfl, rfl, rfl⟩⟩,
    ⟨h.buffer.1, h.buffer.2, h.buffer.3, h.buffer.4, h.buffer.5, h.buffer.6⟩,
    by
      have := encodedLength_pos h.config
      have := channelCount_pos b.cfg.device
      refine ⟨⟨?_, ?_, ?_⟩, ?_, ?_, ?_, ?_, ?_⟩ <;> simp <;> omega,
    by refine ⟨?_, ?_, ?_, ?_, ?_, ?_, ?_, ?_, ?_⟩ <;> simp, idle_colours ⟨rfl, rfl⟩⟩

theorem constructed_inv {p : Params} {enc : Encoder} {f : NewFields}
    (h : ConfigInv p (constructedConfig enc f)) : BlockInv p (constructedBlock enc f) := by
  have h2 := encodedLength_pos h
  have h3 := channelCount_pos (constructedConfig enc f).device
  refine ⟨h, fun _ => ⟨⟨rfl, rfl, rfl, rfl⟩, ⟨rfl, rfl⟩, ⟨rfl, rfl, rfl⟩⟩, ?_, ?_, ?_, idle_colours ⟨rfl, rfl⟩⟩
  · exact ⟨List.Pairwise.nil, by simp [constructedBlock, constructedSeq], by simp [constructedBlock],
      by simp [constructedBlock, constructedSeq], by simp [constructedBlock],
      by simp [constructedBlock, constructedSeq]⟩
  · refine ⟨⟨?_, ?_, ?_⟩, ?_, ?_, ?_, ?_, ?_⟩ <;> simp [constructedBlock, constructedSeq] <;> omega
  · refine ⟨?_, ?_, ?_, ?_, ?_, ?_, ?_, ?_, ?_⟩ <;> simp [constructedBlock, constructedSeq]

theorem start_inv {p : Params} {b : Block} (h : BlockInv p b) {cs : ColourSource}
    (hfit : sourceFits b.cfg.device cs = true) :
    BlockInv p (startBlock p b cs) ∧ (startBlock p b cs).seq.phase ≠ .idle := by
  have h2 := encodedLength_pos h.config
  have h3 := channelCount_pos b.cfg.device
  refine ⟨⟨h.config, ?_, ?_, ?_, ?_, ⟨by simp [startBlock, startSeq], hfit⟩⟩, ?_⟩
  · simp [startBlock, startSeq]; split <;> simp
  · refine ⟨?_, by simp [startBlock, startSeq], ?_, by simp [startBlock, startSeq], ?_, ?_⟩
    · simp only [startBlock]; split
      · exact List.Pairwise.nil
      · exact h.buffer.1
    · simp only [startBlock]; split
      · simp
      · exact h.buffer.3
    · simp only [startBlock]; intro hb; simp [hb]
    · simp only [startBlock, startSeq]; intro hs
      have := h.buffer.noBuffer hs
      simp [this.1]
  · refine ⟨⟨?_, ?_, ?_⟩, ?_, ?_, ?_, ?_, ?_⟩ <;> simp [startBlock, startSeq]
    · omega
    · omega
    · split <;> omega
  · refine ⟨?_, ?_, ?_, ?_, ?_, ?_, ?_, ?_, ?_⟩ <;> simp [startBlock, startSeq] <;>
      cases hs : isStreaming b.cfg <;> simp
  · simp only [startBlock, startSeq]; split <;> simp

theorem timingDerive_inv {p : Params} {clock : Nat} {tp : TimingParameters}
    (h : timingDerive p clock = .ok tp) : TimingInv p tp := by
  unfold timingDerive at h
  split at h
  · simp at h
  · split at h
    · simp at h
    · split at h
      · simp at h; subst h; refine ⟨?_, ?_, ?_, ?_⟩ <;> simp_all
      · simp at h

theorem report_inv {r : Result} {s : State} (hp : paramsValid s.params = true)
    (hb : ∀ b, s.block = some b → BlockInv s.params b) : Inv (report r s) :=
  ⟨hp, hb, fun _ => rfl⟩

end Sys2Proof.Machine
end

