-- ==== Sys2Proof/Laws/Run.lean ====
section
/-! SUPPORT. Runs: none, one step more, and one run after another. -/

namespace Sys2Proof.Machine

@[simp] theorem runSteps_zero (s : State) : runSteps 0 s = .next s := rfl

/-- A run of one step more: the first step, then the rest. -/
theorem runSteps_unfold (s : State) (k : Nat) :
    runSteps (k + 1) s =
      match step s with
      | .next s' => runSteps k s'
      | .fault r => .fault r
      | .refused r => .refused r := by
  have h := Host.Core.run.eq_2 Sys2Proof.core s k
  cases hs : step s with
  | next s' =>
    rw [show Sys2Proof.core.step s = .next s' from hs] at h
    exact h
  | fault r =>
    rw [show Sys2Proof.core.step s = .fault r from hs] at h
    exact h
  | refused r =>
    rw [show Sys2Proof.core.step s = .refused r from hs] at h
    exact h

theorem runSteps_succ {s s' : State} (h : step s = .next s') (k : Nat) : runSteps (k + 1) s = runSteps k s' := by
  rw [runSteps_unfold, h]

theorem runSteps_succ_next {s t : State} {k : Nat} (h : runSteps (k + 1) s = .next t) :
    ∃ s', step s = .next s' ∧ runSteps k s' = .next t := by
  rw [runSteps_unfold] at h
  split at h
  · exact ⟨_, ‹_›, h⟩
  · simp at h
  · simp at h

theorem runSteps_add {s s' : State} {j : Nat} (h : runSteps j s = .next s') (k : Nat) :
    runSteps (j + k) s = runSteps k s' := by
  induction j generalizing s with
  | zero =>
    simp at h
    subst h
    simp
  | succ j ih =>
    obtain ⟨s1, h1, h2⟩ := runSteps_succ_next h
    rw [Nat.add_right_comm, runSteps_succ h1, ih h2]

end Sys2Proof.Machine
end

