-- ==== Sys2Proof/Laws/Step.lean ====
section
/-! SUPPORT. What a step is: of a ready block, a wait or the host's next command; inside a WRITE, the move of the control
point. Later proofs cite these instead of unfolding `step` or `exec`. -/

namespace Sys2Proof.Machine

theorem step_ready {s : State} (hp : paramsValid s.params = true) (hb : isBusy s = false) : step s = stepCommand s := by
  unfold step
  rw [if_pos hp]
  cases h : s.block with
  | none => rfl
  | some b =>
    have : b.seq.phase = .idle := by simpa [isBusy, h] using hb
    simp [control, controlAt, this]

theorem step_decode {s : State} (hp : paramsValid s.params = true) (hb : isBusy s = false) :
    (∀ i rest, decode s.cmds = .ok (i, rest) → step s = exec i { s with cmds := rest })
    ∧ (∀ e, s.cmds ≠ [] → decode s.cmds = .error e → step s = .refused (.undecodable e)) := by
  rw [step_ready hp hb]
  unfold stepCommand nextCommand
  cases h : s.cmds with
  | nil => simp [decode]
  | cons w ws =>
    constructor
    · intro i rest hd; simp [hd]
    · intro e _ hd; simp [hd]

theorem encodingRow_exec {s : State} {b : Block} (hp : paramsValid s.params = true) (hb : s.block = some b)
    (hc : control b = .encode) :
    exec (encodingRow b) s = .next (pushSubBits (unitBits s.params b.cfg (currentByte b) b.seq.enc) b s) := by
  have lk : ∀ g, b.cfg.encoder = .fixed4x → exec (lutInstr g) s = .next (pushSubBits (byteBits (lutWord s.params.lut g)) b s) := by
    intro g he
    have b2 : ∀ x : BitVec 2, x = 0#2 ∨ x = 1#2 ∨ x = 2#2 ∨ x = 3#2 := by decide
    rcases b2 g with rfl | rfl | rfl | rfl <;>
    simp [lutInstr, exec, execLut00, execLut01, execLut10, execLut11, lookUp, atControl_at hp hb hc, he]
  cases he : b.cfg.encoder with
  | fixed4x => simp only [encodingRow, unitBits, he]; exact lk _ he
  | timed ck tp =>
    simp only [encodingRow, unitBits, he]
    cases logicalBit (currentByte b) b.seq.enc <;> simp [timedBitInstr, exec, execTimedBit0, execTimedBit1, encodeBit, atControl_at hp hb hc, he]

/-- what a busy step is -/
theorem step_busy {s : State} {b : Block} (hp : paramsValid s.params = true) (hb : s.block = some b) :
    step s = match control b with
      | .idle => stepCommand s
      | .dummy => exec .dummyByte s
      | .latch => .next (latchOne b s)
      | .latchDone => .next (afterLatch b s)
      | .pull => pullColour b s
      | .encode => .next (pushSubBits (unitBits s.params b.cfg (currentByte b) b.seq.enc) b s)
      | .emit => .next (emitByte b s)
      | .rendered => .next (beginTransmit b s)
      | .bulkWrite => bulkWrite b s
      | .drain => .next (drainRead b s) := by
  unfold step
  rw [if_pos hp, hb]
  show (match control b with
      | .idle => stepCommand s
      | .dummy => exec .dummyByte s
      | .latch => exec .latchByte s
      | .latchDone => .next (afterLatch b s)
      | .pull => pullColour b s
      | .encode => exec (encodingRow b) s
      | .emit => .next (emitByte b s)
      | .rendered => .next (beginTransmit b s)
      | .bulkWrite => bulkWrite b s
      | .drain => .next (drainRead b s)) = _
  have latch : control b = .latch → exec .latchByte s = .next (latchOne b s) := fun hc => atControl_at hp hb hc
  have encode := @encodingRow_exec s b hp hb
  generalize control b = c at *
  cases c
  case latch => exact latch rfl
  case encode => exact encode rfl
  all_goals rfl

/-- All that a pull can do: it takes a colour of the device's kind, or finds that there is none. -/
theorem pullColour_next {s t : State} {b : Block} (h : pullColour b s = .next t) :
    (∃ r rest, nextColour b.cfg.device b.seq.colours = some (r, rest) ∧ recordFits b.cfg.device r = true
      ∧ t = s.withSeq b { b.seq with colour := some (recordColour r), colours := rest })
    ∨ (nextColour b.cfg.device b.seq.colours = none ∧ t = coloursEnded b s) := by
  unfold pullColour at h
  split at h
  · split at h
    · exact .inl ⟨_, _, ‹_›, ‹_›, (Host.Outcome.next.inj h).symm⟩
    · cases h
  · exact .inr ⟨‹_›, (Host.Outcome.next.inj h).symm⟩

/-- In a sound block the pull of a listed colour is never refused. -/
theorem pullColour_cons {p : Params} {s : State} {b : Block} (h : BlockInv p b) {c : Colour} {rest : List Colour}
    (hl : b.seq.colours = .listed (c :: rest)) :
    pullColour b s = .next (s.withSeq b { b.seq with colour := some c, colours := .listed rest }) := by
  unfold pullColour
  simp only [hl, nextColour, record_fits, h.head_fits hl, if_pos, record_colour (h.head_fits hl)]

theorem pullColour_nil {s : State} {b : Block} (hl : b.seq.colours = .listed []) :
    pullColour b s = .next (coloursEnded b s) := by
  unfold pullColour
  simp only [hl, nextColour]

theorem advancePosition_keeps (cfg : BlockConfig) (q : Seq) :
    (advancePosition cfg q).phase = q.phase ∧ (advancePosition cfg q).inFlight = q.inFlight
    ∧ (advancePosition cfg q).cursor = q.cursor ∧ (advancePosition cfg q).colours = q.colours
    ∧ (advancePosition cfg q).latchLeft = q.latchLeft ∧ (advancePosition cfg q).ended = q.ended := by
  unfold advancePosition
  split
  · simp
  · split <;> simp

/-- What decodes is a command. -/
theorem decode_isCommand {ws : List Word} {i : Instr} {rest : List Word} (h : decode ws = .ok (i, rest)) :
    i.isCommand = true := by
  unfold decode at h
  split at h
  · simp at h
  · split at h
    · unfold decodeNewFixed at h
      split at h
      · simp at h
      · simp at h; simp [← h.1, Instr.isCommand]
    · unfold decodeNewTimed at h
      split at h
      · simp at h
      · split at h
        · simp at h
        · simp at h; simp [← h.1, Instr.isCommand]
    · unfold decodeWrite at h
      split at h
      · split at h
        · simp at h
        · split at h
          · simp at h; simp [← h.1, Instr.isCommand]
          · simp at h
      · simp at h
    · simp at h

theorem idle_or_busy (s : State) : isBusy s = false ∨ ∃ b, s.block = some b ∧ b.seq.phase ≠ .idle := by
  unfold isBusy
  cases s.block with
  | none => exact .inl rfl
  | some b =>
    by_cases h : b.seq.phase = .idle
    · left; simp [h]
    · right; exact ⟨b, rfl, h⟩

theorem step_params {s t : State} (hs : step s = .next t) : paramsValid s.params = true := by
  by_contra h
  simp [step, h] at hs

/-- an idle step is a wait or a command -/
theorem step_idle_cases {s t : State} (hi : isBusy s = false) (hs : step s = .next t) :
    t = s ∨ ∃ i rest, decode s.cmds = .ok (i, rest) ∧ exec i { s with cmds := rest } = .next t := by
  rw [step_ready (step_params hs) hi] at hs
  unfold stepCommand nextCommand at hs
  split at hs
  · left; simpa using hs.symm
  · simp at hs
  · rename_i i s' hc
    right
    cases hcm : s.cmds with
    | nil => simp [hcm] at hc
    | cons w ws =>
      simp only [hcm] at hc
      split at hc
      · simp at hc
      · rename_i i' rest hd
        simp at hc
        obtain ⟨rfl, rfl⟩ := hc
        exact ⟨_, _, hd, hs⟩

/-- what a command that goes through does -/
theorem exec_command {i : Instr} {s t : State} (hi : isBusy s = false) (hc : i.isCommand = true) (he : exec i s = .next t) :
    (∃ f, t = construct .fixed4x f s)
    ∨ (∃ f clk tp, timingDerive s.params clk.toNat = .ok tp ∧ t = construct (.timed clk tp) f s)
    ∨ (∃ cause, t = report (.invalidTiming cause) { s with block := none })
    ∨ (∃ b cs, s.block = some b ∧ sourceFits b.cfg.device cs = true
        ∧ t = { s with block := some (startBlock s.params b cs), trace := [] }) := by
  have hp : paramsValid s.params = true := by
    by_contra h
    cases i <;> simp [exec, execNewFixed, execNewTimed, execNew, execWrite, execLatch, execBlank, newFixed, newTimed,
      writeColours, underParams, h, Instr.isCommand] at he hc
  have fx : ∀ f, newFixed f s = .next t → (∃ f, t = construct .fixed4x f s) := by
    intro f h; rw [newFixed, underParams_valid hp] at h; simp [hi] at h; exact ⟨f, h.symm⟩
  have wr : ∀ cs, writeColours cs s = .next t → (∃ b cs, s.block = some b ∧ sourceFits b.cfg.device cs = true
      ∧ t = { s with block := some (startBlock s.params b cs), trace := [] }) := by
    intro cs h; rw [writeColours, underParams_valid hp] at h
    split at h
    · simp at h
    · rename_i b hb
      simp only [hi] at h
      split at h
      · simp at *
      · split at h
        · simp at h; exact ⟨b, cs, hb, ‹_›, h.symm⟩
        · simp at h
  cases i with
  | newFixed f => exact .inl (fx f he)
  | new => exact .inl (fx _ he)
  | newTimed f clk =>
    simp only [exec, execNewTimed] at he
    rw [newTimed, underParams_valid hp] at he
    simp [hi] at he
    split at he
    · simp at he; exact .inr (.inr (.inl ⟨_, he.symm⟩))
    · rename_i tp h; simp at he; exact .inr (.inl ⟨f, clk, tp, h, he.symm⟩)
  | write cs => exact .inr (.inr (.inr (wr cs he)))
  | latch => exact .inr (.inr (.inr (wr _ he)))
  | blank n => exact .inr (.inr (.inr (wr _ he)))
  | lut00 => simp [Instr.isCommand] at hc
  | lut01 => simp [Instr.isCommand] at hc
  | lut10 => simp [Instr.isCommand] at hc
  | lut11 => simp [Instr.isCommand] at hc
  | timedBit0 => simp [Instr.isCommand] at hc
  | timedBit1 => simp [Instr.isCommand] at hc
  | latchByte => simp [Instr.isCommand] at hc
  | dummyByte => simp [Instr.isCommand] at hc

theorem step_ready_cases {s t : State} (hi : isBusy s = false) (hs : step s = .next t) :
    t = s ∨ ∃ i rest, decode s.cmds = .ok (i, rest) ∧ i.isCommand = true ∧ exec i { s with cmds := rest } = .next t := by
  rcases step_idle_cases hi hs with h | ⟨i, rest, h1, h2⟩
  · exact .inl h
  · exact .inr ⟨i, rest, h1, decode_isCommand h1, h2⟩

end Sys2Proof.Machine
end

