-- ==== Sys2Proof/Laws/Frame.lean ====
section
/-! SUPPORT. A WRITE of listed colours in progress, compared with the frame that the spec writes down: what is issued and
what is still to issue together are the frame (`WriteInv`), and every step keeps that or ends the WRITE as `FrameEnds` says
(`step_progress`). -/

namespace Sys2Proof.Machine

/-- The colours a listed source has left. -/
def listOf : ColourSource → List Colour
  | .listed cs => cs
  | .stream _ _ => []

/-- The output bytes of the current colour that are still to be issued. -/
def currentRest (p : Params) (cfg : BlockConfig) (q : Seq) : List Byte :=
  match q.colour with
  | none => []
  | some c =>
    (encodeByte p cfg ((orderColour cfg c).getD q.chan 0#8)).drop q.sub
      ++ ((orderColour cfg c).drop (q.chan + 1)).flatMap (encodeByte p cfg)

/-- The payload that is still to be issued. -/
def pendingPayload (p : Params) (cfg : BlockConfig) (q : Seq) : List Byte :=
  currentRest p cfg q ++ framePayload p cfg (listOf q.colours)

/-- The accumulator holds the sub-bits of the current channel byte that are encoded and not yet issued (R38). -/
def AccInv (p : Params) (cfg : BlockConfig) (q : Seq) : Prop :=
  ∀ c, q.colour = some c →
    q.acc = (subBits p cfg ((orderColour cfg c).getD q.chan 0#8) q.enc).drop (8 * q.sub)

theorem packBytes_getElem_head {n j : Nat} {s : List Bool} (h : j < n) :
    (packBytes n s).drop j = packByte (s.drop (8 * j)) :: (packBytes n s).drop (j + 1) := by
  rw [packBytes_drop, packBytes_drop]
  obtain ⟨k, hk⟩ : ∃ k, n - j = k + 1 := ⟨n - j - 1, by omega⟩
  have : n - (j + 1) = k := by omega
  rw [hk, this, packBytes, List.drop_drop]
  rfl

theorem currentRest_pull {p : Params} {cfg : BlockConfig} {q : Seq} (h0 : q.chan = 0) (h1 : q.sub = 0)
    (c : Colour) (rest : ColourSource) :
    currentRest p cfg { q with colour := some c, colours := rest } = pixelPayload p cfg c := by
  have hl := orderColour_length cfg c
  have hn := channelCount_pos cfg.device
  simp only [currentRest, h0, h1, pixelPayload]
  cases ho : orderColour cfg c with
  | nil => simp [ho] at hl; omega
  | cons d ds => simp

theorem currentRest_emit {p : Params} {b : Block} (h : BlockInv p b) (ha : AccInv p b.cfg b.seq)
    (hc : control b = .emit) (f cur : Nat) :
    currentRest p b.cfg b.seq =
      packByte b.seq.acc :: currentRest p b.cfg (advancePosition b.cfg { b.seq with inFlight := f, cursor := cur })
    ∧ AccInv p b.cfg (advancePosition b.cfg { b.seq with inFlight := f, cursor := cur }) := by
  simp only [control, controlAt_emit] at hc
  obtain ⟨c, hcol⟩ := Option.ne_none_iff_exists'.1 hc.1
  have hr := h.position.ranges
  have he : b.seq.enc = encoderUnits b.cfg := by omega
  have hacc := ha c hcol
  have hl := orderColour_length b.cfg c
  set d := (orderColour b.cfg c).getD b.seq.chan 0#8 with hd
  have hhead : (encodeByte p b.cfg d).drop b.seq.sub
      = packByte b.seq.acc :: (encodeByte p b.cfg d).drop (b.seq.sub + 1) := by
    rw [encodeByte_eq h.config, packBytes_getElem_head hr.1, hacc, he]
  have hlen := encodeByte_length h.config d
  have hmk : currentRest p b.cfg b.seq = packByte b.seq.acc ::
      ((encodeByte p b.cfg d).drop (b.seq.sub + 1) ++ ((orderColour b.cfg c).drop (b.seq.chan + 1)).flatMap (encodeByte p b.cfg)) := by
    simp only [currentRest, hcol]
    rw [← hd, hhead]; rfl
  rw [hmk]
  unfold advancePosition
  dsimp only
  split
  · refine ⟨?_, ?_⟩
    · simp only [currentRest, hcol]; rw [← hd]
    · intro c' hc'
      dsimp only at hc' ⊢
      rw [hcol] at hc'; cases hc'
      rw [← hd, hacc, List.drop_drop, Nat.mul_succ]
  · rename_i hlt
    have hdrop : (encodeByte p b.cfg d).drop (b.seq.sub + 1) = [] := List.drop_eq_nil_of_le (by omega)
    rw [hdrop]
    split
    · rename_i hch
      refine ⟨?_, ?_⟩
      · simp only [currentRest, hcol]
        have : b.seq.chan + 1 < (orderColour b.cfg c).length := by omega
        rw [List.drop_eq_getElem_cons this, List.flatMap_cons]
        simp [List.getD, this]
      · intro c' _
        simp [subBits]
    · rename_i hch
      refine ⟨?_, ?_⟩
      · have : (orderColour b.cfg c).drop (b.seq.chan + 1) = [] := List.drop_eq_nil_of_le (by omega)
        simp [currentRest, this]
      · intro c' hc'
        simp at hc'

/-! ### The events still to issue -/

/-- With two bytes in flight the first event, a send, has been issued already (R170). -/
def afterSend (f : Nat) (es : List Event) : List Event := if f = 2 then es.tail else es

/-- The events a streaming WRITE still issues (R167). -/
def streamPending (p : Params) (cfg : BlockConfig) (q : Seq) : List Event :=
  match q.phase with
  | .payload =>
    if q.inFlight = 0 then
      .send p.dummyByte ::
        (preLatchGap p cfg ++ pendingPayload p cfg q ++ latchGap p cfg).flatMap exchangeEvents ++ [.read]
    else afterSend q.inFlight ((pendingPayload p cfg q ++ latchGap p cfg).flatMap exchangeEvents) ++ [.read]
  | .preLatch =>
    afterSend q.inFlight
      ((List.replicate q.latchLeft 0x00#8 ++ pendingPayload p cfg q ++ latchGap p cfg).flatMap exchangeEvents)
      ++ [.read]
  | .postLatch => afterSend q.inFlight ((List.replicate q.latchLeft 0x00#8).flatMap exchangeEvents) ++ [.read]
  | .drain => [.read]
  | .idle => []
  | .encoding => []

/-- The bytes the Encoding phase still appends (R173). -/
def pendingImage (p : Params) (cfg : BlockConfig) (q : Seq) : List Byte :=
  List.replicate q.latchLeft 0x00#8
    ++ if q.ended then [] else pendingPayload p cfg q ++ if isSingle cfg then latchGap p cfg else []

/-- The events a bulk WRITE still issues, when `image` is the rendered frame (R177, R178). -/
def bulkPending (p : Params) (cfg : BlockConfig) (q : Seq) (image : List Byte) : List Event :=
  match q.phase with
  | .encoding =>
    if isSingle cfg then [.write image]
    else (preLatchGap p cfg).map (fun v => .write [v]) ++ .write image :: (latchGap p cfg).map (fun v => .write [v])
  | .preLatch =>
    (List.replicate q.latchLeft 0x00#8).map (fun v => .write [v])
      ++ .write image :: (latchGap p cfg).map (fun v => .write [v])
  | .payload =>
    if isSingle cfg then [.write image] else .write image :: (latchGap p cfg).map (fun v => .write [v])
  | .postLatch => (List.replicate q.latchLeft 0x00#8).map (fun v => .write [v])
  | .idle => []
  | .drain => []

/-- The invariant of a WRITE of the listed colours `cs` in progress. -/
structure WriteInv (p : Params) (cfg : BlockConfig) (cs : List Colour) (obs : List Observation) (s : State) : Prop where
  inv : Inv s
  params : s.params = p
  observed : s.observed = obs
  block : ∃ b, s.block = some b ∧ b.cfg = cfg ∧ b.seq.phase ≠ .idle ∧ AccInv p cfg b.seq
    ∧ (∃ l, b.seq.colours = .listed l)
    ∧ (isStreaming cfg = true → s.trace.map Prod.fst ++ streamPending p cfg b.seq = streamEvents p cfg cs)
    ∧ (isStreaming cfg = false →
        s.trace.map Prod.fst ++ bulkPending p cfg b.seq (bufferImage p cfg cs) = bulkEvents p cfg cs
        ∧ ∃ bs, memReadRange b.buf 0 b.seq.cursor = some bs
            ∧ (b.seq.phase = .encoding → bs ++ pendingImage p cfg b.seq = bufferImage p cfg cs ∧ s.trace = [])
            ∧ (b.seq.phase ≠ .encoding → bs = bufferImage p cfg cs))
  answered : ∀ er ∈ s.trace, er.2.isErr = false

/-- The length of what the Encoding phase renders is MINCAP (R173, R176). -/
theorem framePayload_length {p : Params} {cfg : BlockConfig} (h : ConfigInv p cfg) (cs : List Colour) :
    (framePayload p cfg cs).length = cs.length * channelCount cfg.device * encodedLength cfg := by
  have hpx : ∀ c, (pixelPayload p cfg c).length = channelCount cfg.device * encodedLength cfg := by
    intro c
    have : ∀ ds : List Byte, (ds.flatMap (encodeByte p cfg)).length = ds.length * encodedLength cfg := by
      intro ds; induction ds with
      | nil => simp
      | cons d ds ih => simp [ih, encodeByte_length h, Nat.add_mul]; omega
    rw [pixelPayload, this, orderColour_length]
  induction cs with
  | nil => simp [framePayload]
  | cons c cs ih =>
    have : framePayload p cfg (c :: cs) = pixelPayload p cfg c ++ framePayload p cfg cs := rfl
    rw [this, List.length_append, hpx, ih, List.length_cons, Nat.add_mul, Nat.add_mul, Nat.one_mul]; omega

theorem bufferImage_length {p : Params} {cfg : BlockConfig} (h : ConfigInv p cfg) (cs : List Colour) :
    (bufferImage p cfg cs).length = minCapacity p cfg cs.length := by
  unfold bufferImage minCapacity wholeFrame preLatchGap latchGap
  have hl := framePayload_length h cs
  split
  · split <;> simp [hl]; omega
  · exact hl

theorem memReadRange_length {m : Memory} {i n : Nat} {bs : List Byte} (h : memReadRange m i n = some bs) : bs.length = n := by
  induction n generalizing i bs with
  | zero => simp [memReadRange] at h; simp [← h]
  | succ n ih =>
    rw [memReadRange] at h
    split at h
    · rename_i h2; simp at h; simp [← h, ih h2]
    · simp at h

theorem notFits {cfg : BlockConfig} {cursor n : Nat} (h : ¬ groupFits cfg cursor n = true) :
    ∃ capacity, bufferCapacity cfg = some capacity ∧ capacity < cursor + n := by
  unfold groupFits at h
  split at h
  · simp at h
  · exact ⟨_, by assumption, by simpa using h⟩

/-- Not fitting: the buffer is smaller than the frame. -/
theorem outOfBounds_ends {p cfg cs} {tr : List (Event × Reply)} {bs : List Byte} {m : Memory} {q : Seq} {n : Nat} {buf : Memory} {cl : ColourSource}
    (h : ConfigInv p cfg) (hbs : memReadRange m 0 q.cursor = some bs) (himg : bs ++ pendingImage p cfg q = bufferImage p cfg cs)
    (hn : n ≤ (pendingImage p cfg q).length) (hf : ¬ groupFits cfg q.cursor n = true) (ht : tr = []) :
    FrameEnds p cfg cs ⟨.outOfBounds, tr, buf, cl⟩ := by
  obtain ⟨cap, h1, h2⟩ := notFits hf
  refine ⟨ht, cap, h1, ?_⟩
  rw [← bufferImage_length h, ← himg, List.length_append, memReadRange_length hbs]
  omega

/-- A WRITE that goes on, or has ended as `FrameEnds` says. -/
def Progress (p : Params) (cfg : BlockConfig) (cs : List Colour) (obs : List Observation) (t : State) : Prop :=
  WriteInv p cfg cs obs t ∨ ∃ o, t.observed = obs ++ [o] ∧ FrameEnds p cfg cs o

theorem transact_progress {p cfg cs obs} {s : State} {b : Block} {e : Event} {next : State → State} {P : List Event}
    (hw : WriteInv p cfg cs obs s) (hb : s.block = some b) (hq : b.seq.phase ≠ .idle)
    (hF : s.trace.map Prod.fst ++ (e :: P) = frameEvents p cfg cs)
    (hn : ∀ received later, Progress p cfg cs obs
      (next { s with answers := later, trace := s.trace ++ [(e, okReply e received)] })) :
    Progress p cfg cs obs (transact e b s next) := by
  have hbusy : isBusy s = true := by simp [isBusy, hb, hq]
  refine transact_induct (.inl hw) ?_ ?_ ?_
  · intro later _
    obtain ⟨b', h1, h2, h3, h4, h5, h6, h7⟩ := hw.block
    exact .inl ⟨hw.inv.environment hbusy later s.trace, hw.params, hw.observed, ⟨b', h1, h2, h3, h4, h5, h6, h7⟩, hw.answered⟩
  · intro x later _
    right
    refine ⟨⟨.transportError (eventKind e) x, s.trace ++ [(e, .err x)], b.buf, b.seq.colours⟩, by simp [hw.observed], ?_⟩
    simp only [FrameEnds, NoneFailed, traceEvents]
    refine ⟨s.trace, e, rfl, rfl, hw.answered, ?_⟩
    rw [← hF]
    exact ⟨P, by simp⟩
  · intro r later _
    exact hn r later

theorem okReply_notErr (e : Event) (r : Byte) : (okReply e r).isErr = false := by
  cases e <;> rfl

/-- A WriteInv after an event that went through. -/
theorem WriteInv.next {p cfg cs obs} {s : State} {b : Block} {e : Event} {q : Seq} {r : Byte} {later : List Answer} {P : List Event}
    (hw : WriteInv p cfg cs obs s) (hcfg : b.cfg = cfg)
    (hI : Inv (State.withSeq { s with answers := later, trace := s.trace ++ [(e, okReply e r)] } b q))
    (hq : q.phase ≠ .idle)
    (hacc : AccInv p cfg q) (hl : ∃ l, q.colours = .listed l)
    (hF : s.trace.map Prod.fst ++ (e :: P) = frameEvents p cfg cs)
    (hstream : isStreaming cfg = true → P = streamPending p cfg q)
    (hbulk : isStreaming cfg = false → P = bulkPending p cfg q (bufferImage p cfg cs)
      ∧ q.phase ≠ .encoding ∧ memReadRange b.buf 0 q.cursor = some (bufferImage p cfg cs)) :
    WriteInv p cfg cs obs (State.withSeq { s with answers := later, trace := s.trace ++ [(e, okReply e r)] } b q) := by
  refine ⟨hI, hw.params, hw.observed, ⟨b.withSeq q, rfl, hcfg, hq, hacc, hl, ?_, ?_⟩, ?_⟩
  · intro hs
    rw [hstream hs] at hF
    simp [hF, frameEvents, hs]
  · intro hs
    obtain ⟨h1, h2, h3⟩ := hbulk hs
    rw [h1] at hF
    refine ⟨by simp [hF, frameEvents, hs], bufferImage p cfg cs, h3, fun h => absurd h h2, fun _ => rfl⟩
  · intro er her
    simp at her
    rcases her with her | rfl
    · exact hw.answered er her
    · exact okReply_notErr _ _

theorem afterSend_one (es : List Event) : afterSend 1 es = es := rfl

/-- The exchange, when the pending events are those of `v` and then `rest` -/
theorem exchange_progress {p cfg cs obs} {s : State} {b : Block} {v : Byte} {advance : Seq → Seq} {rest : List Event}
    (hw : WriteInv p cfg cs obs s) (hb : s.block = some b) (hcfg : b.cfg = cfg) (hst : isStreaming cfg = true)
    (hq : b.seq.phase ≠ .idle) (hctl : control b = .latch ∨ control b = .emit)
    (hacc : AccInv p cfg b.seq) (hl : ∃ l, b.seq.colours = .listed l)
    (hF : s.trace.map Prod.fst ++ streamPending p cfg b.seq = frameEvents p cfg cs)
    (hpend : streamPending p cfg b.seq = afterSend b.seq.inFlight (.send v :: .read :: rest))
    (hpend2 : streamPending p cfg { b.seq with inFlight := 2 } = .read :: rest)
    (hadvI : ∀ s', s'.params = s.params → Inv (State.withSeq s' b (advance { b.seq with inFlight := 1 })))
    (hadvq : (advance { b.seq with inFlight := 1 }).phase ≠ .idle)
    (hadvacc : AccInv p cfg (advance { b.seq with inFlight := 1 }))
    (hadvl : ∃ l, (advance { b.seq with inFlight := 1 }).colours = .listed l)
    (hadvp : streamPending p cfg (advance { b.seq with inFlight := 1 }) = rest) :
    Progress p cfg cs obs (exchange v b advance s) := by
  have hB := hw.inv.block b hb
  unfold exchange
  split
  · rename_i h2
    rw [hpend, h2] at hF
    simp only [afterSend] at hF
    refine transact_progress hw hb hq (by simpa using hF) ?_
    intro r later
    exact .inl (hw.next hcfg (hadvI _ rfl) hadvq hadvacc hadvl (by simpa using hF) (fun _ => hadvp.symm) (by simp [hst]))
  · rename_i h2
    rw [hpend] at hF
    simp only [afterSend, h2, if_false] at hF
    refine transact_progress hw hb hq hF ?_
    intro r later
    refine .inl (hw.next hcfg ?_ hq hacc hl hF (fun _ => hpend2.symm) (by simp [hst]))
    exact withBlock_inv hw.inv.params (inFlight_inv hB (hcfg ▸ hst) hctl hq) hq

theorem Progress.silent {p cfg cs obs} {s : State} {b : Block} {q : Seq}
    (hw : WriteInv p cfg cs obs s) (hb : s.block = some b) (hcfg : b.cfg = cfg)
    (hI : Inv (s.withSeq b q)) (hq : q.phase ≠ .idle) (hacc : AccInv p cfg q) (hl : ∃ l, q.colours = .listed l)
    (hstream : isStreaming cfg = true → streamPending p cfg q = streamPending p cfg b.seq)
    (hbulk : isStreaming cfg = false → q.cursor = b.seq.cursor ∧
      bulkPending p cfg q (bufferImage p cfg cs) = bulkPending p cfg b.seq (bufferImage p cfg cs) ∧
      (q.phase = .encoding → b.seq.phase = .encoding ∧ pendingImage p cfg q = pendingImage p cfg b.seq) ∧
      (q.phase ≠ .encoding → b.seq.phase = .encoding → pendingImage p cfg b.seq = [])) :
    Progress p cfg cs obs (s.withSeq b q) := by
  obtain ⟨b', h1, h2, h3, h4, h5, h6, h7⟩ := hw.block
  obtain rfl : b' = b := by rw [h1] at hb; simpa using hb
  refine .inl ⟨hI, hw.params, hw.observed, ⟨b'.withSeq q, rfl, hcfg, hq, hacc, hl, ?_, ?_⟩, hw.answered⟩
  · intro hs
    simp [hstream hs, h6 hs]
  · intro hs
    obtain ⟨g1, g2, g3, g4⟩ := hbulk hs
    obtain ⟨k1, bs, k2, k3, k4⟩ := h7 hs
    refine ⟨by simpa [g2] using k1, bs, by simpa [g1] using k2, fun h => ?_, fun h => ?_⟩
    · obtain ⟨j1, j2⟩ := g3 h
      simp only [Block.withSeq_seq, j2]
      exact k3 j1
    · by_cases he : b'.seq.phase = .encoding
      · have := (k3 he).1
        rw [g4 h he] at this
        simpa using this
      · exact k4 he

theorem streamPending_loop {p cfg} {q : Seq} (h1 : q.phase = .payload) (h2 : q.inFlight ≠ 0) :
    streamPending p cfg q =
      afterSend q.inFlight ((pendingPayload p cfg q ++ latchGap p cfg).flatMap exchangeEvents) ++ [.read] := by
  simp [streamPending, h1, h2]

theorem pendingImage_loop {p cfg} {q : Seq} (h1 : q.latchLeft = 0) (h2 : q.ended = false) :
    pendingImage p cfg q = pendingPayload p cfg q ++ if isSingle cfg then latchGap p cfg else [] := by
  simp [pendingImage, h1, h2]

theorem step_progress {p cfg cs obs} {s t : State} (hw : WriteInv p cfg cs obs s) (hI' : Inv t) (hs : step s = .next t) :
    Progress p cfg cs obs t := by
  have hp := hw.inv.params
  obtain ⟨b, hb, hcfg, hq, hacc, ⟨l, hl⟩, hst, hbk⟩ := hw.block
  have hB := hw.inv.block b hb
  have hps := hw.params
  subst hcfg
  have hFs : isStreaming b.cfg = true → s.trace.map Prod.fst ++ streamPending p b.cfg b.seq = frameEvents p b.cfg cs := by
    intro h; rw [hst h]; simp [frameEvents, h]
  have hFb : isStreaming b.cfg = false → s.trace.map Prod.fst ++ bulkPending p b.cfg b.seq (bufferImage p b.cfg cs) = frameEvents p b.cfg cs := by
    intro h; rw [(hbk h).1]; simp [frameEvents, h]
  have hctl := hs
  unfold step at hs
  rw [if_pos hp, hb] at hs
  dsimp only at hs
  split at hs
  · rename_i hc
    simp [control, controlAt_idle] at hc
    exact absurd hc hq
  · rename_i hc
    rw [show exec .dummyByte s = _ from atControl_at hp hb hc] at hs
    simp at hs; subst hs
    have hc' := hc
    simp only [control, controlAt_dummy] at hc'
    have hF := hFs hc'.2.1
    have hbd := hB.phase.beforeDummy hc'.2.1 hc'.1 hc'.2.2
    simp only [streamPending, hc'.1, hc'.2.2, if_true] at hF
    refine transact_progress hw hb hq (by rw [hps]; simpa using hF) ?_
    intro r later
    split
    · rename_i hpre
      refine .inl (hw.next rfl (withBlock_inv hp (dummy_inv hB hc).2 (by simp)) (by simp) ?_ ⟨l, hl⟩ (by rw [hps]; simpa using hF) ?_ (by simp [hc'.2.1]))
      · intro c hc; simp [hbd.1] at hc
      · intro _
        simp [streamPending, afterSend, preLatchGap, hpre, hps, latchGap, pendingPayload, currentRest]
    · rename_i hpre
      refine .inl (hw.next rfl (withBlock_inv hp (dummy_inv hB hc).1 (by simp [hc'.1])) (by simp [hc'.1]) ?_ ⟨l, hl⟩ (by rw [hps]; simpa using hF) ?_ (by simp [hc'.2.1]))
      · intro c hc; simp [hbd.1] at hc
      · intro _
        simp [streamPending, afterSend, preLatchGap, hpre, hc'.1, pendingPayload, currentRest]
  · rename_i hc
    rw [show exec .latchByte s = _ from atControl_at hp hb hc] at hs
    simp at hs; subst hs
    have hc' := hc
    simp only [control, controlAt_latch] at hc'
    obtain ⟨n, hn⟩ : ∃ n, b.seq.latchLeft = n + 1 := ⟨b.seq.latchLeft - 1, by omega⟩
    unfold latchOne
    cases hstr : isStreaming b.cfg
    · simp
      have hf := hB.phase.bulkInFlight hstr
      obtain ⟨k1, bs, k2, k3, k4⟩ := hbk hstr
      split
      · rename_i hph
        obtain ⟨k5, k6⟩ := k3 hph
        unfold appendByte
        split
        · rename_i hfit
          refine .inl ⟨?_, hps, hw.observed, ⟨_, rfl, rfl, by simpa [advanceLatch] using hq, hacc, ⟨l, hl⟩, by simp [hstr], fun _ => ?_⟩, hw.answered⟩
          · refine withBlock_inv hp ?_ (by simpa [advanceLatch] using hq)
            exact advanceLatch_inv (f := b.seq.inFlight) hB hc (by simp [hstr, hf]) (append_bufferInv hB.buffer hstr (by omega) hfit 0#8)
          · refine ⟨by simpa [bulkPending, advanceLatch, hph] using k1, bs ++ [0#8], ?_, fun _ => ⟨?_, k6⟩, fun h => absurd hph h⟩
            · simp only [advanceLatch]
              rw [memReadRange_succ, memReadRange_memWrite_above _ _ (by simp), k2]
              simp [memRead_memWrite_same]
            · rw [← k5]
              simp [pendingImage, advanceLatch, hn, List.replicate_succ, pendingPayload, currentRest]
        · right
          refine ⟨⟨.outOfBounds, s.trace, b.buf, b.seq.colours⟩, by simp [raiseError, hw.observed], ?_⟩
          refine outOfBounds_ends (n := max 1 b.seq.latchLeft) (hps ▸ hB.config) k2 k5 ?_ (by assumption) k6
          simp [pendingImage]; omega
      · rename_i hph
        have hF := hFb hstr
        have hph' : b.seq.phase = .preLatch ∨ b.seq.phase = .postLatch := by tauto
        have hI2 : ∀ s' : State, s'.params = s.params → Inv (s'.withSeq b (advanceLatch b.seq)) := by
          intro s' hs'
          refine withBlock_inv (hs' ▸ hp) ?_ (by simpa [advanceLatch] using hq)
          exact hs' ▸ advanceLatch_inv (f := b.seq.inFlight) (cur := b.seq.cursor) (m := b.buf) hB hc (by simp [hstr, hf]) hB.buffer
        rcases hph' with h1 | h1
        · simp only [bulkPending, h1, hn, List.replicate_succ, List.map_cons, List.cons_append] at hF
          refine transact_progress hw hb hq hF ?_
          intro r later
          refine .inl (hw.next rfl (hI2 _ rfl) (by simpa [advanceLatch] using hq) hacc ⟨l, hl⟩ hF (by simp [hstr]) fun _ => ?_)
          refine ⟨by simp [bulkPending, advanceLatch, h1, hn], by simp [advanceLatch, h1], ?_⟩
          rw [← k4 hph]; exact k2
        · simp only [bulkPending, h1, hn, List.replicate_succ, List.map_cons] at hF
          refine transact_progress hw hb hq hF ?_
          intro r later
          refine .inl (hw.next rfl (hI2 _ rfl) (by simpa [advanceLatch] using hq) hacc ⟨l, hl⟩ hF (by simp [hstr]) fun _ => ?_)
          refine ⟨by simp [bulkPending, advanceLatch, h1, hn], by simp [advanceLatch, h1], ?_⟩
          rw [← k4 hph]; exact k2
    · simp
      have hsp := hB.phase.strategyPhase
      simp [hstr] at hsp
      have hph : b.seq.phase = .preLatch ∨ b.seq.phase = .postLatch := by tauto
      have hf1 := hB.phase.afterDummy hstr (by tauto)
      have hI2 : ∀ s' : State, s'.params = s.params → Inv (s'.withSeq b (advanceLatch { b.seq with inFlight := 1 })) := by
        intro s' hs'
        refine withBlock_inv (hs' ▸ hp) ?_ (by simpa [advanceLatch] using hq)
        exact hs' ▸ advanceLatch_inv (f := 1) (cur := b.seq.cursor) (m := b.buf) hB hc (by simp [hstr]) hB.buffer
      rcases hph with h1 | h1
      · refine exchange_progress (rest := (List.replicate n 0x00#8 ++ pendingPayload p b.cfg b.seq ++ latchGap p b.cfg).flatMap exchangeEvents ++ [.read])
          hw hb rfl hstr hq (.inl hc) hacc ⟨l, hl⟩ (hFs hstr) ?_ ?_ hI2 (by simpa [advanceLatch] using hq) hacc ⟨l, hl⟩ ?_
        · simp only [streamPending, h1, hn, List.replicate_succ, List.cons_append, List.flatMap_cons, exchangeEvents, afterSend]
          split <;> simp
        · simp [streamPending, h1, hn, List.replicate_succ, exchangeEvents, afterSend, pendingPayload, currentRest]
        · simp [streamPending, h1, hn, afterSend, advanceLatch, pendingPayload, currentRest]
      · refine exchange_progress (rest := (List.replicate n 0x00#8).flatMap exchangeEvents ++ [.read])
          hw hb rfl hstr hq (.inl hc) hacc ⟨l, hl⟩ (hFs hstr) ?_ ?_ hI2 (by simpa [advanceLatch] using hq) hacc ⟨l, hl⟩ ?_
        · simp only [streamPending, h1, hn, List.replicate_succ, List.flatMap_cons, exchangeEvents, afterSend]
          split <;> simp
        · simp [streamPending, h1, hn, List.replicate_succ, exchangeEvents, afterSend]
        · simp [streamPending, h1, hn, afterSend, advanceLatch]
  · rename_i hc
    simp at hs; subst hs
    have h7 := hB.phase.paired hq
    have hne : b.seq.inFlight ≠ 2 := by
      intro h2
      have := h7 h2
      simp [hc] at this
    have hc' := hc
    simp only [control, controlAt_latchDone] at hc'
    unfold afterLatch at hI' ⊢
    split
    · rename_i hph
      rw [if_pos hph] at hI'
      refine Progress.silent hw hb rfl hI' (by simp) hacc ⟨l, hl⟩ ?_ ?_
      · intro hstr
        have hf1 := hB.phase.afterDummy hstr (.inl hph)
        have : b.seq.inFlight ≠ 0 := by omega
        simp [streamPending, hph, hc'.1, this, pendingPayload, currentRest]
      · intro hstr
        have hsing := hB.phase.singlePhase hstr
        have hsing : isSingle b.cfg = false := by
          cases h : isSingle b.cfg
          · rfl
          · have := hsing h; simp [hph] at this
        simp [bulkPending, hph, hc'.1, hsing]
    · rename_i hph
      rw [if_neg hph] at hI'
      have hph' : b.seq.phase = .postLatch := by tauto
      split
      · rename_i hstr
        rw [if_pos hstr] at hI'
        refine Progress.silent hw hb rfl hI' (by simp) hacc ⟨l, hl⟩ ?_ (by simp [hstr])
        intro _
        simp [streamPending, hph', hc'.1, afterSend, hne]
      · rename_i hstr
        have hstr : isStreaming b.cfg = false := by simpa using hstr
        obtain ⟨k1, bs, k2, k3, k4⟩ := hbk hstr
        have hF := hFb hstr
        right
        refine ⟨⟨.ok, s.trace, b.buf, b.seq.colours⟩, by simp [hw.observed], ?_⟩
        simp [bulkPending, hph', hc'.1] at hF
        refine ⟨hF, hw.answered, fun _ => ?_⟩
        rw [← k4 (by simp [hph']), memReadRange_length k2]; exact k2
  · rename_i hc
    have hc' := hc
    simp only [control, controlAt_pull, inPayloadLoop] at hc'
    have hbt := hB.position.betweenColours hc'.1
    have hrest : currentRest p b.cfg b.seq = [] := by simp [currentRest, hc'.1]
    have haccnil : b.seq.acc = [] := by
      have := hB.position.accumulator
      simp [hbt] at this
      exact this
    cases l with
    | cons c rest =>
      rw [pullColour_cons hB hl] at hs
      cases hs
      refine Progress.silent hw hb rfl hI' (by simpa using hq) ?_ ⟨rest, rfl⟩ ?_ ?_
      · intro c' hc''
        simp [hbt, subBits, haccnil]
      · intro hstr
        have hpp : pendingPayload p b.cfg { b.seq with colour := some c, colours := .listed rest } = pendingPayload p b.cfg b.seq := by
          simp only [pendingPayload, currentRest_pull hbt.1 hbt.2.1, hrest, hl, listOf]
          simp [framePayload]
        rcases hc'.2 with h' | h'
        · have := hB.phase.strategyPhase; simp [hstr, h'.1] at this
        · rw [streamPending_loop (q := b.seq) h'.1 h'.2.2, ← hpp]
          exact streamPending_loop h'.1 h'.2.2
      · intro hstr
        have hpp : pendingPayload p b.cfg { b.seq with colour := some c, colours := .listed rest } = pendingPayload p b.cfg b.seq := by
          simp only [pendingPayload, currentRest_pull hbt.1 hbt.2.1, hrest, hl, listOf]
          simp [framePayload]
        have h' : b.seq.phase = .encoding ∧ b.seq.latchLeft = 0 ∧ b.seq.ended = false := by simp_all
        refine ⟨rfl, rfl, fun _ => ⟨h'.1, ?_⟩, fun h => absurd h'.1 h⟩
        rw [pendingImage_loop (q := b.seq) h'.2.1 h'.2.2, ← hpp]
        exact pendingImage_loop h'.2.1 h'.2.2
    | nil =>
      rw [pullColour_nil hl] at hs
      cases hs
      unfold coloursEnded at hI' ⊢
      have hpp : pendingPayload p b.cfg b.seq = [] := by simp [pendingPayload, hrest, hl, listOf, framePayload]
      split
      · rename_i hstr
        rw [if_pos hstr] at hI'
        refine Progress.silent hw hb rfl hI' (by simp) hacc ⟨[], hl⟩ ?_ (by simp [hstr])
        intro _
        rcases hc'.2 with h' | h'
        · have := hB.phase.strategyPhase; simp [hstr, h'.1] at this
        · simp [streamPending, h'.1, h'.2.2, hpp, latchGap, hps]
      · rename_i hstr
        rw [if_neg hstr] at hI'
        have hstr : isStreaming b.cfg = false := by simpa using hstr
        have h' : b.seq.phase = .encoding ∧ b.seq.latchLeft = 0 ∧ b.seq.ended = false := by simp_all
        refine Progress.silent hw hb rfl hI' (by simpa using hq) hacc ⟨[], hl⟩ (by simp [hstr]) ?_
        intro _
        cases hsing : isSingle b.cfg <;> simp [bulkPending, h'.1, h'.2.1, h'.2.2, pendingImage, hpp, hsing, latchGap, hps]
  · rename_i hc
    rw [encodingRow_exec hp hb hc] at hs
    simp at hs; subst hs
    have hc' := hc
    simp only [control, controlAt_encode, inPayloadLoop] at hc'
    have hsub := hB.position.encodedFirst hc'.2.1
    refine Progress.silent hw hb rfl hI' (by simpa using hq) ?_ ⟨l, hl⟩ ?_ ?_
    · intro c hcol
      have hcol : b.seq.colour = some c := hcol
      have h1 := hacc c hcol
      simp only [hsub, Nat.mul_zero, List.drop_zero] at h1
      simp [hsub, h1, subBits_succ, currentByte, hcol, hps]
    · intro _
      rfl
    · intro _
      exact ⟨rfl, rfl, fun h => ⟨h, rfl⟩, fun h h' => absurd h' h⟩
  · rename_i hc
    simp at hs; subst hs
    have hc' := hc
    simp only [control, controlAt_emit, inPayloadLoop] at hc'
    have hk := advancePosition_keeps b.cfg
    have hB' : BlockInv p b := hps ▸ hB
    unfold emitByte
    cases hstr : isStreaming b.cfg
    · simp
      have hf := hB.phase.bulkInFlight hstr
      obtain ⟨k1, bs, k2, k3, k4⟩ := hbk hstr
      have h' : b.seq.phase = .encoding ∧ b.seq.latchLeft = 0 ∧ b.seq.ended = false := by simp_all
      obtain ⟨k5, k6⟩ := k3 h'.1
      have hem := currentRest_emit hB' hacc hc b.seq.inFlight (b.seq.cursor + 1)
      unfold appendByte
      split
      · rename_i hfit
        refine .inl ⟨?_, hps, hw.observed, ⟨_, rfl, rfl, by simpa [hk] using hq, hem.2, ⟨l, by simp [hk, hl]⟩, by simp [hstr], fun _ => ?_⟩, hw.answered⟩
        · refine withBlock_inv hp ?_ (by simpa [hk] using hq)
          exact advance_inv (f := b.seq.inFlight) hB hc (by simp [hstr, hf]) (append_bufferInv hB.buffer hstr (by omega) hfit _)
        · refine ⟨by simpa [bulkPending, hk, h'.1] using k1, bs ++ [packByte b.seq.acc], ?_, fun _ => ⟨?_, k6⟩, fun h => absurd h'.1 (by simpa [hk] using h)⟩
          · simp only [hk]
            rw [memReadRange_succ, memReadRange_memWrite_above _ _ (by simp), k2]
            simp [memRead_memWrite_same]
          · rw [← k5]
            rw [pendingImage_loop (q := b.seq) h'.2.1 h'.2.2, pendingPayload, hem.1]
            have := pendingImage_loop (p := p) (cfg := b.cfg)
              (q := advancePosition b.cfg { b.seq with inFlight := b.seq.inFlight, cursor := b.seq.cursor + 1 })
              (by simp [hk, h'.2.1]) (by simp [hk, h'.2.2])
            simp only [pendingPayload, hk] at this
            simp only [List.append_assoc, List.cons_append, List.nil_append] at this ⊢
            rw [← this]
      · right
        refine ⟨⟨.outOfBounds, s.trace, b.buf, b.seq.colours⟩, by simp [raiseError, hw.observed], ?_⟩
        refine outOfBounds_ends (n := max 1 (encodedLength b.cfg - b.seq.sub)) (hps ▸ hB.config) k2 k5 ?_ (by assumption) k6
        obtain ⟨c, hcol⟩ := Option.ne_none_iff_exists'.1 hc'.1
        have hlen := encodeByte_length hB'.config ((orderColour b.cfg c).getD b.seq.chan 0#8)
        have hr := hB.position.ranges
        rw [pendingImage_loop (q := b.seq) h'.2.1 h'.2.2, pendingPayload, currentRest, hcol]
        simp only [List.length_append, List.length_drop, hlen]
        omega
    · simp
      have h' : b.seq.phase = .payload ∧ b.seq.inFlight ≠ 0 := by
        rcases hc'.2.2 with h' | h'
        · have := hB.phase.strategyPhase; simp [hstr, h'.1] at this
        · exact ⟨h'.1, h'.2.2⟩
      have hem := currentRest_emit hB' hacc hc 1 b.seq.cursor
      have hI2 : ∀ s' : State, s'.params = s.params → Inv (s'.withSeq b (advancePosition b.cfg { b.seq with inFlight := 1 })) := by
        intro s' hs'
        refine withBlock_inv (hs' ▸ hp) ?_ (by simpa [hk] using hq)
        exact hs' ▸ advance_inv (f := 1) (cur := b.seq.cursor) (m := b.buf) hB hc (by simp [hstr]) hB.buffer
      refine exchange_progress (rest := (currentRest p b.cfg (advancePosition b.cfg { b.seq with inFlight := 1 }) ++ framePayload p b.cfg l ++ latchGap p b.cfg).flatMap exchangeEvents ++ [.read])
          hw hb rfl hstr hq (.inr hc) hacc ⟨l, hl⟩ (hFs hstr) ?_ ?_ hI2 (by simpa [hk] using hq) hem.2 ⟨l, by simp [hk, hl]⟩ ?_
      · rw [streamPending_loop h'.1 h'.2, pendingPayload, hem.1, hl]
        simp only [listOf, List.cons_append, List.flatMap_cons, exchangeEvents, afterSend]
        split <;> simp
      · rw [streamPending_loop (q := { b.seq with inFlight := 2 }) h'.1 (by simp)]
        have : pendingPayload p b.cfg { b.seq with inFlight := 2 } = currentRest p b.cfg b.seq ++ framePayload p b.cfg (listOf b.seq.colours) := rfl
        rw [this, hem.1, hl]
        simp [listOf, exchangeEvents, afterSend]
      · rw [streamPending_loop (by simp [hk, h'.1]) (by simp [hk])]
        simp [hk, pendingPayload, hl, listOf, afterSend]
  · rename_i hc
    simp at hs; subst hs
    have hbt := beginTransmit_inv hB hc
    have hc' := hc
    simp only [control, controlAt_rendered] at hc'
    unfold beginTransmit at hI' ⊢
    split
    · rename_i hif
      rw [if_pos hif] at hI'
      simp at hif
      refine Progress.silent hw hb rfl hI' (by simp) hacc ⟨l, hl⟩ (by simp [hbt.1]) ?_
      intro _
      simp [bulkPending, hc', hif, preLatchGap, latchGap, hps, pendingImage]
    · rename_i hif
      rw [if_neg hif] at hI'
      refine Progress.silent hw hb rfl hI' (by simp) hacc ⟨l, hl⟩ (by simp [hbt.1]) ?_
      intro _
      cases hsing : isSingle b.cfg <;> simp_all [bulkPending, preLatchGap, pendingImage]
  · rename_i hc
    have hc' := hc
    simp only [control, controlAt_bulkWrite] at hc'
    obtain ⟨k1, bs, k2, k3, k4⟩ := hbk hc'.2
    have hbs := k4 (by simp [hc'.1])
    have hF := hFb hc'.2
    unfold bulkWrite at hs
    rw [k2] at hs
    simp at hs; subst hs
    have hcfg := hB.config
    cases hsing : isSingle b.cfg
    · simp only [bulkPending, hc'.1, hsing] at hF
      refine transact_progress hw hb hq (by rw [hbs]; exact hF) ?_
      intro r later
      refine .inl (hw.next rfl (withBlock_inv hp (postLatch_inv hB hc hsing) (by simp)) (by simp) hacc ⟨l, hl⟩ (by rw [hbs]; exact hF) (by simp [hc'.2]) fun _ => ?_)
      refine ⟨by simp [bulkPending, latchGap, hps], by simp, ?_⟩
      rw [← hbs]; exact k2
    · simp only [bulkPending, hc'.1, hsing] at hF
      refine transact_progress hw hb hq (by rw [hbs]; exact hF) ?_
      intro r later
      right
      refine ⟨⟨.ok, s.trace ++ [(.write bs, okReply (.write bs) r)], b.buf, b.seq.colours⟩, by simp [hw.observed], ?_⟩
      refine ⟨by rw [← hF]; simp [traceEvents, hbs], ?_, fun _ => by rw [← hbs, memReadRange_length k2]; exact k2⟩
      intro er her
      simp at her
      rcases her with her | rfl
      · exact hw.answered er her
      · exact okReply_notErr (.write bs) r
  · rename_i hc
    simp at hs; subst hs
    have hc' := hc
    simp only [control, controlAt_drain] at hc'
    have hstr : isStreaming b.cfg = true := by
      have := hB.phase.strategyPhase
      cases h : isStreaming b.cfg
      · simp [h, hc'] at this
      · rfl
    have hF := hFs hstr
    simp only [streamPending, hc'] at hF
    refine transact_progress hw hb hq hF ?_
    intro r later
    right
    refine ⟨⟨.ok, s.trace ++ [(.read, okReply .read r)], b.buf, b.seq.colours⟩, by simp [hw.observed], ?_⟩
    refine ⟨by rw [← hF]; simp [traceEvents], ?_, by simp [hstr]⟩
    intro er her
    simp at her
    rcases her with her | rfl
    · exact hw.answered er her
    · exact okReply_notErr .read r

/-- An event is due: the frame is not all issued. -/
theorem event_due {p cfg cs obs} {s : State} {b : Block} {e : Event} (hw : WriteInv p cfg cs obs s) (hb : s.block = some b)
    (he : pendingEvent p b = some e) : s.trace.length < (frameEvents p cfg cs).length := by
  obtain ⟨b', h1, rfl, h3, h4, h5, h6, h7⟩ := hw.block
  rw [hb] at h1; cases h1
  have hB := hw.inv.block b hb
  unfold frameEvents
  cases hst : isStreaming b.cfg
  · rw [if_neg (by simp), ← (h7 hst).1]
    have hne : bulkPending p b.cfg b.seq (bufferImage p b.cfg cs) ≠ [] := by
      unfold pendingEvent at he
      have := hB.phase.strategyPhase
      cases hph : b.seq.phase <;> simp [hst, hph] at this ⊢ <;> simp [bulkPending, hph]
      · exact absurd hph h3
      · split <;> simp
      · split <;> simp
      · rintro h
        have : control b = .latchDone := by simp [control, controlAt, hph, h]
        simp [this] at he
    have := List.length_pos_iff.2 hne
    simp
    omega
  · rw [if_pos rfl, ← h6 hst]
    have hne : streamPending p b.cfg b.seq ≠ [] := by
      have := hB.phase.strategyPhase
      cases hph : b.seq.phase <;> simp [hst, hph] at this <;> simp [streamPending, hph]
      · exact absurd hph h3
      · split <;> simp
    have := List.length_pos_iff.2 hne
    simp
    omega

end Sys2Proof.Machine
end

