-- ==== Sys2Proof/Laws/Lockstep.lean ====
section
/-! SUPPORT. Two machines that differ only in what earlier WRITEs left in BUF from the cursor on, and in what the host has
observed already, make the same moves (`same_step`, `same_runs`). -/

namespace Sys2Proof.Machine

/-- The same configuration and position, and the same buffer below the cursor. -/
structure SameBlock (b c : Block) : Prop where
  cfg : b.cfg = c.cfg
  seq : b.seq = c.seq
  buf : ∀ i, i < b.seq.cursor → memRead b.buf i = memRead c.buf i

/-- Both absent, or both present and the same. -/
def SameOption : Option Block → Option Block → Prop
  | none, none => True
  | some b, some c => SameBlock b c
  | _, _ => False

/-- The same but for what earlier WRITEs left. -/
structure Same (o1 o2 : List Observation) (s t : State) : Prop where
  params : s.params = t.params
  cmds : s.cmds = t.cmds
  answers : s.answers = t.answers
  trace : s.trace = t.trace
  block : SameOption s.block t.block
  observed : ∃ l1 l2, s.observed = o1 ++ l1 ∧ t.observed = o2 ++ l2 ∧ l1.map Observation.seen = l2.map Observation.seen

variable {o1 o2 : List Observation}

theorem Same.obs {s t : State} (h : Same o1 o2 s t) {a b : Observation} (hab : a.seen = b.seen) :
    ∃ l1 l2, s.observed ++ [a] = o1 ++ l1 ∧ t.observed ++ [b] = o2 ++ l2 ∧ l1.map Observation.seen = l2.map Observation.seen := by
  obtain ⟨l1, l2, h1, h2, h3⟩ := h.observed
  exact ⟨l1 ++ [a], l2 ++ [b], by simp [h1], by simp [h2], by simp [h3, hab]⟩

theorem same_end {s t : State} {b c : Block} (h : Same o1 o2 s t) (hb : SameBlock b c) (r : Result) :
    Same o1 o2 (endWrite r b s) (endWrite r c t) := by
  refine ⟨h.params, h.cmds, h.answers, rfl, ⟨hb.cfg, by simp [hb.seq], hb.buf⟩, ?_⟩
  exact h.obs (by simp [Observation.seen, h.trace])

theorem same_seq {s t : State} {b c : Block} (h : Same o1 o2 s t) (hb : SameBlock b c) {q q' : Seq} (hq : q = q') (hcur : q.cursor = b.seq.cursor) :
    Same o1 o2 (s.withSeq b q) (t.withSeq c q') := by
  subst hq
  exact ⟨h.params, h.cmds, h.answers, h.trace, ⟨hb.cfg, rfl, fun i hi => hb.buf i (by simpa [hcur] using hi)⟩, h.observed⟩

theorem same_report {s t : State} (h : Same o1 o2 s t) (r : Result) : Same o1 o2 (report r s) (report r t) :=
  ⟨h.params, h.cmds, h.answers, rfl, h.block, h.obs rfl⟩

theorem same_transact {s t : State} {b c : Block} {e : Event} {n1 n2 : State → State} (h : Same o1 o2 s t) (hb : SameBlock b c)
    (hn : ∀ s' t', Same o1 o2 s' t' → Same o1 o2 (n1 s') (n2 t')) : Same o1 o2 (transact e b s n1) (transact e c t n2) := by
  unfold transact
  have ht := h.trace
  rw [← h.answers, ← h.trace]
  split
  · exact h
  · exact ⟨h.params, h.cmds, rfl, rfl, h.block, h.observed⟩
  · refine same_end ?_ hb _
    exact ⟨h.params, h.cmds, rfl, rfl, h.block, h.observed⟩
  · exact hn _ _ ⟨h.params, h.cmds, rfl, rfl, h.block, h.observed⟩

theorem same_exchange {s t : State} {b c : Block} {v : Byte} {adv : Seq → Seq} (h : Same o1 o2 s t) (hb : SameBlock b c)
    (ha : ∀ q, (adv q).cursor = q.cursor) : Same o1 o2 (exchange v b adv s) (exchange v c adv t) := by
  unfold exchange
  rw [← hb.seq]
  split
  · exact same_transact h hb fun s' t' h' => same_seq h' hb rfl (by simp [ha])
  · exact same_transact h hb fun s' t' h' => same_seq h' hb rfl rfl

theorem same_append {s t : State} {b c : Block} {n : Nat} {v : Byte} {adv : Seq → Seq} (h : Same o1 o2 s t) (hb : SameBlock b c)
    (ha : ∀ q, (adv q).cursor = q.cursor) : Same o1 o2 (appendByte n v b adv s) (appendByte n v c adv t) := by
  unfold appendByte
  rw [← hb.seq, ← hb.cfg]
  split
  · refine ⟨h.params, h.cmds, h.answers, h.trace, ⟨rfl, rfl, fun i hi => ?_⟩, h.observed⟩
    simp [ha] at hi ⊢
    by_cases hi' : i = b.seq.cursor
    · subst hi'; rw [memRead_memWrite_same, memRead_memWrite_same]
    · rw [memRead_memWrite_ne _ _ hi', memRead_memWrite_ne _ _ hi', hb.buf i (by omega)]
  · exact same_end h hb _

theorem memReadRange_congr {m m' : Memory} {i n : Nat} (h : ∀ j, j < i + n → memRead m j = memRead m' j) : memReadRange m i n = memReadRange m' i n := by
  induction n generalizing i with
  | zero => rfl
  | succ n ih => rw [memReadRange, memReadRange, h i (by omega), ih fun j hj => h j (by omega)]

/-- The same outcome. -/
def SameOut (o1 o2 : List Observation) (x y : Out) : Prop :=
  match x, y with
  | .next s, .next t => Same o1 o2 s t
  | .fault r, .fault r' => r = r'
  | .refused r, .refused r' => r = r'
  | _, _ => False

theorem same_underParams {s t : State} {x y : Out} (h : Same o1 o2 s t) (hxy : SameOut o1 o2 x y) : SameOut o1 o2 (underParams s x) (underParams t y) := by
  unfold underParams
  rw [h.params]
  split
  · exact hxy
  · rfl

theorem same_busy {s t : State} (h : Same o1 o2 s t) : isBusy s = isBusy t := by
  have := h.block
  unfold isBusy
  cases hs : s.block <;> cases ht : t.block <;> simp [hs, ht, SameOption] at this ⊢
  rw [this.seq]

theorem same_construct {s t : State} (h : Same o1 o2 s t) (e : Encoder) (f : NewFields) :
    Same o1 o2 (construct e f s) (construct e f t) := by
  have hx : Same o1 o2 (s.withBlock (constructedBlock e f)) (t.withBlock (constructedBlock e f)) :=
    ⟨h.params, h.cmds, h.answers, h.trace, ⟨rfl, rfl, fun _ _ => rfl⟩, h.observed⟩
  exact same_report hx .ok

theorem same_command {s t : State} {i : Instr} (h : Same o1 o2 s t) (hc : i.isCommand = true) : SameOut o1 o2 (exec i s) (exec i t) := by
  have hbs := same_busy h
  have fx : ∀ f, SameOut o1 o2 (newFixed f s) (newFixed f t) := by
    intro f
    refine same_underParams h ?_
    rw [hbs]
    split
    · rfl
    · exact same_construct h _ _
  have wr : ∀ cs, SameOut o1 o2 (writeColours cs s) (writeColours cs t) := by
    intro cs
    refine same_underParams h ?_
    have hb := h.block
    cases hs : s.block <;> cases ht : t.block <;> simp only [hs, ht, SameOption] at hb ⊢
    · rfl
    · rw [hbs, ← hb.cfg]
      split
      · rfl
      · split
        · refine ⟨h.params, h.cmds, h.answers, rfl, ⟨hb.cfg, ?_, fun i hi => ?_⟩, h.observed⟩
          · simp [startBlock, h.params, hb.cfg]
          · simp [startBlock, startSeq] at hi
        · rfl
  cases i with
  | newFixed f => exact fx f
  | new => exact fx _
  | newTimed f clk =>
    refine same_underParams h ?_
    rw [hbs, h.params]
    split
    · rfl
    · split
      · have hn : SameOption none none := trivial
        refine same_report ?_ _
        constructor
        · rfl
        · exact h.cmds
        · exact h.answers
        · exact h.trace
        · exact hn
        · exact h.observed
      · exact same_construct h _ _
  | write cs => exact wr cs
  | latch => exact wr _
  | blank n => exact wr _
  | lut00 => simp [Instr.isCommand] at hc
  | lut01 => simp [Instr.isCommand] at hc
  | lut10 => simp [Instr.isCommand] at hc
  | lut11 => simp [Instr.isCommand] at hc
  | timedBit0 => simp [Instr.isCommand] at hc
  | timedBit1 => simp [Instr.isCommand] at hc
  | latchByte => simp [Instr.isCommand] at hc
  | dummyByte => simp [Instr.isCommand] at hc

theorem same_stepCommand {s t : State} (h : Same o1 o2 s t) : SameOut o1 o2 (stepCommand s) (stepCommand t) := by
  unfold stepCommand nextCommand
  rw [h.cmds]
  cases ht : t.cmds with
  | nil => exact h
  | cons w ws =>
    dsimp only
    cases hd : decode (w :: ws) with
    | error e => rfl
    | ok x =>
      obtain ⟨i, rest⟩ := x
      exact same_command ⟨h.params, rfl, h.answers, h.trace, h.block, h.observed⟩ (decode_isCommand hd)

theorem same_step {s t : State} (h : Same o1 o2 s t) : SameOut o1 o2 (step s) (step t) := by
  have hb := h.block
  by_cases hp : paramsValid s.params = true
  · have hp' : paramsValid t.params = true := h.params ▸ hp
    cases hs : s.block <;> cases ht : t.block <;> simp only [hs, ht, SameOption] at hb
    · have e1 : step s = stepCommand s := by simp [step, hp, hs]
      have e2 : step t = stepCommand t := by simp [step, hp', ht]
      rw [e1, e2]; exact same_stepCommand h
    · rename_i b c
      have hctl : control b = control c := by simp [control, hb.cfg, hb.seq]
      rw [step_busy hp hs, step_busy hp' ht, ← hctl]
      cases hc : control b with
      | idle => exact same_stepCommand h
      | dummy =>
        simp only [exec, execDummyByte, atControl_at hp hs hc, atControl_at hp' ht (hctl ▸ hc)]
        rw [← h.params, ← hb.cfg, ← hb.seq]
        refine same_transact h hb fun s' t' h' => ?_
        split <;> exact same_seq h' hb rfl rfl
      | latch =>
        show Same o1 o2 _ _
        dsimp only [latchOne]
        rw [← hb.cfg, ← hb.seq]
        split
        · exact same_exchange h hb fun _ => rfl
        · split
          · exact same_append h hb fun _ => rfl
          · exact same_transact h hb fun s' t' h' => same_seq h' hb rfl rfl
      | latchDone =>
        show Same o1 o2 _ _
        dsimp only [afterLatch]
        rw [← hb.cfg, ← hb.seq]
        split
        · exact same_seq h hb rfl rfl
        · split
          · exact same_seq h hb rfl rfl
          · exact same_end h hb _
      | pull =>
        dsimp only [pullColour, coloursEnded]
        rw [← hb.cfg, ← hb.seq, ← h.params]
        split
        · split
          · exact same_seq h hb rfl rfl
          · rfl
        · show Same o1 o2 _ _
          split <;> exact same_seq h hb rfl rfl
      | encode =>
        show Same o1 o2 _ _
        dsimp only [pushSubBits]
        refine same_seq h hb ?_ rfl
        simp [hb.cfg, hb.seq, h.params, currentByte]
      | emit =>
        show Same o1 o2 _ _
        dsimp only [emitByte]
        rw [← hb.cfg, ← hb.seq]
        split
        · exact same_exchange h hb fun q => (advancePosition_keeps _ q).2.2.1
        · exact same_append h hb fun q => (advancePosition_keeps _ q).2.2.1
      | rendered =>
        show Same o1 o2 _ _
        dsimp only [beginTransmit]
        rw [← hb.cfg, ← hb.seq, ← h.params]
        split <;> exact same_seq h hb rfl rfl
      | bulkWrite =>
        dsimp only [bulkWrite]
        have hm : memReadRange c.buf 0 b.seq.cursor = memReadRange b.buf 0 b.seq.cursor := memReadRange_congr fun j hj => (hb.buf j (by omega)).symm
        rw [← hb.cfg, ← hb.seq, hm, ← h.params]
        split
        · rfl
        · refine same_transact h hb fun s' t' h' => ?_
          split
          · exact same_end h' hb _
          · exact same_seq h' hb rfl rfl
      | drain =>
        show Same o1 o2 _ _
        dsimp only [drainRead]
        rw [← hb.seq]
        exact same_transact h hb fun s' t' h' =>
          same_end (b := b.withSeq { b.seq with inFlight := 0 }) (c := c.withSeq { b.seq with inFlight := 0 }) h' ⟨hb.cfg, rfl, hb.buf⟩ _
  · have hp' : ¬ paramsValid t.params = true := h.params ▸ hp
    simp only [step, hp, hp']
    rfl

theorem same_runs (k : Nat) : ∀ {s t : State}, Same o1 o2 s t → ∀ s', runSteps k s = .next s' → ∃ t', runSteps k t = .next t' ∧ Same o1 o2 s' t' := by
  induction k with
  | zero => intro s t h s' hs; simp at hs; subst hs; exact ⟨t, rfl, h⟩
  | succ k ih =>
    intro s t h s' hs
    obtain ⟨s1, h1, h2⟩ := runSteps_succ_next hs
    have hst := same_step h
    rw [h1] at hst
    cases ht : step t with
    | next t1 =>
      rw [ht] at hst
      obtain ⟨t', h3, h4⟩ := ih hst s' h2
      exact ⟨t', by rw [runSteps_succ ht, h3], h4⟩
    | fault r => rw [ht] at hst; exact absurd hst id
    | refused r => rw [ht] at hst; exact absurd hst id

end Sys2Proof.Machine
end

