-- ==== Sys2Proof/Laws/PerInstr.lean ====
section
/-! SUPPORT. One fact about every instruction as syntax: how it is spelled (spec/30_encoding.md R70, R72, R88). -/

namespace Sys2Proof.Laws.Spelling

/-- A pseudo-command has the words of what it stands for; exactly the commands have words; exactly the internal rows
have a table code. -/
def Statement (i : Instr) : Prop :=
  encode i = encode i.expand ∧ (i.isCommand = true ↔ encode i ≠ []) ∧ (i.isCommand = true ↔ i.rowCode = none)

theorem newFixed (fields : NewFields) : Statement (.newFixed fields) := by
  simp [Statement, Instr.expand, Instr.isCommand, encode, Instr.rowCode]

theorem newTimed (fields : NewFields) (clockHz : Word) : Statement (.newTimed fields clockHz) := by
  simp [Statement, Instr.expand, Instr.isCommand, encode, Instr.rowCode]

theorem write (colours : ColourSource) : Statement (.write colours) := by
  simp [Statement, Instr.expand, Instr.isCommand, encode, Instr.rowCode]

theorem new : Statement .new := by unfold Statement; decide

theorem latch : Statement .latch := by unfold Statement; decide

theorem blank (n : Nat) : Statement (.blank n) := by
  have h : colourWord Colour.black = 0#32 := by decide
  simp [Statement, Instr.expand, Instr.isCommand, encode, Instr.rowCode, colourWords, h]

theorem lut00 : Statement .lut00 := by unfold Statement; decide

theorem lut01 : Statement .lut01 := by unfold Statement; decide

theorem lut10 : Statement .lut10 := by unfold Statement; decide

theorem lut11 : Statement .lut11 := by unfold Statement; decide

theorem timedBit0 : Statement .timedBit0 := by unfold Statement; decide

theorem timedBit1 : Statement .timedBit1 := by unfold Statement; decide

theorem latchByte : Statement .latchByte := by unfold Statement; decide

theorem dummyByte : Statement .dummyByte := by unfold Statement; decide

end Sys2Proof.Laws.Spelling
end

