-- ==== Sys2Proof/Laws/Work.lean ====
section
/-! SUPPORT. A WRITE of listed colours gets nearer to its end with every step that is not held (`work_step`); how a step
ends a WRITE (`end_cases`); what a step does to the colours (`stream_step`). -/

namespace Sys2Proof.Machine

/-- The moves of the later phases. -/
def phaseCostC (cfg : BlockConfig) (rb : Nat) (ph : Phase) (f : Nat) (e : Bool) : Nat :=
  match ph with
  | .idle => 0
  | .drain => 1
  | .postLatch => 2
  | .payload => if isStreaming cfg then (if f = 0 then 4 * rb + 10 else 2 * rb + 4) else 2 * rb + 4
  | .preLatch => 2 * rb + 6
  | .encoding => if e then 4 * rb + 8 else 6 * rb + 10

/-- The moves of the later phases. -/
def phaseCost (cfg : BlockConfig) (rb : Nat) (q : Seq) : Nat := phaseCostC cfg rb q.phase q.inFlight q.ended

/-- The moves of one channel byte. -/
def byteCost (cfg : BlockConfig) : Nat := encoderUnits cfg + 2 * encodedLength cfg

/-- The moves of the current colour that are left. -/
def colourCost (cfg : BlockConfig) (q : Seq) : Nat :=
  match q.colour with
  | none => 0
  | some _ => (channelCount cfg.device - q.chan - 1) * byteCost cfg + (encoderUnits cfg - q.enc) + 2 * (encodedLength cfg - q.sub)

/-- A bound on the moves a WRITE of listed colours has left, with latches of `rb` bytes. -/
def work (rb : Nat) (cfg : BlockConfig) (q : Seq) : Nat :=
  phaseCost cfg rb q + 2 * q.latchLeft + colourCost cfg q
    + (listOf q.colours).length * (channelCount cfg.device * byteCost cfg + 1) + (2 - q.inFlight)

theorem advance_cost {p : Params} {b : Block} (hB : BlockInv p b) (hc : control b = .emit) (f cur : Nat) :
    colourCost b.cfg (advancePosition b.cfg { b.seq with inFlight := f, cursor := cur }) + 2 ≤ colourCost b.cfg b.seq := by
  have hr := hB.position.ranges
  simp only [control, controlAt_emit] at hc
  obtain ⟨c, hcol⟩ := Option.ne_none_iff_exists'.1 hc.1
  have hbc : byteCost b.cfg = encoderUnits b.cfg + 2 * encodedLength b.cfg := rfl
  unfold advancePosition
  dsimp only
  split
  · simp only [colourCost, hcol]; omega
  · split
    · rename_i h1 h2
      simp only [colourCost, hcol]
      obtain ⟨m, hm⟩ : ∃ m, channelCount b.cfg.device - b.seq.chan - 1 = m + 1 := ⟨channelCount b.cfg.device - b.seq.chan - 2, by omega⟩
      rw [hm, show channelCount b.cfg.device - (b.seq.chan + 1) - 1 = m by omega, Nat.add_mul, hbc]
      omega
    · simp only [colourCost, hcol]; omega

theorem work_advance (rb : Nat) (cfg : BlockConfig) (q : Seq) (f cur : Nat) :
    work rb cfg (advancePosition cfg { q with inFlight := f, cursor := cur }) =
      phaseCostC cfg rb q.phase f q.ended + 2 * q.latchLeft
        + colourCost cfg (advancePosition cfg { q with inFlight := f, cursor := cur })
        + (listOf q.colours).length * (channelCount cfg.device * byteCost cfg + 1) + (2 - f) := by
  obtain ⟨h1, h2, h3, h4, h5, h6⟩ := advancePosition_keeps cfg { q with inFlight := f, cursor := cur }
  simp only at h1 h2 h3 h4 h5 h6
  generalize advancePosition cfg { q with inFlight := f, cursor := cur } = q' at *
  simp only [work, phaseCost]
  simp_all

/-- Each step of a WRITE lowers the work, or holds an event, or ends the WRITE. -/
theorem work_step {p cfg cs obs} {s t : State} {b b' : Block} (hw : WriteInv p cfg cs obs s) (hb : s.block = some b) (ht : step s = .next t)
    (hb' : t.block = some b') (hobs : t.observed = s.observed) :
    (work (latchLength p cfg) cfg b'.seq < work (latchLength p cfg) cfg b.seq ∧ ((t.answers = s.answers ∧ t.trace = s.trace) ∨ ∃ r er, s.answers = .ok r :: t.answers ∧ t.trace = s.trace ++ [er]))
     ∨ ((∃ e, pendingEvent p b = some e) ∧ b' = b ∧ t.trace = s.trace ∧ (s.answers = .notReady :: t.answers ∨ s.answers = [])) := by
  have hp := hw.inv.params
  obtain ⟨b1, hb1, hcfg, hq, hacc, ⟨l, hl⟩, hst, hbk⟩ := hw.block
  rw [hb] at hb1; cases hb1
  have hB := hw.inv.block b hb
  have hps := hw.params
  subst hcfg
  subst hps
  have tr : ∀ e (next : State → State), pendingEvent s.params b = some e → t = transact e b s next →
     (∀ s' : State, s'.observed = s.observed → s'.params = s.params → (next s').observed = s.observed → ∀ b'', (next s').block = some b'' → (next s').answers = s'.answers ∧ (next s').trace = s'.trace ∧ work (latchLength s.params b.cfg) b.cfg b''.seq < work (latchLength s.params b.cfg) b.cfg b.seq) →
     (work (latchLength s.params b.cfg) b.cfg b'.seq < work (latchLength s.params b.cfg) b.cfg b.seq ∧ ((t.answers = s.answers ∧ t.trace = s.trace) ∨ ∃ r er, s.answers = .ok r :: t.answers ∧ t.trace = s.trace ++ [er]))
     ∨ ((∃ e, pendingEvent s.params b = some e) ∧ b' = b ∧ t.trace = s.trace ∧ (s.answers = .notReady :: t.answers ∨ s.answers = [])) := by
    intro e next he h hn
    unfold transact at h
    split at h
    · right; subst h; rw [hb] at hb'; cases hb'; exact ⟨⟨e, he⟩, rfl, rfl, .inr (by assumption)⟩
    · right; subst h; rw [show s.block = some b' from hb'] at hb; cases hb; exact ⟨⟨e, he⟩, rfl, rfl, .inl (by assumption)⟩
    · subst h; simp [raiseError] at hobs
    · rename_i r later ha
      left
      subst h
      have := hn { s with answers := later, trace := s.trace ++ [(e, okReply e r)] } rfl rfl hobs b' hb'
      exact ⟨this.2.2, .inr ⟨r, _, by rw [this.1, ha], this.2.1⟩⟩
  have hrng := hB.phase.inFlightRange
  rw [step_busy hp hb] at ht
  split at ht <;> rename_i hc
  · simp [control, controlAt_idle] at hc; contradiction
  · simp only [exec, execDummyByte, atControl_at hp hb hc, Host.Outcome.next.injEq] at ht
    have hc' := hc
    simp only [control, controlAt_dummy] at hc'
    refine tr _ _ (by simp [pendingEvent, hc]) ht.symm ?_
    intro s' h1 h2 h3 b'' h4
    split at h4
    · rename_i hpl
      rw [if_pos hpl]
      simp at h4; subst h4
      refine ⟨rfl, rfl, ?_⟩
      simp [work, phaseCost, phaseCostC, hc', colourCost]; omega
    · rename_i hpl
      rw [if_neg hpl]
      simp at h4; subst h4
      refine ⟨rfl, rfl, ?_⟩
      simp [work, phaseCost, phaseCostC, hc', colourCost]; omega
  · simp at ht
    have hc' := hc
    simp only [control, controlAt_latch] at hc'
    unfold latchOne at ht
    split at ht
    · rename_i hstr
      have hsp := hB.phase.strategyPhase
      simp [hstr] at hsp
      have hph : b.seq.phase = .preLatch ∨ b.seq.phase = .postLatch := by tauto
      have hf1 := hB.phase.afterDummy hstr (by tauto)
      unfold exchange at ht
      split at ht
      · rename_i h2
        refine tr _ _ (by simp [pendingEvent, hc, hstr, h2]) ht.symm ?_
        intro s' h1 _ h3 b'' h4
        simp at h4; subst h4
        refine ⟨rfl, rfl, ?_⟩
        rcases hph with h | h <;> simp [work, phaseCost, phaseCostC, h, colourCost, advanceLatch, h2] <;> omega
      · rename_i h2
        refine tr _ _ (by simp [pendingEvent, hc, hstr, h2]) ht.symm ?_
        intro s' h1 _ h3 b'' h4
        simp at h4; subst h4
        refine ⟨rfl, rfl, ?_⟩
        rcases hph with h | h <;> simp [work, phaseCost, phaseCostC, h, colourCost] <;> omega
    · rename_i hstr
      split at ht
      · rename_i hph
        unfold appendByte at ht
        split at ht
        · subst ht; simp at hb'; subst hb'
          left
          refine ⟨?_, .inl ⟨rfl, rfl⟩⟩
          simp [work, phaseCost, phaseCostC, hph, colourCost, advanceLatch]; omega
        · subst ht; simp [raiseError] at hobs
      · rename_i hph
        refine tr _ _ (by simp [pendingEvent, hc, hstr, hph]) ht.symm ?_
        intro s' h1 _ h3 b'' h4
        simp at h4; subst h4
        refine ⟨rfl, rfl, ?_⟩
        have hph' : b.seq.phase = .preLatch ∨ b.seq.phase = .postLatch := by tauto
        rcases hph' with h | h <;> simp [work, phaseCost, phaseCostC, h, colourCost, advanceLatch] <;> omega
  · simp at ht
    have hc' := hc
    simp only [control, controlAt_latchDone] at hc'
    left
    unfold afterLatch at ht
    split at ht
    · rename_i hph
      subst ht; simp at hb'; subst hb'
      refine ⟨?_, .inl ⟨rfl, rfl⟩⟩
      by_cases hstr : isStreaming b.cfg = true
      · have hf1 := hB.phase.afterDummy hstr (.inl hph)
        have : b.seq.inFlight ≠ 0 := by omega
        simp [work, phaseCost, phaseCostC, hph, colourCost, this]
      · simp [work, phaseCost, phaseCostC, hph, colourCost, hstr]
    · split at ht
      · subst ht; simp at hb'; subst hb'
        refine ⟨?_, .inl ⟨rfl, rfl⟩⟩
        have hph : b.seq.phase = .postLatch := by tauto
        simp [work, phaseCost, phaseCostC, hph, colourCost]
      · subst ht; simp at hobs
  · have hc' := hc
    simp only [control, controlAt_pull, inPayloadLoop] at hc'
    have hbt := hB.position.betweenColours hc'.1
    left
    cases l with
    | cons c rest =>
      rw [pullColour_cons hB hl] at ht
      cases ht; simp at hb'; subst hb'
      refine ⟨?_, .inl ⟨rfl, rfl⟩⟩
      have hn := channelCount_pos b.cfg.device
      have e2 : channelCount b.cfg.device * byteCost b.cfg = (channelCount b.cfg.device - 0 - 1) * byteCost b.cfg + (encoderUnits b.cfg + 2 * encodedLength b.cfg) := by
        obtain ⟨m, hm⟩ : ∃ m, channelCount b.cfg.device = m + 1 := ⟨channelCount b.cfg.device - 1, by omega⟩
        rw [hm, Nat.add_mul]; simp [byteCost]
      simp only [work, phaseCost, colourCost, hl, listOf, hc'.1, hbt, List.length_cons, Block.withSeq_seq, Nat.add_mul]
      omega
    | nil =>
      rw [pullColour_nil hl, Host.Outcome.next.injEq] at ht
      unfold coloursEnded at ht
      split at ht
      · rename_i hstr
        subst ht; simp at hb'; subst hb'
        refine ⟨?_, .inl ⟨rfl, rfl⟩⟩
        have hph : b.seq.phase = .payload ∧ b.seq.inFlight ≠ 0 := by
          rcases hc'.2 with h' | h'
          · have := hB.phase.strategyPhase; simp [hstr, h'.1] at this
          · exact ⟨h'.1, h'.2.2⟩
        have hlat : b.seq.latchLeft = b.seq.latchLeft := rfl
        simp [work, phaseCost, phaseCostC, hph, hstr, colourCost, hc'.1, listOf]
        omega
      · rename_i hstr
        have hstr : isStreaming b.cfg = false := by simpa using hstr
        have h' : b.seq.phase = .encoding ∧ b.seq.latchLeft = 0 ∧ b.seq.ended = false := by simp_all
        subst ht; simp at hb'; subst hb'
        refine ⟨?_, .inl ⟨rfl, rfl⟩⟩
        simp [work, phaseCost, phaseCostC, h', colourCost, hc'.1, listOf]
        split <;> omega
  · simp at ht; subst ht; simp [pushSubBits] at hb'; subst hb'
    have hc' := hc
    simp only [control, controlAt_encode] at hc'
    obtain ⟨c, hcol⟩ := Option.ne_none_iff_exists'.1 hc'.1
    left
    refine ⟨?_, .inl ⟨rfl, rfl⟩⟩
    simp only [work, phaseCost, colourCost, hcol, Block.withSeq_seq]
    omega
  · simp at ht
    have hc' := hc
    simp only [control, controlAt_emit, inPayloadLoop] at hc'
    unfold emitByte at ht
    split at ht
    · rename_i hstr
      have hph : b.seq.phase = .payload ∧ b.seq.inFlight ≠ 0 := by
        rcases hc'.2.2 with h' | h'
        · have := hB.phase.strategyPhase; simp [hstr, h'.1] at this
        · exact ⟨h'.1, h'.2.2⟩
      unfold exchange at ht
      split at ht
      · rename_i h2
        refine tr _ _ (by simp [pendingEvent, hc, hstr, h2]) ht.symm ?_
        intro s' h1 _ h3 b'' h4
        simp at h4; subst h4
        refine ⟨rfl, rfl, ?_⟩
        have hcost := advance_cost hB hc 1 b.seq.cursor
        have hw2 := work_advance (latchLength s.params b.cfg) b.cfg b.seq 1 b.seq.cursor
        generalize hg : colourCost b.cfg (advancePosition b.cfg { b.seq with inFlight := 1, cursor := b.seq.cursor }) = cc at hcost hw2
        simp only [Block.withSeq_seq]
        refine lt_of_eq_of_lt hw2 ?_
        simp only [work, phaseCost, phaseCostC, hph, hstr, h2]
        simp
        omega
      · rename_i h2
        refine tr _ _ (by simp [pendingEvent, hc, hstr, h2]) ht.symm ?_
        intro s' h1 _ h3 b'' h4
        simp at h4; subst h4
        refine ⟨rfl, rfl, ?_⟩
        simp [work, phaseCost, phaseCostC, hph, hstr, colourCost]; omega
    · rename_i hstr
      have hstr : isStreaming b.cfg = false := by simpa using hstr
      have h' : b.seq.phase = .encoding ∧ b.seq.latchLeft = 0 ∧ b.seq.ended = false := by simp_all
      unfold appendByte at ht
      split at ht
      · subst ht; simp at hb'; subst hb'
        left
        refine ⟨?_, .inl ⟨rfl, rfl⟩⟩
        have hcost := advance_cost hB hc b.seq.inFlight (b.seq.cursor + 1)
        have hw2 := work_advance (latchLength s.params b.cfg) b.cfg b.seq b.seq.inFlight (b.seq.cursor + 1)
        refine lt_of_eq_of_lt hw2 ?_
        simp only [work, phaseCost, phaseCostC, h'] at hcost ⊢
        omega
      · subst ht; simp [raiseError] at hobs
  · simp at ht
    have hc' := hc
    simp only [control, controlAt_rendered] at hc'
    left
    unfold beginTransmit at ht
    have hstr : isStreaming b.cfg = false := by
      have := hB.phase.strategyPhase
      cases h : isStreaming b.cfg
      · rfl
      · simp [h, hc'.1] at this
    split at ht
    · subst ht; simp at hb'; subst hb'
      refine ⟨?_, .inl ⟨rfl, rfl⟩⟩
      simp [work, phaseCost, phaseCostC, hc', colourCost]; omega
    · subst ht; simp at hb'; subst hb'
      refine ⟨?_, .inl ⟨rfl, rfl⟩⟩
      simp [work, phaseCost, phaseCostC, hc', colourCost, hstr]; omega
  · have hc' := hc
    simp only [control, controlAt_bulkWrite] at hc'
    unfold bulkWrite at ht
    split at ht
    · simp at ht
    · rename_i bs hm
      simp at ht
      refine tr _ _ (by simp [pendingEvent, hc, hm]) ht.symm ?_
      intro s' h1 _ h3 b'' h4
      split at h4
      · rename_i hsi
        rw [if_pos hsi] at h3; simp [h1] at h3
      · rename_i hsi
        rw [if_neg hsi]
        simp at h4; subst h4
        refine ⟨rfl, rfl, ?_⟩
        simp [work, phaseCost, phaseCostC, hc', colourCost]; omega
  · simp at ht
    refine tr _ _ (by simp [pendingEvent, hc]) ht.symm ?_
    intro s' h1 _ h3
    simp [h1] at h3

/-- How a step may end a WRITE. -/
theorem end_cases {s t : State} {b : Block} {o : Observation} (hi : Inv s) (hb : s.block = some b) (hq : b.seq.phase ≠ .idle)
    (hs : step s = .next t) (ho : t.observed = s.observed ++ [o]) :
    (o.result = .ok → ∃ b', t.block = some b' ∧ b'.seq.inFlight = 0)
    ∧ (∀ k e, o.result = .transportError k e → (∃ later, s.answers = .err e :: later) ∧ ∃ ev, pendingEvent s.params b = some ev) := by
  have hp := hi.params
  have hB := hi.block b hb
  have tr : ∀ e (next : State → State), pendingEvent s.params b = some e → t = transact e b s next →
     (∀ s' : State, s'.observed = s.observed → (next s').observed = s.observed ++ [o] → o.result = .ok ∧ ∃ b', (next s').block = some b' ∧ b'.seq.inFlight = 0) →
    (o.result = .ok → ∃ b', t.block = some b' ∧ b'.seq.inFlight = 0)
    ∧ (∀ k e, o.result = .transportError k e → (∃ later, s.answers = .err e :: later) ∧ ∃ ev, pendingEvent s.params b = some ev) := by
    intro e next he h hn
    unfold transact at h
    split at h
    · subst h; simp at ho
    · subst h; simp at ho
    · rename_i x later ha
      subst h; simp [raiseError] at ho; subst ho
      refine ⟨by simp, fun k e' h => ?_⟩
      simp at h
      exact ⟨⟨later, by rw [ha, h.2]⟩, e, he⟩
    · rename_i r later ha
      subst h
      have := hn { s with answers := later, trace := s.trace ++ [(e, okReply e r)] } rfl ho
      exact ⟨fun _ => this.2, fun k e h => by simp [this.1] at h⟩
  have oob : ∀ b s', s'.observed = s.observed → t = endWrite .outOfBounds b s' → (o.result = .ok → ∃ b', t.block = some b' ∧ b'.seq.inFlight = 0)
    ∧ (∀ k e, o.result = .transportError k e → (∃ later, s.answers = .err e :: later) ∧ ∃ ev, pendingEvent s.params b = some ev) := by
    intro b s' h1 h
    subst h; simp [h1] at ho; subst ho; simp
  rw [step_busy hp hb] at hs
  split at hs <;> rename_i hc
  · simp [control, controlAt_idle] at hc; contradiction
  · simp only [exec, execDummyByte, atControl_at hp hb hc, Host.Outcome.next.injEq] at hs
    refine tr _ _ (by simp [pendingEvent, hc]) hs.symm ?_
    intro s' h1 h2
    split at h2 <;> simp [h1] at h2
  · simp at hs
    unfold latchOne at hs
    split at hs
    · rename_i hstr
      unfold exchange at hs
      split at hs
      · rename_i h2
        exact tr _ _ (by simp [pendingEvent, hc, hstr, h2]) hs.symm fun s' h1 h2 => by simp [h1] at h2
      · rename_i h2
        exact tr _ _ (by simp [pendingEvent, hc, hstr, h2]) hs.symm fun s' h1 h2 => by simp [h1] at h2
    · rename_i hstr
      split at hs
      · unfold appendByte at hs
        split at hs
        · subst hs; simp at ho
        · exact oob _ _ rfl hs.symm
      · rename_i hph
        exact tr _ _ (by simp [pendingEvent, hc, hstr, hph]) hs.symm fun s' h1 h2 => by simp [h1] at h2
  · simp at hs
    unfold afterLatch at hs
    split at hs
    · subst hs; simp at ho
    · split at hs
      · subst hs; simp at ho
      · rename_i hstr
        subst hs; simp at ho; subst ho
        refine ⟨fun _ => ⟨_, rfl, ?_⟩, by simp⟩
        exact hB.phase.bulkInFlight (by simpa using hstr)
  · rcases pullColour_next hs with ⟨c, rest, -, -, rfl⟩ | ⟨-, rfl⟩
    · simp at ho
    · unfold coloursEnded at ho
      split at ho <;> simp at ho
  · simp at hs; subst hs; simp [pushSubBits] at ho
  · simp at hs
    unfold emitByte at hs
    split at hs
    · rename_i hstr
      unfold exchange at hs
      split at hs
      · rename_i h2
        exact tr _ _ (by simp [pendingEvent, hc, hstr, h2]) hs.symm fun s' h1 h2 => by simp [h1] at h2
      · rename_i h2
        exact tr _ _ (by simp [pendingEvent, hc, hstr, h2]) hs.symm fun s' h1 h2 => by simp [h1] at h2
    · unfold appendByte at hs
      split at hs
      · subst hs; simp at ho
      · exact oob _ _ rfl hs.symm
  · simp at hs
    unfold beginTransmit at hs
    split at hs <;> (subst hs; simp at ho)
  · have hc' := hc
    simp only [control, controlAt_bulkWrite] at hc'
    unfold bulkWrite at hs
    split at hs
    · simp at hs
    · rename_i bs hm
      simp at hs
      refine tr _ _ (by simp [pendingEvent, hc, hm]) hs.symm ?_
      intro s' h1 h2
      split at h2
      · rename_i hsi
        simp [h1] at h2
        rw [if_pos hsi]
        exact ⟨by simp [← h2], _, rfl, hB.phase.bulkInFlight hc'.2⟩
      · simp [h1] at h2
  · simp at hs
    refine tr _ _ (by simp [pendingEvent, hc]) hs.symm ?_
    intro s' h1 h2
    simp [h1] at h2
    exact ⟨by simp [← h2], _, rfl, rfl⟩

/-- What a step that does not end the WRITE does to the colours. -/
theorem stream_step {s t : State} {b b' : Block} (hi : Inv s) (hb : s.block = some b) (hq : b.seq.phase ≠ .idle)
    (hs : step s = .next t) (hb' : t.block = some b') (hobs : t.observed = s.observed) :
    (b'.seq.colours = b.seq.colours ∧ b'.seq.ended = b.seq.ended)
    ∨ (∃ r, nextColour b.cfg.device b.seq.colours = some (r, b'.seq.colours) ∧ b'.seq.ended = b.seq.ended)
    ∨ (nextColour b.cfg.device b.seq.colours = none ∧ b'.seq.colours = b.seq.colours) := by
  have hp := hi.params
  have K : ∀ q : Seq, (q.colours = b.seq.colours ∧ q.ended = b.seq.ended) → (∃ m, b' = ⟨b.cfg, q, m⟩) → (b'.seq.colours = b.seq.colours ∧ b'.seq.ended = b.seq.ended) := by
    rintro q h ⟨m, rfl⟩; exact h
  have tr : ∀ e (next : State → State), t = transact e b s next →
     (∀ s' : State, s'.observed = s.observed → (next s').observed = s.observed → (next s').block = some b' → (b'.seq.colours = b.seq.colours ∧ b'.seq.ended = b.seq.ended)) →
      (b'.seq.colours = b.seq.colours ∧ b'.seq.ended = b.seq.ended) := by
    intro e next h hn
    unfold transact at h
    split at h
    · subst h; rw [hb] at hb'; cases hb'; exact ⟨rfl, rfl⟩
    · subst h; rw [show s.block = some b' from hb'] at hb; cases hb; exact ⟨rfl, rfl⟩
    · subst h; simp [raiseError] at hobs
    · rename_i r later _
      subst h; exact hn { s with answers := later, trace := s.trace ++ [(e, okReply e r)] } rfl hobs hb'
  have ex : ∀ v adv, (∀ q, (adv q).colours = q.colours ∧ (adv q).ended = q.ended) → t = exchange v b adv s → (b'.seq.colours = b.seq.colours ∧ b'.seq.ended = b.seq.ended) := by
    intro v adv ha h
    unfold exchange at h
    split at h
    · refine tr _ _ h fun s' _ _ h1 => ?_
      simp at h1; subst h1; exact ha _
    · refine tr _ _ h fun s' _ _ h1 => ?_
      simp at h1; subst h1; exact ⟨rfl, rfl⟩
  have ap : ∀ n v adv, (∀ q, (adv q).colours = q.colours ∧ (adv q).ended = q.ended) → t = appendByte n v b adv s → (b'.seq.colours = b.seq.colours ∧ b'.seq.ended = b.seq.ended) := by
    intro n v adv ha h
    unfold appendByte at h
    split at h
    · subst h; simp at hb'; subst hb'; exact ha _
    · subst h; simp [raiseError] at hobs
  rw [step_busy hp hb] at hs
  split at hs <;> rename_i hc
  · simp [control, controlAt_idle] at hc; contradiction
  · simp only [exec, execDummyByte, atControl_at hp hb hc, Host.Outcome.next.injEq] at hs
    left
    refine tr _ _ hs.symm fun s' _ _ h1 => ?_
    split at h1 <;> (simp at h1; subst h1; exact ⟨rfl, rfl⟩)
  · simp at hs
    left
    unfold latchOne at hs
    split at hs
    · exact ex _ advanceLatch (fun _ => ⟨rfl, rfl⟩) hs.symm
    · split at hs
      · exact ap _ _ advanceLatch (fun _ => ⟨rfl, rfl⟩) hs.symm
      · refine tr _ _ hs.symm fun s' _ _ h1 => ?_
        simp at h1; subst h1; exact ⟨rfl, rfl⟩
  · simp at hs
    left
    unfold afterLatch at hs
    split at hs
    · subst hs; simp at hb'; subst hb'; exact ⟨rfl, rfl⟩
    · split at hs
      · subst hs; simp at hb'; subst hb'; exact ⟨rfl, rfl⟩
      · subst hs; simp at hobs
  · right
    rcases pullColour_next hs with ⟨c, rest, hn, -, rfl⟩ | ⟨hn, rfl⟩
    · left
      simp at hb'; subst hb'
      exact ⟨c, hn, rfl⟩
    · right
      refine ⟨hn, ?_⟩
      unfold coloursEnded at hb'
      split at hb' <;> (simp at hb'; subst hb'; rfl)
  · simp at hs; subst hs; simp [pushSubBits] at hb'; subst hb'; exact .inl ⟨rfl, rfl⟩
  · simp at hs
    left
    unfold emitByte at hs
    split at hs
    · exact ex _ _ (fun q => ⟨(advancePosition_keeps _ q).2.2.2.1, (advancePosition_keeps _ q).2.2.2.2.2⟩) hs.symm
    · exact ap _ _ _ (fun q => ⟨(advancePosition_keeps _ q).2.2.2.1, (advancePosition_keeps _ q).2.2.2.2.2⟩) hs.symm
  · simp at hs
    left
    unfold beginTransmit at hs
    split at hs <;> (subst hs; simp at hb'; subst hb'; exact ⟨rfl, rfl⟩)
  · unfold bulkWrite at hs
    left
    split at hs
    · simp at hs
    · simp at hs
      refine tr _ _ hs.symm fun s' h0 h1 h2 => ?_
      split at h1 <;> rename_i hsi
      · simp [h0] at h1
      · rw [if_neg hsi] at h2
        simp at h2; subst h2; exact ⟨rfl, rfl⟩
  · simp at hs
    left
    refine tr _ _ hs.symm fun s' h0 h1 _ => ?_
    simp [h0] at h1

end Sys2Proof.Machine
end

