-- ==== Sys2Proof/Tests/Slice0.lean ====
section
/-! SUPPORT. Tests. An expected value comes from spec/95_test_vectors.md or from the rule its docstring names; the
`witness_` theorems show a state and operands that meet the hypotheses of the obligation they name, clause by clause. -/

namespace Sys2Proof.Tests

open Sys2Proof.Machine

/-! ### Small states -/

/-- The default block: fixed table, three channels, streaming. -/
def cfgStream : BlockConfig := ⟨.fixed4x, .threeChannel, .grb, false, .streaming, .byteAtATime⟩

/-- A Prerendered block. -/
def cfgPre (capacity : Word) : BlockConfig :=
  ⟨.fixed4x, .threeChannel, .grb, false, .prerendered capacity, .byteAtATime⟩

/-- The timed block of program P2 (spec/95_test_vectors.md). -/
def cfgTimed : BlockConfig :=
  ⟨.timed 3200000#32 ⟨1, 2, 5, 120⟩, .threeChannel, .grb, false, .prerendered 15#32, .byteAtATime⟩

/-- A block right after its construction. -/
def fresh (cfg : BlockConfig) : Block := ⟨cfg, constructedSeq, []⟩

/-- The machine with a block and some answers of the transport. -/
def holding (b : Block) (answers : List Answer) : State :=
  { State.reset with block := some b, answers := answers }

/-- The machine with a fresh block. -/
def ready (cfg : BlockConfig) : State := holding (fresh cfg) []

/-- The machine at the start of a WRITE. -/
def started (cfg : BlockConfig) (colours : List Colour) : State :=
  holding (startBlock Params.reference (fresh cfg) (.listed colours)) []

/-- A block inside a WRITE, in a phase. -/
def inside (cfg : BlockConfig) (phase : Phase) (inFlight latchLeft : Nat) (ended : Bool) : Block :=
  { fresh cfg with seq :=
    { constructedSeq with phase := phase, inFlight := inFlight, latchLeft := latchLeft, ended := ended } }

/-- A block inside a WRITE that holds a colour, with an encoder index and an accumulator. -/
def withColour (cfg : BlockConfig) (phase : Phase) (inFlight enc : Nat) (acc : List Bool) : Block :=
  { fresh cfg with seq :=
    { constructedSeq with
      phase := phase, inFlight := inFlight, enc := enc, acc := acc, colour := some ⟨0x11#8, 0x22#8, 0x33#8, 0x00#8⟩ } }

/-- A block inside a WRITE that is about to pull one of these colours. -/
def pulling (cfg : BlockConfig) (phase : Phase) (inFlight : Nat) (colours : List Colour) : Block :=
  { fresh cfg with seq :=
    { constructedSeq with phase := phase, inFlight := inFlight, colours := .listed colours } }

/-- A four-channel colour. -/
def white : Colour := ⟨0x11#8, 0x22#8, 0x33#8, 0x44#8⟩

/-- Reference parameters with a latch of one byte, for small frames. -/
def shortLatch : Params := { Params.reference with fixedResetBytes := 1 }

/-- The default block under `shortLatch`, with the answers of the transport. -/
def readyShort (cfg : BlockConfig) (answers : List Answer) : State :=
  { holding (fresh cfg) answers with params := shortLatch }

/-- The next state, if there is one. -/
def nextOf (o : Out) : Option State :=
  match o with
  | .next s => some s
  | .fault _ => none
  | .refused _ => none

/-- The refusal, if there is one. -/
def refusalOf (o : Out) : Option Refusal :=
  match o with
  | .next _ => none
  | .fault _ => none
  | .refused r => some r

/-- The block of the next state. -/
def blockOf (o : Out) : Option Block := (nextOf o).bind State.block

/-- The colour (0x11, 0x22, 0x33). -/
def c123 : Colour := ⟨0x11#8, 0x22#8, 0x33#8, 0x00#8⟩

theorem reference_valid : paramsValid Params.reference = true := by decide

theorem shortLatch_valid : paramsValid shortLatch = true := by decide

theorem ready_inv (cfg : BlockConfig) (h : ConfigInv Params.reference cfg) : Inv (ready cfg) :=
  ⟨reference_valid, fun b hb => by
    obtain rfl : fresh cfg = b := by simpa [ready, holding] using hb
    exact constructed_inv (enc := cfg.encoder)
      (f := ⟨cfg.device, cfg.order, cfg.preLatch, cfg.strategy, cfg.resetMode⟩) h, fun _ => rfl⟩

theorem readyShort_inv (cfg : BlockConfig) (answers : List Answer) (h : ConfigInv shortLatch cfg) :
    Inv (readyShort cfg answers) :=
  ⟨shortLatch_valid, fun b hb => by
    obtain rfl : fresh cfg = b := by simpa [readyShort, holding] using hb
    exact constructed_inv (enc := cfg.encoder)
      (f := ⟨cfg.device, cfg.order, cfg.preLatch, cfg.strategy, cfg.resetMode⟩) h, fun _ => rfl⟩

theorem started_inv (cfg : BlockConfig) (cs : List Colour) (h : ConfigInv Params.reference cfg)
    (hf : sourceFits cfg.device (.listed cs) = true) :
    Inv (started cfg cs) :=
  ⟨reference_valid, fun b hb => by
    obtain rfl : startBlock Params.reference (fresh cfg) (.listed cs) = b := by simpa [started, holding] using hb
    exact (start_inv ((ready_inv cfg h).block _ rfl) hf).1, fun _ => rfl⟩

/-! ### WellFormed refuses an ill-formed term -/

/-- A host stream has no words (R77). -/
theorem test_wf_stream : (Instr.write (.stream 0 0)).WellFormed = false := by decide

/-- The count word has 32 bits (R72). -/
theorem test_wf_blank : (Instr.blank 4294967296).WellFormed = false := by decide

/-- The count word has 32 bits (R72). -/
theorem test_wf_write (cs : List Colour) (h : cs.length = 4294967296) :
    (Instr.write (.listed cs)).WellFormed = false := by
  simp [Instr.WellFormed, ColourSource.spelled, countFits, h]

/-! ### Decoding (spec/95_test_vectors.md section 2.7) -/

theorem test_decode_new_fixed :
    decode [0x0000B101#32, 0x00000128#32] =
      .ok (.newFixed ⟨.fourChannelWithWhite, .grb, true, .prerendered 296#32, .singleTransaction⟩, []) := by decide

theorem test_decode_new_fixed_order :
    decode [0x00004201#32] =
      .ok (.newFixed ⟨.threeChannel, .rgb, false, .buffered, .byteAtATime⟩, []) := by decide

theorem test_decode_new_timed :
    decode [0x00002002#32, 0x0030D400#32, 0x0000000F#32] =
      .ok (.newTimed ⟨.threeChannel, .grb, false, .prerendered 15#32, .byteAtATime⟩ 3200000#32, []) := by decide

theorem test_decode_write :
    decode [0x00000003#32, 0x00000001#32, 0x11223300#32] = .ok (.write (.listed [c123]), []) := by decide

/-- NEW, LATCH and BLANK are words of NEW_FIXED and WRITE (R88). -/
theorem test_decode_pseudo :
    decode [0x00000001#32] = .ok (.newFixed ⟨.threeChannel, .grb, false, .streaming, .byteAtATime⟩, [])
    ∧ decode [0x00000003#32, 0x00000000#32] = .ok (.write (.listed []), [])
    ∧ decode [0x00000003#32, 0x00000001#32, 0x00000000#32] = .ok (.write (.listed [⟨0#8, 0#8, 0#8, 0#8⟩]), []) := by
  decide

/-- The order codes in bits 11:9 (R73). -/
theorem test_decode_order :
    [0x001#32, 0x201#32, 0x401#32, 0x601#32, 0x801#32, 0xA01#32, 0xC01#32, 0xE01#32].map decodeOrder =
      [some .grb, some .rgb, some .rbg, some .gbr, some .brg, some .bgr, none, none] := by decide

theorem test_decode_refused :
    decode [0x00000004#32] = .error .reservedOpcode ∧ decode [0x00000C01#32] = .error .reservedOrder
    ∧ decode [0x00006001#32] = .error .reservedStrategy ∧ decode [0x00010001#32] = .error .reservedBits
    ∧ decode [0x00000103#32] = .error .reservedBits ∧ decode [0x00002001#32] = .error .operandMissing := by decide

/-- The codes of the LUT2 and BIT1 rows (R81, R83), and the table words of the commands. -/
theorem test_table_words :
    [0#2, 1#2, 2#2, 3#2].map lutInstr = [.lut00, .lut01, .lut10, .lut11]
    ∧ [false, true].map timedBitInstr = [.timedBit0, .timedBit1]
    ∧ decodeTableWord 8 2 = some .lut10
    ∧ decodeTableWord 32 1 = some (.newFixed ⟨.threeChannel, .grb, false, .streaming, .byteAtATime⟩)
    ∧ decodeTableWord 32 2 = some (.newTimed ⟨.threeChannel, .grb, false, .streaming, .byteAtATime⟩ 0#32)
    ∧ decodeTableWord 32 3 = some (.write (.listed [])) := by decide

/-- After power-on the placed NEW_FIXED runs as the first instruction; so does a table lookup. -/
theorem test_fetch_word :
    (blockOf (step (State.reset.withFetchWord 32 1))).map Block.cfg = some cfgStream
    ∧ (blockOf (step (State.reset.withFetchWord 8 2))).map (fun b => pack b.seq.acc) = some [0xE8#8] := by decide

/-! ### Assembly (R87 to R89) -/

theorem test_assemble :
    assemble .threeChannel "NEW.TIMED clk=3200000 strat=prerender cap=15".toList =
      some (.newTimed ⟨.threeChannel, .grb, false, .prerendered 15#32, .byteAtATime⟩ 3200000#32)
    ∧ assemble .threeChannel "WRITE (0x11,0x22,0x33), (0xFF,0x00,0x80), (0,0,0) ; P1".toList =
      some (.write (.listed [c123, ⟨0xFF#8, 0x00#8, 0x80#8, 0#8⟩, ⟨0#8, 0#8, 0#8, 0#8⟩]))
    ∧ assemble .fourChannelWithWhite "WRITE (1,2,3)".toList = none := by decide

/-- The count word has 32 bits (R72): 2^32 does not wrap to a count of 0 (R10). -/
theorem test_count_range :
    assemble .threeChannel "BLANK 4294967296".toList = none
    ∧ decode (encode (.blank 4294967296)) = .error .operandMissing := by decide

/-! ### TIMING_DERIVE (spec/95_test_vectors.md section 2.1) -/

theorem test_timing :
    [2000000, 2000001, 2400000, 3000000, 3439999, 3440000, 3500000, 8000000, 14316557, 22399999].map
        (timingDerive Params.reference) =
      [.ok ⟨1, 2, 3, 75⟩, .ok ⟨1, 2, 3, 76⟩, .ok ⟨1, 2, 4, 90⟩, .ok ⟨1, 2, 4, 113⟩, .ok ⟨1, 2, 5, 129⟩,
        .ok ⟨1, 3, 5, 129⟩, .ok ⟨1, 3, 5, 132⟩, .ok ⟨2, 5, 11, 300⟩, .ok ⟨4, 9, 18, 537⟩, .ok ⟨6, 14, 28, 840⟩] := by
  decide

theorem test_timing_refused :
    [0, 1999999, 22400000, 4294967295].map (timingDerive Params.reference) =
      [.error .belowMinimum, .error .belowMinimum, .error .tooManySubBits, .error .tooManySubBits] := by decide

/-- Other thresholds: the adjustment of R105 (L1.10), and the guard of R107. -/
theorem test_timing_thresholds :
    timingDerive { Params.reference with bitPeriodThreshold := 1720000 } 4000000 = .ok ⟨1, 3, 4, 150⟩
    ∧ timingDerive { Params.reference with zeroHighThreshold := 1000000, oneHighThreshold := 3500000 } 3000000 =
        .error .invariant := by decide

/-! ### The encoders and the orders (spec/95_test_vectors.md sections 2.2 to 2.4) -/

theorem test_enc_fixed :
    [0x1B#8, 0xE4#8, 0xA5#8, 0x80#8, 0x01#8].map (encFixed Params.reference.lut) =
      [[0x88#8, 0x8E#8, 0xE8#8, 0xEE#8], [0xEE#8, 0xE8#8, 0x8E#8, 0x88#8], [0xE8#8, 0xE8#8, 0x8E#8, 0x8E#8],
        [0xE8#8, 0x88#8, 0x88#8, 0x88#8], [0x88#8, 0x88#8, 0x88#8, 0x8E#8]] := by decide

theorem test_enc_timed :
    [0xFF#8, 0x80#8, 0x01#8, 0xA5#8].map (encTimed ⟨1, 2, 5, 120⟩) =
      [[0xC6#8, 0x31#8, 0x8C#8, 0x63#8, 0x18#8], [0xC4#8, 0x21#8, 0x08#8, 0x42#8, 0x10#8],
        [0x84#8, 0x21#8, 0x08#8, 0x42#8, 0x18#8], [0xC4#8, 0x31#8, 0x08#8, 0x62#8, 0x18#8]]
    ∧ encTimed ⟨1, 3, 6, 150⟩ 0x55#8 = [0x83#8, 0x88#8, 0x38#8, 0x83#8, 0x88#8, 0x38#8] := by decide

theorem test_orders :
    [PixelOrder.grb, .rgb, .rbg, .gbr, .brg, .bgr].map (fun o => order3 o c123) =
      [[0x22#8, 0x11#8, 0x33#8], [0x11#8, 0x22#8, 0x33#8], [0x11#8, 0x33#8, 0x22#8], [0x22#8, 0x33#8, 0x11#8],
        [0x33#8, 0x11#8, 0x22#8], [0x33#8, 0x22#8, 0x11#8]]
    ∧ order4 ⟨1#8, 2#8, 3#8, 4#8⟩ = [2#8, 1#8, 3#8, 4#8] := by decide

/-- The payloads of F.3 and of program P3 (sections 2.6 and 3). -/
theorem test_payload :
    framePayload Params.reference (cfgPre 12#32) [c123] =
      [0x88#8, 0xE8#8, 0x88#8, 0xE8#8, 0x88#8, 0x8E#8, 0x88#8, 0x8E#8, 0x88#8, 0xEE#8, 0x88#8, 0xEE#8]
    ∧ framePayload Params.reference { cfgPre 296#32 with device := .fourChannelWithWhite }
        [⟨1#8, 2#8, 3#8, 4#8⟩] =
      [0x88#8, 0x88#8, 0x88#8, 0xE8#8, 0x88#8, 0x88#8, 0x88#8, 0x8E#8, 0x88#8, 0x88#8, 0x88#8, 0xEE#8,
        0x88#8, 0x88#8, 0x8E#8, 0x88#8] := by decide

/-- MINCAP of L1.6, F.9 and program P3 (R176). -/
theorem test_mincap :
    minCapacity Params.reference (cfgPre 0#32) 1 = 12
    ∧ minCapacity Params.reference { cfgPre 0#32 with resetMode := .singleTransaction } 1 = 152
    ∧ minCapacity Params.reference { cfgPre 0#32 with resetMode := .singleTransaction, preLatch := true } 1 = 292
    ∧ minCapacity Params.reference { cfgPre 0#32 with
        resetMode := .singleTransaction, preLatch := true, device := .fourChannelWithWhite } 1 = 296 := by decide

/-! ### One step of each instruction -/

/-- Program P3's block (R113). -/
theorem test_newFixed :
    (blockOf (exec (.newFixed ⟨.fourChannelWithWhite, .grb, true, .prerendered 296#32, .singleTransaction⟩)
      State.reset)).map Block.cfg =
      some ⟨.fixed4x, .fourChannelWithWhite, .grb, true, .prerendered 296#32, .singleTransaction⟩ := by decide

/-- Program P2's block (R112). -/
theorem test_newTimed :
    (blockOf (exec (.newTimed ⟨.threeChannel, .grb, false, .prerendered 15#32, .byteAtATime⟩ 3200000#32)
      State.reset)).map Block.cfg = some cfgTimed := by decide

/-- Program P4: a clock of 1 900 000 Hz leaves no block, with the result word 0x00000001. -/
theorem test_newTimed_refused :
    (nextOf (exec (.newTimed ⟨.threeChannel, .grb, false, .streaming, .byteAtATime⟩ 1900000#32)
      (ready cfgStream))).map (fun s => (s.block, s.observed.map (fun o => resultWord o.result))) =
      some (none, [0x00000001#32]) := by decide

theorem test_write_phases :
    (blockOf (exec (.write (.listed [c123])) (ready cfgStream))).map (fun b => b.seq.phase) = some .payload
    ∧ (blockOf (exec (.write (.listed [c123])) (ready (cfgPre 12#32)))).map (fun b => b.seq.phase) =
        some .encoding := by decide

/-- w ≠ 0 on a three-channel block (section 2.7). -/
theorem test_write_mismatch :
    refusalOf (exec (.write (.listed [⟨0x11#8, 0x22#8, 0x33#8, 0x01#8⟩])) (ready cfgStream)) =
      some .colourMismatch := by decide

/-- A colour of the other kind is refused where it is drawn, and a four-channel block takes it whole (R154). -/
theorem test_pull_mismatch :
    refusalOf (step (holding (pulling cfgStream .payload 1 [white]) [])) = some .colourMismatch
    ∧ (blockOf (step (holding (pulling { cfgStream with device := .fourChannelWithWhite } .payload 1 [white]) []))).map
        (fun b => b.seq.colour) = some (some white) := by decide

/-- A record must match the device, in both directions (R154); a word's record is of the device's kind but for a `w` that
the device lacks (R76). -/
theorem test_record :
    [DeviceKind.threeChannel, .fourChannelWithWhite].map (fun dev =>
        [ColourRecord.three 1#8 2#8 3#8, .four 1#8 2#8 3#8 0#8].map (recordFits dev)) =
      [[true, false], [false, true]]
    ∧ wordRecord .threeChannel c123 = .three 0x11#8 0x22#8 0x33#8
    ∧ wordRecord .fourChannelWithWhite c123 = .four 0x11#8 0x22#8 0x33#8 0x00#8
    ∧ wordRecord .threeChannel white = .four 0x11#8 0x22#8 0x33#8 0x44#8 := by decide

theorem test_new : (blockOf (exec .new State.reset)).map Block.cfg = some cfgStream := by decide

theorem test_latch :
    (blockOf (exec .latch (ready cfgStream))).map (fun b => b.seq.colours) = some (.listed []) := by decide

theorem test_blank :
    (blockOf (exec (.blank 2) (ready cfgStream))).map (fun b => b.seq.colours) =
      some (.listed [⟨0#8, 0#8, 0#8, 0#8⟩, ⟨0#8, 0#8, 0#8, 0#8⟩]) := by decide

/-- Each lookup's sub-bits pack to its table word (R83). -/
theorem test_luts :
    [Instr.lut00, .lut01, .lut10, .lut11].map (fun i =>
      (blockOf (exec i (holding (withColour cfgStream .payload 1 0 []) []))).map (fun b => pack b.seq.acc)) =
      [some [0x88#8], some [0x8E#8], some [0xE8#8], some [0xEE#8]] := by decide

/-- At TP (1, 2, 5): 10000 and 11000 (R81, R123). -/
theorem test_timedBits :
    [Instr.timedBit0, .timedBit1].map (fun i =>
      (blockOf (exec i (holding (withColour cfgTimed .encoding 0 0 []) []))).map (fun b => b.seq.acc)) =
      [some [true, false, false, false, false], some [true, true, false, false, false]] := by decide

/-- A latch byte of a streaming post-latch is sent first (R167, R170). -/
theorem test_latchByte_send :
    (nextOf (exec .latchByte (holding (inside cfgStream .postLatch 1 2 true) [.ok 0#8]))).map
      (fun s => (s.trace, s.block.map (fun b => (b.seq.inFlight, b.seq.latchLeft)))) =
      some ([(.send 0x00#8, .ok)], some (2, 2)) := by decide

/-- A SingleTransaction latch that does not fit appends nothing (F.12). -/
theorem test_latchByte_full :
    (nextOf (exec .latchByte (holding (inside { cfgPre 139#32 with resetMode := .singleTransaction }
      .encoding 0 140 true) []))).map
      (fun s => (s.trace, s.observed.map (fun o => (resultWord o.result, o.buf)))) =
      some ([], [(0x00000002#32, [])]) := by decide

/-- S.4: the dummy byte's Send answered Err; in_flight stays 0. -/
theorem test_dummyByte_err :
    (nextOf (exec .dummyByte (holding (inside cfgStream .payload 0 0 false) [.err 9]))).map
      (fun s => (s.observed.map (fun o => (resultWord o.result, o.trace)), s.block.map (fun b => b.seq.inFlight))) =
      some ([(0x00000003#32, [(.send 0x00#8, .err 9)])], some 0) := by decide

/-- The dummy byte is sent, and one byte is in flight (R169). -/
theorem test_dummyByte_ok :
    (nextOf (exec .dummyByte (holding (inside cfgStream .payload 0 0 false) [.ok 0#8]))).map
      (fun s => (s.trace, s.block.map (fun b => (b.seq.phase, b.seq.inFlight)))) =
      some ([(.send 0x00#8, .ok)], some (.payload, 1)) := by decide

/-- S.6: the Read of an exchange answered Err; in_flight stays 2, the result word is 0x00000103. -/
theorem test_read_err :
    (nextOf (step (holding (withColour cfgStream .payload 2 4 (List.replicate 32 true)) [.err 9]))).map
      (fun s => (s.observed.map (fun o => resultWord o.result), s.block.map (fun b => (b.seq.phase, b.seq.inFlight)))) =
      some ([0x00000103#32], some (.idle, 2)) := by decide

/-- F.6: the empty payload is written all the same, with cursor 0 (R178, R183). -/
theorem test_empty_write :
    (nextOf (step (holding (inside (cfgPre 0#32) .payload 0 0 true) [.ok 0#8]))).map
      (fun s => (s.trace, s.block.map (fun b => (b.seq.phase, b.seq.latchLeft)))) =
      some ([(.write [], .ok)], some (.postLatch, 140)) := by decide

/-! ### Witnesses: the hypotheses of each obligation can be met -/

/-- A WRITE in progress. -/
def busyState : State := started cfgStream [c123]

/-- A table word, sub-bit by sub-bit, four times: an accumulator of one channel byte under the fixed table. -/
def fullAcc : List Bool := (List.replicate 4 [true, false, false, false, true, false, false, false]).flatten

/-- A ready machine whose host issues these words. -/
def issuing (cfg : BlockConfig) (words : List Word) : State := { ready cfg with cmds := words }

theorem witness_DecodeOfEncode :
    (Instr.newTimed ⟨.threeChannel, .bgr, true, .prerendered 15#32, .singleTransaction⟩ 4294967295#32).isCommand
    ∧ (Instr.newTimed ⟨.threeChannel, .bgr, true, .prerendered 15#32, .singleTransaction⟩ 4294967295#32).WellFormed
    ∧ (Instr.write (.listed [c123])).isCommand ∧ (Instr.write (.listed [c123])).WellFormed
    ∧ (Instr.blank 4294967295).isCommand ∧ (Instr.blank 4294967295).WellFormed := by decide

theorem witness_EncodeOfDecode :
    decode [0x00000003#32, 0x00000001#32, 0x11223300#32, 0x00000001#32] =
      .ok (.write (.listed [c123]), [0x00000001#32]) := by decide

/-- One word list for each clause; opcodes 0 and 4, and order 6, are the neighbours of what decodes. -/
theorem witness_ReservedEncodingsRefused :
    (∀ words, paramsValid (issuing cfgStream words).params = true ∧ isBusy (issuing cfgStream words) = false
      ∧ (issuing cfgStream words).cmds = words ∧ (issuing cfgStream words).block = some (fresh cfgStream))
    ∧ ((0x00000000#32).extractLsb' 0 8).toNat = 0 ∧ ((0x00000004#32).extractLsb' 0 8).toNat = 4
    ∧ ((0x00000C01#32).extractLsb' 9 3).toNat = 6 ∧ ((0x00006002#32).extractLsb' 13 2).toNat = 3
    ∧ (0x00010001#32).extractLsb' 16 16 ≠ 0#16 ∧ (0x00000103#32).extractLsb' 8 24 ≠ 0#24
    ∧ ((0x00002001#32).extractLsb' 13 2).toNat = 1 ∧ ([] : List Word).length < 1 ∧ [0x0030D400#32].length < 2
    ∧ ([] : List Word).length < (1#32).toNat
    ∧ ((1#32).toNat ≤ [0x11223301#32].length ∧ (0x11223301#32).extractLsb' 0 8 ≠ 0#8
        ∧ (fresh cfgStream).cfg.device = .threeChannel) :=
  ⟨fun _ => ⟨reference_valid, rfl, rfl, rfl⟩, by decide⟩

theorem witness_CommandLengthFixed :
    decode [0x00002001#32, 0x0000000F#32, 0x00000007#32] =
      .ok (.newFixed ⟨.threeChannel, .grb, false, .prerendered 15#32, .byteAtATime⟩, [0x00000007#32])
    ∧ 0x00009100#32 &&& 0xFFFF6EFF#32 = 0#32 ∧ ((0x00002001#32).extractLsb' 0 8).toNat ≠ 3
    ∧ decode [0x00000002#32, 0x0030D400#32] =
      .ok (.newTimed ⟨.threeChannel, .grb, false, .streaming, .byteAtATime⟩ 3200000#32, [])
    ∧ decode [0x00000003#32, 0x00000000#32] = .ok (.write (.listed []), []) := by decide

theorem witness_OmittedFieldsDefault :
    optionFields { noOptions with strat := some "stream".toList } =
      some ⟨.threeChannel, .grb, false, .streaming, .byteAtATime⟩
    ∧ noOptions.strat = none
    ∧ { noOptions with strat := some "prerender".toList }.cap = none := by decide

/-- The clocks at the bounds of each clause, and the thresholds of 95_test_vectors.md section 2.1 for the guard. -/
theorem witness_NewTimedConstructs :
    paramsValid (ready cfgStream).params = true ∧ isBusy (ready cfgStream) = false ∧ isBusy busyState = true
    ∧ (1999999#32).toNat < Params.reference.minClockHz
    ∧ (Params.reference.minClockHz ≤ (22400000#32).toNat ∧ Params.reference.maxTotal < (22400000#32).toNat / 800000 + 1)
    ∧ (paramsValid { Params.reference with zeroHighThreshold := 1000000, oneHighThreshold := 3500000 } = true
        ∧ ¬(max 1 ((3000000#32).toNat / 1000000) ≤ (3000000#32).toNat / 3500000 + 1))
    ∧ (Params.reference.minClockHz ≤ (22399999#32).toNat ∧ (22399999#32).toNat / 800000 + 1 ≤ Params.reference.maxTotal
        ∧ max 1 ((22399999#32).toNat / 3500000) ≤ (22399999#32).toNat / 1720000 + 1
        ∧ (22399999#32).toNat / 1720000 + 1 < (22399999#32).toNat / 800000 + 1) := by decide

theorem witness_ReferenceClocks :
    timingDerive Params.reference (2000000#32).toNat = .ok ⟨1, 2, 3, 75⟩
    ∧ timingDerive Params.reference (22399999#32).toNat = .ok ⟨6, 14, 28, 840⟩ := by decide

theorem witness_TimingBounds :
    paramsValid Params.reference = true ∧ timingDerive Params.reference 3500000 = .ok ⟨1, 3, 5, 132⟩
    ∧ Params.reference.zeroHighThreshold ≤ 3500000
    ∧ paramsValid { Params.reference with bitPeriodThreshold := 1720000 } = true
    ∧ timingDerive { Params.reference with bitPeriodThreshold := 1720000 } 4000000 = .ok ⟨1, 3, 4, 150⟩ := by decide

theorem witness_LatchDuration :
    timingDerive Params.reference (3200000#32).toNat = .ok ⟨1, 2, 5, 120⟩
    ∧ cfgTimed.encoder = .timed 3200000#32 ⟨1, 2, 5, 120⟩ ∧ cfgStream.encoder = .fixed4x
    ∧ 300 * (3200000#32).toNat ≤ 8 * 120 * 1000000 := by decide

theorem witness_StepKeepsDerivedTiming :
    (ready cfgTimed).block = some (fresh cfgTimed)
    ∧ timingDerive (ready cfgTimed).params (3200000#32).toNat = .ok ⟨1, 2, 5, 120⟩
    ∧ nextOf (step (ready cfgTimed)) = some (ready cfgTimed) := by decide

theorem witness_NewFixedConstructs :
    paramsValid State.reset.params = true ∧ isBusy State.reset = false ∧ isBusy busyState = true := by decide

theorem witness_BusyRefusesCommands :
    paramsValid busyState.params = true ∧ isBusy busyState = true ∧ Instr.new.isCommand = true
    ∧ nextOf (step busyState) = some busyState := by decide

theorem witness_UnconstructedBlock :
    paramsValid State.reset.params = true ∧ State.reset.block = none ∧ isBusy State.reset = false
    ∧ isBusy (ready cfgStream) = false
    ∧ timingDerive State.reset.params (1999999#32).toNat = .error .belowMinimum := by decide

theorem witness_BadParametersFault :
    paramsValid { State.reset with params := { Params.reference with maxTotal := 1 } }.params = false
    ∧ { Params.reference with zeroHighThreshold := 0 }.zeroHighThreshold = 0 := by decide

theorem witness_ColourMismatchRefused :
    paramsValid (ready cfgStream).params = true ∧ (ready cfgStream).block = some (fresh cfgStream)
    ∧ (fresh cfgStream).seq.phase = .idle
    ∧ control (pulling cfgStream .payload 1 [c123]) = .pull
    ∧ (pulling cfgStream .payload 1 [white]).seq.colours = .listed [white] ∧ white.w ≠ 0x00#8
    ∧ control (startBlock Params.reference (fresh (cfgPre 12#32)) (.stream 0 0)) = .pull
    ∧ (startBlock Params.reference (fresh (cfgPre 12#32)) (.stream 0 0)).seq.colours = .stream 0 0 := by decide

/-- Both encoders, about to encode, and a block inside a WRITE that is elsewhere. -/
theorem witness_TableLookups :
    paramsValid (holding (withColour cfgStream .payload 1 0 []) []).params = true
    ∧ control (withColour cfgStream .payload 1 0 []) = .encode ∧ cfgStream.encoder = .fixed4x
    ∧ control (withColour cfgTimed .encoding 0 0 []) = .encode ∧ cfgTimed.encoder ≠ .fixed4x
    ∧ control (inside cfgStream .payload 1 0 false) ≠ .encode ∧ control (fresh cfgStream) ≠ .encode := by decide

theorem witness_TimedBits :
    control (withColour cfgTimed .encoding 0 0 []) = .encode
    ∧ cfgTimed.encoder = .timed 3200000#32 ⟨1, 2, 5, 120⟩
    ∧ control (withColour cfgStream .payload 1 0 []) = .encode ∧ cfgStream.encoder = .fixed4x
    ∧ control (inside cfgTimed .encoding 0 0 false) ≠ .encode ∧ control (fresh cfgTimed) ≠ .encode := by decide

theorem witness_InternalRowsNotIssuable :
    Instr.lut00.isCommand = false ∧ Instr.dummyByte.isCommand = false ∧ isBusy State.reset = false
    ∧ State.reset.block = none ∧ isBusy (ready cfgStream) = false
    ∧ (ready cfgStream).block = some (fresh cfgStream) := by decide

/-- The block that has just pulled its first colour. -/
theorem pulled_inv : BlockInv Params.reference (withColour (cfgPre 12#32) .encoding 0 0 []) := by
  have h := (start_inv ((ready_inv (cfgPre 12#32) trivial).block _ rfl)
    (cs := .listed [c123]) (by decide)).1
  exact pull_inv (r := .three 0x11#8 0x22#8 0x33#8) (rest := .listed []) h (by decide) (by decide) (by decide)

/-- The block that has encoded its first channel byte, with the capacity `n`. -/
theorem encoded_inv (n : Word) : BlockInv Params.reference (withColour (cfgPre n) .encoding 0 4 fullAcc) where
  config := trivial
  idle h := by simp [withColour] at h
  buffer := ⟨List.Pairwise.nil, fun _ _ => Nat.zero_le _, fun _ _ _ h => by simp [withColour, fresh] at h,
    fun _ h => by simp [withColour, constructedSeq] at h, fun _ _ h => by simp [withColour, fresh] at h,
    fun _ => ⟨rfl, rfl⟩⟩
  position := ⟨show 0 < 4 ∧ 0 < 3 ∧ 4 ≤ 4 by decide, Nat.zero_le _, by simp [withColour],
    show 32 + 8 * 0 = 4 * 8 from rfl, by simp [withColour, constructedSeq], by simp [withColour, constructedSeq]⟩
  phase := ⟨Nat.zero_le _, fun _ => rfl, show Phase.encoding ≠ .drain by decide, by simp [withColour],
    by simp [withColour], by simp [withColour], by simp [withColour, constructedSeq],
    by simp [withColour, isStreaming, cfgPre, fresh], by simp [withColour]⟩
  colours := ⟨fun c h => by cases h; rfl, rfl⟩

/-- The block about to append its SingleTransaction latch. -/
theorem rendering_inv (n : Word) :
    BlockInv Params.reference
      (inside { cfgPre n with resetMode := .singleTransaction } .encoding 0 140 true) where
  config := trivial
  idle h := by simp [inside] at h
  buffer := ⟨List.Pairwise.nil, fun _ _ => Nat.zero_le _, fun _ _ _ h => by simp [inside, fresh] at h,
    fun _ h => by simp [inside, constructedSeq] at h, fun _ _ h => by simp [inside, fresh] at h,
    fun _ => ⟨rfl, rfl⟩⟩
  position := ⟨show 0 < 4 ∧ 0 < 3 ∧ 0 ≤ 4 by decide, show 140 ≤ 140 by decide, fun _ => ⟨rfl, rfl, rfl⟩,
    show 0 + 8 * 0 = 0 * 8 from rfl, fun _ => rfl, fun _ => rfl⟩
  phase := ⟨Nat.zero_le _, fun _ => rfl, show Phase.encoding ≠ .drain by decide, by simp [inside],
    by simp [inside], by simp [inside], by simp [inside],
    by simp [inside, isStreaming, cfgPre, fresh], by simp [inside]⟩
  colours := idle_colours ⟨rfl, rfl⟩

theorem holding_inv {b : Block} (h : BlockInv Params.reference b) (answers : List Answer) : Inv (holding b answers) :=
  ⟨reference_valid, fun b' hb => by
    obtain rfl : b = b' := by simpa [holding] using hb
    exact h, fun _ => rfl⟩

theorem witness_EncoderLoopBuildsEnc :
    Inv (holding (withColour (cfgPre 12#32) .encoding 0 0 []) [])
    ∧ control (withColour (cfgPre 12#32) .encoding 0 0 []) = .encode
    ∧ (withColour (cfgPre 12#32) .encoding 0 0 []).seq.enc = 0 :=
  ⟨holding_inv pulled_inv [], by decide, rfl⟩

theorem witness_HighSubBitCount : TimingInv Params.reference ⟨1, 2, 5, 120⟩ := by decide

theorem witness_LineLowAfterChannelByte :
    paramsValid Params.reference = true ∧ ConfigInv Params.reference cfgStream ∧ cfgStream.encoder = .fixed4x
    ∧ 0x88#8 ∈ encodeByte Params.reference cfgStream 0x00#8 :=
  ⟨by decide, trivial, rfl, by decide⟩

theorem witness_PayloadLength : ConfigInv Params.reference cfgTimed :=
  show TimingInv Params.reference ⟨1, 2, 5, 120⟩ by decide

theorem witness_ChannelOrder :
    cfgStream.device = .threeChannel
    ∧ { cfgStream with device := .fourChannelWithWhite }.device = .fourChannelWithWhite := by decide

theorem witness_WriteStarts :
    (ready cfgStream).block = some (fresh cfgStream) ∧ (fresh cfgStream).seq.phase = .idle
    ∧ (∀ c ∈ [c123], c.w = 0x00#8) := by decide

/-- A pull from each kind of source, Streaming and bulk, and of a colour of the other kind. -/
theorem witness_PullsColours :
    control (inside cfgStream .payload 1 0 false) = .pull ∧ isStreaming cfgStream = true
    ∧ control (inside (cfgPre 12#32) .encoding 0 0 false) = .pull ∧ isStreaming (cfgPre 12#32) = false
    ∧ (inside cfgStream .payload 1 0 false).seq.colours = .listed []
    ∧ control (startBlock Params.reference (fresh (cfgPre 12#32)) (.listed [c123])) = .pull
    ∧ (startBlock Params.reference (fresh (cfgPre 12#32)) (.listed [c123])).seq.colours = .listed [c123]
    ∧ control (startBlock Params.reference (fresh (cfgPre 12#32)) (.stream 0 0)) = .pull
    ∧ (startBlock Params.reference (fresh (cfgPre 12#32)) (.stream 0 0)).seq.colours = .stream 0 0
    ∧ control (pulling cfgStream .payload 1 [white]) = .pull
    ∧ (pulling cfgStream .payload 1 [white]).seq.colours = .listed [white]
    ∧ cfgStream.device = .threeChannel ∧ white.w ≠ 0x00#8
    ∧ control (pulling { cfgStream with device := .fourChannelWithWhite } .payload 1 [white]) = .pull := by decide

/-- Before the send, before the read, and an append of a whole channel byte that just fits. -/
theorem witness_OutputByteIssued :
    control (withColour cfgStream .payload 1 4 fullAcc) = .emit
    ∧ (holding (withColour cfgStream .payload 1 4 fullAcc) [.ok 0#8]).answers = [.ok 0#8]
    ∧ control (withColour cfgStream .payload 2 4 fullAcc) = .emit
    ∧ control (withColour (cfgPre 4#32) .encoding 0 4 fullAcc) = .emit
    ∧ bufferCapacity (cfgPre 4#32) = some 4
    ∧ (withColour (cfgPre 4#32) .encoding 0 4 fullAcc).seq.cursor + max 1 (encodedLength (cfgPre 4#32) - 0) = 4 := by
  decide

theorem witness_LatchByteIssued :
    control (fresh cfgStream) ≠ .latch
    ∧ control (inside cfgStream .postLatch 1 140 true) = .latch
    ∧ control (inside cfgStream .preLatch 2 1 false) = .latch
    ∧ control (inside { cfgPre 140#32 with resetMode := .singleTransaction } .encoding 0 140 true) = .latch
    ∧ bufferCapacity { cfgPre 140#32 with resetMode := .singleTransaction } = some (0 + 140)
    ∧ control (inside (cfgPre 12#32) .postLatch 0 140 true) = .latch
    ∧ (inside (cfgPre 12#32) .postLatch 0 140 true).seq.phase ≠ .encoding := by decide

theorem witness_DummyByteSent :
    control (fresh cfgStream) ≠ .dummy ∧ control (inside cfgStream .payload 0 0 false) = .dummy
    ∧ (holding (inside cfgStream .payload 0 0 false) [.ok 0#8]).answers = [.ok 0#8] := by decide

/-- An event of each kind, with each answer. -/
theorem witness_TransportAnswers :
    pendingEvent Params.reference (inside cfgStream .payload 0 0 false) = some (.send 0x00#8)
    ∧ pendingEvent Params.reference (inside cfgStream .drain 1 0 true) = some .read
    ∧ pendingEvent Params.reference (inside (cfgPre 12#32) .payload 0 0 true) = some (.write [])
    ∧ (holding (inside cfgStream .drain 1 0 true) [.notReady]).answers = [.notReady]
    ∧ (holding (inside cfgStream .drain 1 0 true) [.err 7]).answers = [.err 7]
    ∧ (holding (inside cfgStream .drain 1 0 true) [.ok 0#8]).answers = [.ok 0#8] := by decide

theorem witness_WaitsWithoutInput :
    isBusy (ready cfgStream) = false ∧ (ready cfgStream).cmds = []
    ∧ pendingEvent Params.reference (inside cfgStream .drain 1 0 true) = some .read
    ∧ (holding (inside cfgStream .drain 1 0 true) []).answers = [] := by decide

theorem witness_BusyStepFrame :
    Inv busyState ∧ busyState.block = some (startBlock Params.reference (fresh cfgStream) (.listed [c123]))
    ∧ isBusy busyState = true ∧ nextOf (step busyState) = some busyState :=
  ⟨started_inv _ _ trivial (by decide), by decide⟩

/-- A channel byte that just fits and one that does not; a latch that just fits and one that does not. -/
theorem witness_GroupAppendedWhole :
    (Inv (holding (withColour (cfgPre 4#32) .encoding 0 4 fullAcc) [])
      ∧ control (withColour (cfgPre 4#32) .encoding 0 4 fullAcc) = .emit
      ∧ bufferCapacity (cfgPre 4#32) = some (0 + encodedLength (cfgPre 4#32)))
    ∧ (Inv (holding (withColour (cfgPre 3#32) .encoding 0 4 fullAcc) [])
      ∧ bufferCapacity (cfgPre 3#32) = some 3 ∧ 3 < 0 + encodedLength (cfgPre 3#32))
    ∧ (Inv (holding (inside { cfgPre 140#32 with resetMode := .singleTransaction } .encoding 0 140 true) [])
      ∧ control (inside { cfgPre 140#32 with resetMode := .singleTransaction } .encoding 0 140 true) = .latch)
    ∧ Inv (holding (inside { cfgPre 139#32 with resetMode := .singleTransaction } .encoding 0 140 true) []) :=
  ⟨⟨holding_inv (encoded_inv _) [], by decide⟩,
    ⟨holding_inv (encoded_inv _) [], by decide⟩,
    ⟨holding_inv (rendering_inv _) [], by decide⟩,
    holding_inv (rendering_inv _) []⟩

theorem witness_BulkPayloadWritten :
    control (inside (cfgPre 0#32) .payload 0 0 true) = .bulkWrite
    ∧ memReadRange (inside (cfgPre 0#32) .payload 0 0 true).buf 0 0 = some []
    ∧ isSingle (cfgPre 0#32) = false
    ∧ control (inside { cfgPre 0#32 with resetMode := .singleTransaction } .payload 0 0 true) = .bulkWrite
    ∧ isSingle { cfgPre 0#32 with resetMode := .singleTransaction } = true := by decide

theorem witness_FinalDrainRead : control (inside cfgStream .drain 1 0 true) = .drain := by decide

theorem witness_PartsFollow :
    control (inside cfgStream .preLatch 1 0 false) = .latchDone
    ∧ control (inside cfgStream .postLatch 1 0 true) = .latchDone ∧ isStreaming cfgStream = true
    ∧ control (inside (cfgPre 0#32) .postLatch 0 0 true) = .latchDone ∧ isStreaming (cfgPre 0#32) = false
    ∧ control (inside { cfgPre 0#32 with preLatch := true } .encoding 0 0 true) = .rendered
    ∧ control (inside (cfgPre 0#32) .encoding 0 0 true) = .rendered ∧ isSingle (cfgPre 0#32) = false := by decide

/-- A streaming WRITE with a pre-latch, before its dummy byte. -/
def beforeDummy (answers : List Answer) : State :=
  { started { cfgStream with preLatch := true } [c123] with answers := answers }

theorem beforeDummy_inv (answers : List Answer) : Inv (beforeDummy answers) :=
  have h := started_inv { cfgStream with preLatch := true } [c123] trivial (by decide)
  ⟨h.params, h.block, h.trace⟩

/-- A wait, and a step that reports; with a pre-latch, the dummy byte held by the transport and the dummy byte sent. -/
theorem witness_PhaseOrder :
    (Inv busyState ∧ busyState.block = some (startBlock Params.reference (fresh cfgStream) (.listed [c123]))
      ∧ nextOf (step busyState) = some busyState)
    ∧ Inv (holding (inside { cfgPre 139#32 with resetMode := .singleTransaction } .encoding 0 140 true) [])
    ∧ (nextOf (step (holding (inside { cfgPre 139#32 with resetMode := .singleTransaction } .encoding 0 140 true) []))).map
        (fun t => (t.block.isSome, t.observed.length)) = some (true, 1)
    ∧ (∀ answers, Inv (beforeDummy answers))
    ∧ isStreaming { cfgStream with preLatch := true } = true
    ∧ (beforeDummy [.notReady]).block.map (fun b => (b.cfg.preLatch, b.seq.phase, b.seq.inFlight)) =
        some (true, .payload, 0)
    ∧ (blockOf (step (beforeDummy [.notReady]))).map (fun b => (b.seq.phase, b.seq.inFlight)) = some (.payload, 0)
    ∧ (blockOf (step (beforeDummy [.ok 0#8]))).map (fun b => (b.seq.phase, b.seq.inFlight)) = some (.preLatch, 1) :=
  ⟨⟨started_inv _ _ trivial (by decide), by decide⟩, holding_inv (rendering_inv _) [], by decide, beforeDummy_inv,
    by decide⟩

theorem witness_SoundStepsNeverFault : Inv busyState ∧ isBusy busyState = true :=
  ⟨started_inv _ _ trivial (by decide), by decide⟩

theorem witness_StepRunsDecoded :
    decode (issuing cfgStream [0x00000001#32]).cmds =
      .ok (.newFixed ⟨.threeChannel, .grb, false, .streaming, .byteAtATime⟩, [])
    ∧ decode (issuing cfgStream [0x00000004#32]).cmds = .error .reservedOpcode
    ∧ isBusy (issuing cfgStream [0x00000001#32]) = false
    ∧ control (inside cfgStream .payload 0 0 false) = .dummy
    ∧ control (inside cfgStream .postLatch 1 140 true) = .latch
    ∧ control (withColour cfgTimed .encoding 0 0 []) = .encode
    ∧ control (withColour cfgStream .payload 1 0 []) = .encode
    ∧ bitGroup (currentByte (withColour cfgStream .payload 1 0 [])) 0 = 0#2
    ∧ bitGroup (currentByte (withColour cfgStream .payload 1 1 [])) 1 = 2#2 := by decide

theorem witness_StepKeepsInvariant : Inv busyState ∧ nextOf (step busyState) = some busyState :=
  ⟨started_inv _ _ trivial (by decide), by decide⟩

/-- The sends and reads of a WRITE that has just begun are equal in number. -/
theorem witness_StepKeepsEchoBalance :
    Inv busyState ∧ EchoInv busyState ∧ nextOf (step busyState) = some busyState :=
  ⟨started_inv _ _ trivial (by decide), fun b hb _ => by
    obtain rfl : startBlock Params.reference (fresh cfgStream) (.listed [c123]) = b := by
      simpa [busyState, started, holding] using hb
    decide, by decide⟩

theorem witness_EveryFrameEndsWell :
    Inv (ready cfgStream) ∧ (ready cfgStream).block = some (fresh cfgStream)
    ∧ (fresh cfgStream).seq.phase = .idle
    ∧ ∃ s0, exec (.write (.listed [c123])) (ready cfgStream) = .next s0 :=
  ⟨ready_inv _ trivial, rfl, rfl, _, rfl⟩

/-- A frame without colours and with a latch of one byte has four events; a bulk one that just fits has two. -/
theorem witness_FrameCompletes :
    (Inv (readyShort cfgStream (List.replicate 4 (.ok 0#8)))
      ∧ (∃ s0, exec (.write (.listed [])) (readyShort cfgStream (List.replicate 4 (.ok 0#8))) = .next s0)
      ∧ (∀ a ∈ List.replicate 4 (Answer.ok 0#8), a.isErr = false)
      ∧ (frameEvents shortLatch cfgStream []).length = 4 ∧ (List.replicate 4 (Answer.ok 0#8)).countP Answer.isOk = 4
      ∧ bufferCapacity cfgStream = none)
    ∧ Inv (readyShort (cfgPre 12#32) [.notReady, .ok 0#8, .ok 0#8])
    ∧ (frameEvents shortLatch (cfgPre 12#32) [c123]).length = 2
    ∧ [Answer.notReady, .ok 0#8, .ok 0#8].countP Answer.isOk = 2
    ∧ bufferCapacity (cfgPre 12#32) = some 12 ∧ minCapacity shortLatch (cfgPre 12#32) 1 = 12 :=
  ⟨⟨readyShort_inv _ _ trivial, ⟨_, rfl⟩, by decide⟩, readyShort_inv _ _ trivial, by decide⟩

/-- F.3 and F.4: one pixel needs twelve bytes. -/
theorem witness_MinimumCapacity :
    Inv (ready (cfgPre 12#32)) ∧ (ready (cfgPre 12#32)).block = some (fresh (cfgPre 12#32))
    ∧ (fresh (cfgPre 12#32)).seq.phase = .idle ∧ (cfgPre 12#32).strategy = .prerendered 12#32
    ∧ (∃ s0, exec (.write (.listed [c123])) (ready (cfgPre 12#32)) = .next s0)
    ∧ 1 * 3 * encodedLength (cfgPre 12#32) ≤ (12#32).toNat
    ∧ Inv (ready (cfgPre 11#32)) ∧ (11#32).toNat < 1 * 3 * encodedLength (cfgPre 11#32) :=
  ⟨ready_inv _ trivial, rfl, rfl, rfl, ⟨_, rfl⟩, by decide, ready_inv _ trivial, by decide⟩

/-- A block whose earlier WRITE left a byte in BUF. -/
def usedBlock : Block :=
  { fresh (cfgPre 12#32) with seq := { constructedSeq with cursor := 1 }, buf := [(0, 0x88#8)] }

theorem used_inv : BlockInv Params.reference usedBlock where
  config := trivial
  idle _ := ⟨by decide, by decide, by decide⟩
  buffer := ⟨by decide, fun c h => by cases h; decide, fun c h => by cases h; decide,
    fun i h => by obtain rfl := Nat.lt_one_iff.1 h; rfl, fun _ => by decide, fun h => by cases h⟩
  position := ⟨by decide, by decide, fun _ => ⟨rfl, rfl, rfl⟩, by decide, fun _ => rfl, fun _ => rfl⟩
  phase := ⟨by decide, fun _ => rfl, by decide, by decide, by decide, by decide, by decide, by decide, by decide⟩
  colours := idle_colours ⟨rfl, rfl⟩

/-- A fresh block and one with a byte in BUF, given the same WRITE. -/
theorem witness_FramesIndependent :
    Inv (ready (cfgPre 12#32)) ∧ Inv (holding usedBlock []) ∧ (fresh (cfgPre 12#32)).seq.phase = .idle
    ∧ usedBlock.seq.phase = .idle ∧ (fresh (cfgPre 12#32)).cfg = usedBlock.cfg
    ∧ (∃ r, exec (.write (.listed [c123])) (ready (cfgPre 12#32)) = .next r ∧ ∃ t, runSteps 1 r = .next t)
    ∧ ∃ r, exec (.write (.listed [c123])) (holding usedBlock []) = .next r :=
  ⟨ready_inv _ trivial, holding_inv used_inv [], rfl, rfl, rfl, ⟨_, rfl, _, rfl⟩, _, rfl⟩

theorem witness_UnboundedStreamNeverCompletes :
    Inv (ready cfgStream) ∧ (ready cfgStream).block = some (fresh cfgStream)
    ∧ (fresh cfgStream).seq.phase = .idle
    ∧ ∃ s0, exec (.write (.stream 0 0)) (ready cfgStream) = .next s0 :=
  ⟨ready_inv _ trivial, rfl, rfl, _, rfl⟩

theorem witness_StreamingCounts : ConfigInv Params.reference cfgStream := trivial

/-- A bulk frame without colours under a latch of one byte. -/
theorem witness_WireImageOfFrame :
    NoneFailed [(.write [], .ok), (.write [0x00#8], .ok)]
    ∧ traceEvents [(.write [], .ok), (.write [0x00#8], .ok)] = frameEvents shortLatch (cfgPre 0#32) [] := by
  constructor
  · intro er h
    simp at h
    rcases h with rfl | rfl <;> rfl
  · decide

/-- S.4: the dummy byte's Send failed; it put nothing or its byte on the line. -/
theorem witness_LineCarriesFramePrefix :
    FrameEnds Params.reference cfgStream [c123]
      ⟨.transportError .send 9, [(.send 0x00#8, .err 9)], [], .listed [c123]⟩
    ∧ LineMayCarry [(.send 0x00#8, .err 9)] [] ∧ LineMayCarry [(.send 0x00#8, .err 9)] [0x00#8] := by
  refine ⟨⟨[], .send 0x00#8, rfl, rfl, fun _ h => by simp at h, ?_⟩, ⟨[], ?_, rfl⟩, ⟨[0x00#8], ?_, rfl⟩⟩
  · exact List.prefix_iff_eq_append.2 rfl
  · exact List.nil_prefix
  · exact List.prefix_rfl

theorem witness_EmptyFrame :
    isStreaming cfgStream = true ∧ isStreaming (cfgPre 0#32) = false ∧ isSingle (cfgPre 0#32) = false
    ∧ isSingle { cfgPre 0#32 with resetMode := .singleTransaction } = true := by decide

/-- A line of each command, and a command that no words spell. -/
theorem witness_AssembledLinesEncode :
    assemble .fourChannelWithWhite "NEW.TIMED clk=4294967295 strat=buffered".toList =
      some (.newTimed ⟨.threeChannel, .grb, false, .buffered, .byteAtATime⟩ 4294967295#32)
    ∧ assemble .fourChannelWithWhite "WRITE (1,2,3,4)".toList = some (.write (.listed [⟨1#8, 2#8, 3#8, 4#8⟩]))
    ∧ (Instr.blank 4294967296).isCommand = true ∧ (Instr.blank 4294967296).WellFormed = false
    ∧ (Instr.write (.stream 0 0)).isCommand = true ∧ (Instr.write (.stream 0 0)).WellFormed = false := by decide

end Sys2Proof.Tests
end

section
/-! The words of a command and what they decode to (spec/30_encoding.md R70 to R78): the encoder's words field by field,
as arithmetic, and then the decoder on them. -/

namespace Sys2Proof

theorem DeviceKind.code_toNat_lt (d : DeviceKind) : d.code.toNat < 2 := by cases d <;> decide

theorem PixelOrder.code_toNat_lt (o : PixelOrder) : o.code.toNat < 6 := by cases o <;> decide

theorem Strategy.code_toNat_lt (s : Strategy) : s.code.toNat < 3 := by
  cases s <;> simp [Strategy.code]

theorem ResetMode.code_toNat_lt (r : ResetMode) : r.code.toNat < 2 := by cases r <;> decide

/-! ### The NEW_* command word -/

/-- A field placed above the bits in use is added, shifted. -/
theorem toNat_or_shiftLeft {x y : Word} {k : Nat} (hx : x.toNat < 2 ^ k) (hy : y.toNat * 2 ^ k < 2 ^ 32) :
    (x ||| y <<< k).toNat = x.toNat + y.toNat * 2 ^ k := by
  have shifted : (y <<< k).toNat = y.toNat <<< k := by
    rw [BitVec.toNat_shiftLeft, Nat.shiftLeft_eq, Nat.mod_eq_of_lt hy]
  rw [BitVec.toNat_or, shifted, Nat.or_comm, ← Nat.shiftLeft_add_eq_or_of_lt hx, Nat.shiftLeft_eq, Nat.add_comm]

section CommandWord

variable {op : Word} {f : NewFields} (hop : op.toNat < 256)
include hop

/-- The fields of R71 as digits of the word's value. -/
theorem commandWord_toNat :
    (commandWord op f).toNat = op.toNat + f.device.code.toNat * 2 ^ 8 + f.order.code.toNat * 2 ^ 9
      + f.preLatch.toNat * 2 ^ 12 + f.strategy.code.toNat * 2 ^ 13 + f.resetMode.code.toNat * 2 ^ 15 := by
  have hd := f.device.code_toNat_lt
  have ho := f.order.code_toNat_lt
  have hs := f.strategy.code_toNat_lt
  have hr := f.resetMode.code_toNat_lt
  have flag : (if f.preLatch then 1#32 else 0#32).toNat = f.preLatch.toNat := by cases f.preLatch <;> rfl
  have hp := f.preLatch.toNat_lt
  have device := toNat_or_shiftLeft (x := op) (y := f.device.code) (k := 8) (by omega) (by omega)
  have order := toNat_or_shiftLeft (y := f.order.code) (k := 9) (by rw [device]; omega) (by omega)
  have preLatch := toNat_or_shiftLeft (y := if f.preLatch then 1#32 else 0#32) (k := 12)
    (by rw [order, device]; omega) (by omega)
  have strategy := toNat_or_shiftLeft (y := f.strategy.code) (k := 13)
    (by rw [preLatch, order, device, flag]; omega) (by omega)
  have resetMode := toNat_or_shiftLeft (y := f.resetMode.code) (k := 15)
    (by rw [strategy, preLatch, order, device, flag]; omega) (by omega)
  rw [commandWord, resetMode, strategy, preLatch, order, device, flag]

/-- What the decoder reads out of the word, each a quotient and a remainder of that value. -/
theorem commandWord_fields :
    ((commandWord op f).extractLsb' 0 8).toNat = op.toNat
      ∧ (commandWord op f).getLsbD 8 = decide (f.device.code.toNat = 1)
      ∧ ((commandWord op f).extractLsb' 9 3).toNat = f.order.code.toNat
      ∧ (commandWord op f).getLsbD 12 = f.preLatch
      ∧ ((commandWord op f).extractLsb' 13 2).toNat = f.strategy.code.toNat
      ∧ (commandWord op f).getLsbD 15 = decide (f.resetMode.code.toNat = 1)
      ∧ (commandWord op f).extractLsb' 16 16 = 0#16 := by
  have hd := f.device.code_toNat_lt
  have ho := f.order.code_toNat_lt
  have hp := f.preLatch.toNat_lt
  have hs := f.strategy.code_toNat_lt
  have hr := f.resetMode.code_toNat_lt
  have flag : f.preLatch = decide (f.preLatch.toNat = 1) := by cases f.preLatch <;> rfl
  rw [flag, ← BitVec.toNat_inj, BitVec.toNat_ofNat]
  simp only [BitVec.extractLsb'_toNat, BitVec.getLsbD, Nat.testBit_eq_decide_div_mod_eq, commandWord_toNat hop,
    Nat.shiftRight_eq_div_pow, decide_eq_decide]
  refine ⟨?_, ?_, ?_, ?_, ?_, ?_, ?_⟩ <;> omega

theorem decodeNewFields_commandWord (rest : List Word) :
    decodeNewFields (commandWord op f) (f.strategy.operands ++ rest) = .ok (f, rest) := by
  obtain ⟨-, device, order, preLatch, strategy, resetMode, reserved⟩ := commandWord_fields (f := f) hop
  have hdevice : decodeDevice (commandWord op f) = f.device := by
    rw [decodeDevice, device]; cases f.device <;> rfl
  have horder : decodeOrder (commandWord op f) = some f.order := by
    rw [decodeOrder, order]; cases f.order <;> rfl
  have hstrategy : decodeStrategy (commandWord op f) (f.strategy.operands ++ rest) = .ok (f.strategy, rest) := by
    rw [decodeStrategy.eq_def, strategy]; cases f.strategy <;> rfl
  have hreset : decodeResetMode (commandWord op f) = f.resetMode := by
    rw [decodeResetMode, resetMode]; cases f.resetMode <;> rfl
  simp only [decodeNewFields, reserved, if_true, horder, hstrategy, hdevice, preLatch, hreset]

end CommandWord

theorem decode_newFixed (f : NewFields) (rest : List Word) :
    decode (encode (.newFixed f) ++ rest) = .ok (.newFixed f, rest) := by
  obtain ⟨opcode, -⟩ := commandWord_fields (op := 1#32) (f := f) (by decide)
  simp [encode, decode, opcode, decodeNewFixed, decodeNewFields_commandWord]

theorem decode_newTimed (f : NewFields) (clockHz : Word) (rest : List Word) :
    decode (encode (.newTimed f clockHz) ++ rest) = .ok (.newTimed f clockHz, rest) := by
  obtain ⟨opcode, -⟩ := commandWord_fields (op := 2#32) (f := f) (by decide)
  simp [encode, decode, opcode, decodeNewTimed, decodeNewFields_commandWord]

/-! ### The colours of a WRITE -/

/-- Each byte of four in a row, at its place. The type keeps the sum of the widths, which is what the library's lemmas about
appended words match. -/
theorem extract_bytes (r g b w : Byte) :
    BitVec.extractLsb' 24 8 (r ++ g ++ b ++ w : BitVec (8 + 8 + 8 + 8)) = r
      ∧ BitVec.extractLsb' 16 8 (r ++ g ++ b ++ w : BitVec (8 + 8 + 8 + 8)) = g
      ∧ BitVec.extractLsb' 8 8 (r ++ g ++ b ++ w : BitVec (8 + 8 + 8 + 8)) = b
      ∧ BitVec.extractLsb' 0 8 (r ++ g ++ b ++ w : BitVec (8 + 8 + 8 + 8)) = w := by
  refine ⟨?_, ?_, ?_, BitVec.extractLsb'_append_eq_right⟩
  · rw [BitVec.extractLsb'_append_eq_of_le (by decide), BitVec.extractLsb'_append_eq_of_le (by decide)]
    exact BitVec.extractLsb'_append_eq_left
  · rw [BitVec.extractLsb'_append_eq_of_le (by decide), BitVec.extractLsb'_append_eq_of_le (by decide)]
    exact BitVec.extractLsb'_append_eq_right
  · rw [BitVec.extractLsb'_append_eq_of_le (by decide)]
    exact BitVec.extractLsb'_append_eq_right

theorem decodeColour_colourWord (c : Colour) : decodeColour (colourWord c) = c :=
  (Colour.mk.injEq ..).mpr (extract_bytes c.r c.g c.b c.w)

theorem countFits_iff {n : Nat} : countFits n = true ↔ n < 2 ^ 32 := by simp [countFits]

/-- A WRITE word, a count that fits, and a word per colour. -/
theorem decode_counted {words : List Word} (h : countFits words.length = true) (rest : List Word) :
    decode (3#32 :: countedWords words.length words ++ rest)
      = .ok (.write (.listed (words.map decodeColour)), rest) := by
  have count : (BitVec.ofNat 32 words.length).toNat = words.length := by
    rw [BitVec.toNat_ofNat, Nat.mod_eq_of_lt (countFits_iff.1 h)]
  simp [countedWords, h, decode, decodeWrite, count]

theorem decode_write {cs : List Colour} (h : countFits cs.length = true) (rest : List Word) :
    decode (encode (.write (.listed cs)) ++ rest) = .ok (.write (.listed cs), rest) := by
  have words := decode_counted (words := cs.map colourWord) (by simpa using h) rest
  simpa [encode, colourWords, Function.comp_def, decodeColour_colourWord] using words

/-! ### Every command -/

/-- A pseudo-command has the words of what it stands for. -/
theorem encode_expand (i : Instr) : encode i = encode i.expand := by
  cases i with
  | blank n => exact (Laws.Spelling.blank n).1
  | _ => rfl

theorem decode_encode {i : Instr} (hc : i.isCommand = true) (hw : i.WellFormed = true) (rest : List Word) :
    decode (encode i ++ rest) = .ok (i.expand, rest) := by
  rw [encode_expand]
  cases i with
  | newFixed f => exact decode_newFixed f rest
  | newTimed f clockHz => exact decode_newTimed f clockHz rest
  | write colours =>
    cases colours with
    | listed cs => exact decode_write hw rest
    | stream id pos => simp [Instr.WellFormed, ColourSource.spelled] at hw
  | new => exact decode_newFixed _ rest
  | latch => exact decode_write (by decide) rest
  | blank n => exact decode_write (by simpa [Instr.WellFormed] using hw) rest
  | lut00 | lut01 | lut10 | lut11 | timedBit0 | timedBit1 | latchByte | dummyByte => cases hc

/-- A command that no words spell is encoded as a WRITE word without its count. -/
theorem encode_unspelled {i : Instr} (hw : i.WellFormed = false) : encode i = [3#32] := by
  cases i with
  | write colours =>
    cases colours with
    | listed cs =>
      have unfit : countFits cs.length = false := hw
      simp [encode, colourWords, countedWords, unfit]
    | stream id pos => rfl
  | blank n =>
    have unfit : countFits n = false := hw
    simp [encode, countedWords, unfit]
  | _ => cases hw

end Sys2Proof
end

section
/-! What a line can assemble to (spec/30_encoding.md R87, R88): each assembler's answer, and that every line's instruction
is a command that words spell. -/

namespace Sys2Proof.Machine

section Answers

variable {dev : DeviceKind} {tokens : List (List Char)} {i : Instr}

theorem assembleFixed_some (h : assembleFixed tokens = some i) : ∃ f, i = .newFixed f := by
  unfold assembleFixed at h
  split at h
  · cases h
  · split at h
    · cases h
    · obtain ⟨f, -, rfl⟩ := Option.map_eq_some_iff.1 h
      exact ⟨f, rfl⟩

theorem assembleTimed_some (h : assembleTimed tokens = some i) : ∃ f clockHz, i = .newTimed f clockHz := by
  unfold assembleTimed at h
  split at h
  · cases h
  · split at h
    · obtain ⟨clockHz, -, rfl⟩ := Option.map_eq_some_iff.1 h
      exact ⟨_, clockHz, rfl⟩
    · cases h

theorem assembleWrite_some (h : assembleWrite dev tokens = some i) :
    ∃ cs, i = .write (.listed cs) ∧ countFits cs.length = true := by
  unfold assembleWrite at h
  split at h
  · cases h
  · obtain ⟨fits, answer⟩ := Option.ite_none_right_eq_some.1 h
    exact ⟨_, (Option.some.inj answer).symm, fits⟩

theorem assembleBlank_some {text : List Char} (h : assembleBlank text = some i) :
    ∃ n, i = .blank n ∧ countFits n = true := by
  unfold assembleBlank at h
  split at h
  · cases h
  · obtain ⟨fits, answer⟩ := Option.ite_none_right_eq_some.1 h
    exact ⟨_, (Option.some.inj answer).symm, fits⟩

/-- A line's head chooses the assembler. -/
theorem assemble_some {line : List Char} (h : assemble dev line = some i) :
    (∃ f, i = .newFixed f) ∨ (∃ f clockHz, i = .newTimed f clockHz)
      ∨ (∃ cs, i = .write (.listed cs) ∧ countFits cs.length = true)
      ∨ i = .new ∨ i = .latch ∨ (∃ n, i = .blank n ∧ countFits n = true) := by
  unfold assemble at h
  split at h
  · cases h
  · split_ifs at h
    · exact .inl (assembleFixed_some h)
    · exact .inr (.inl (assembleTimed_some h))
    · exact .inr (.inr (.inl (assembleWrite_some h)))
    · exact .inr (.inr (.inr (.inl (Option.some.inj h).symm)))
    · exact .inr (.inr (.inr (.inr (.inl (Option.some.inj h).symm))))
    · split at h
      · exact .inr (.inr (.inr (.inr (.inr (assembleBlank_some h)))))
      · cases h

end Answers

theorem assemble_spelled {dev : DeviceKind} {line : List Char} {i : Instr} (h : assemble dev line = some i) :
    i.isCommand = true ∧ i.WellFormed = true := by
  obtain ⟨f, rfl⟩ | ⟨f, clockHz, rfl⟩ | ⟨cs, rfl, fits⟩ | rfl | rfl | ⟨n, rfl, fits⟩ := assemble_some h
  · exact ⟨rfl, rfl⟩
  · exact ⟨rfl, rfl⟩
  · exact ⟨rfl, fits⟩
  · exact ⟨rfl, rfl⟩
  · exact ⟨rfl, rfl⟩
  · exact ⟨rfl, fits⟩

/-- The largest count word, and one more. -/
theorem assemble_blank_bound (dev : DeviceKind) :
    assemble dev "BLANK 4294967295".toList = some (.blank 4294967295)
      ∧ assemble dev "BLANK 4294967296".toList = none := by
  cases dev <;> decide

/-- Settles O55: every line assembles to one of six forms that words spell (`assemble_spelled`), the decoder reads such
words back (`decode_encode`), and what no words spell is a WRITE word without its count. -/
theorem assembledLinesEncode : Obligations.AssembledLinesEncode := by
  unfold Obligations.AssembledLinesEncode
  refine ⟨fun dev line i h => ?_, fun i _ hw => ⟨.operandMissing, ?_⟩, assemble_blank_bound⟩
  · obtain ⟨hc, hw⟩ := assemble_spelled h
    exact ⟨hc, hw, by simpa using decode_encode hc hw []⟩
  · rw [encode_unspelled hw]
    rfl

end Sys2Proof.Machine
end

section
/-! Inadmissible parameters (spec/00_scope.md R7, spec/93_implementation_defined.md U17). -/

namespace Sys2Proof.Machine

/-- Every meaning looks at the parameters first. -/
theorem exec_underParams (i : Instr) (s : State) : ∃ k, exec i s = underParams s k := by
  cases i <;> exact ⟨_, rfl⟩

theorem underParams_invalid {s : State} (h : paramsValid s.params = false) (k : Out) :
    underParams s k = .fault .badParameters := by
  simp [underParams, h]

theorem step_invalid {s : State} (h : paramsValid s.params = false) : step s = .fault .badParameters := by
  simp [step, h]

theorem paramsValid_bounds {p : Params} (h : paramsValid p = true) :
    0 < p.zeroHighThreshold ∧ 0 < p.oneHighThreshold ∧ 0 < p.bitPeriodThreshold ∧ 1 ≤ p.minClockHz
      ∧ 2 ≤ p.maxTotal := by
  simp only [paramsValid, Bool.and_eq_true, decide_eq_true_eq] at h
  obtain ⟨⟨⟨⟨⟨zero, one⟩, period⟩, clock⟩, total⟩, -⟩ := h
  exact ⟨zero, one, period, clock, total⟩

/-- Settles O16: the step and every meaning look at the parameters before anything else, and admitted parameters are within
R7's bounds. -/
theorem badParametersFault : Obligations.BadParametersFault := by
  unfold Obligations.BadParametersFault
  refine ⟨fun s h => ⟨step_invalid h, fun i => ?_⟩, fun p out => ?_⟩
  · obtain ⟨k, hk⟩ := exec_underParams i s
    rw [hk, underParams_invalid h]
  · by_contra valid
    have := paramsValid_bounds (Bool.eq_true_of_not_eq_false valid)
    omega

end Sys2Proof.Machine
end

section
/-! A step by its control point: the transport event that is due, and the internal row that stands there
(spec/43_frame_sequencer.md R165 to R180; spec/30_encoding.md R70). -/

namespace Sys2Proof.Machine

theorem stepCommand_nil {s : State} (h : s.cmds = []) : stepCommand s = .next s := by
  simp [stepCommand, nextCommand, h]

section Busy

variable {s : State} {b : Block}

/-- An exchange is one event: the read of the pair that is out, or the send of the next one. -/
theorem exchange_transact (v : Byte) (advance : Seq → Seq) :
    ∃ next, exchange v b advance s = transact (if b.seq.inFlight = 2 then .read else .send v) b s next := by
  unfold exchange
  split
  · exact ⟨_, rfl⟩
  · exact ⟨_, rfl⟩

variable (hp : paramsValid s.params = true) (hb : s.block = some b)
include hp hb

theorem step_dummy (hc : control b = .dummy) : step s = exec .dummyByte s := by
  simp [step_busy hp hb, hc]

theorem step_latch (hc : control b = .latch) : step s = .next (latchOne b s) := by
  simp [step_busy hp hb, hc]

theorem step_emit (hc : control b = .emit) : step s = .next (emitByte b s) := by
  simp [step_busy hp hb, hc]

theorem step_bulkWrite (hc : control b = .bulkWrite) : step s = bulkWrite b s := by
  simp [step_busy hp hb, hc]

theorem step_drain (hc : control b = .drain) : step s = .next (drainRead b s) := by
  simp [step_busy hp hb, hc]

theorem step_encode (hc : control b = .encode) : step s = exec (encodingRow b) s := by
  simp [step_busy hp hb, hc, encodingRow_exec hp hb hc]

theorem exec_latchByte (hc : control b = .latch) : exec .latchByte s = .next (latchOne b s) :=
  atControl_at hp hb hc

/-- The step of a block whose next move issues an event is that event (R180). -/
theorem step_transact {e : Event} (he : pendingEvent s.params b = some e) :
    ∃ next, step s = .next (transact e b s next) := by
  unfold pendingEvent at he
  cases hc : control b with simp only [hc] at he
  | dummy =>
    obtain rfl := Option.some.inj he
    exact ⟨_, (step_dummy hp hb hc).trans (atControl_at hp hb hc)⟩
  | latch =>
    rw [step_latch hp hb hc, latchOne]
    split at he
    next streaming =>
      obtain rfl := Option.some.inj he
      obtain ⟨next, h⟩ := exchange_transact (s := s) (b := b) 0x00#8 advanceLatch
      exact ⟨next, by rw [if_pos streaming, h]⟩
    next bulk =>
      split at he
      next => cases he
      next transmitting =>
        obtain rfl := Option.some.inj he
        exact ⟨_, by rw [if_neg bulk, if_neg transmitting]⟩
  | emit =>
    rw [step_emit hp hb hc, emitByte]
    split at he
    next streaming =>
      obtain rfl := Option.some.inj he
      obtain ⟨next, h⟩ := exchange_transact (s := s) (b := b) (packByte b.seq.acc) (advancePosition b.cfg)
      exact ⟨next, by rw [if_pos streaming, h]⟩
    next => cases he
  | bulkWrite =>
    obtain ⟨bytes, read, rfl⟩ := Option.map_eq_some_iff.1 he
    rw [step_bulkWrite hp hb hc, bulkWrite, read]
    exact ⟨_, rfl⟩
  | drain =>
    obtain rfl := Option.some.inj he
    exact ⟨_, step_drain hp hb hc⟩
  | idle | latchDone | pull | encode | rendered => cases he

end Busy

/-- Settles O33: a ready block without words waits, and an event without an answer holds the block. -/
theorem waitsWithoutInput : Obligations.WaitsWithoutInput := by
  unfold Obligations.WaitsWithoutInput
  refine fun s hp => ⟨fun ready noWords => ?_, fun b e hb he unanswered => ?_⟩
  · rw [step_ready hp ready, stepCommand_nil noWords]
  · obtain ⟨next, h⟩ := step_transact hp hb he
    rw [h, transact_nil unanswered]

theorem encodingRow_timed {b : Block} {clk : Word} {tp : TimingParameters} (h : b.cfg.encoder = .timed clk tp) :
    encodingRow b = if logicalBit (currentByte b) b.seq.enc then .timedBit1 else .timedBit0 := by
  simp only [encodingRow, h, timedBitInstr]

theorem encodingRow_fixed {b : Block} (h : b.cfg.encoder = .fixed4x) :
    encodingRow b = lutInstr (bitGroup (currentByte b) b.seq.enc) := by
  simp only [encodingRow, h]

/-- Settles O41: a ready block runs what its words decode to, and inside a WRITE the rows of the opcode table are run at
their own control points. -/
theorem stepRunsDecoded : Obligations.StepRunsDecoded := by
  unfold Obligations.StepRunsDecoded
  refine fun s hp => ⟨fun i rest ready => (step_decode hp ready).1 i rest,
    fun e ready => (step_decode hp ready).2 e, fun b hb => ⟨step_dummy hp hb, fun hc => ?_, ?_, ?_⟩⟩
  · rw [step_latch hp hb hc, exec_latchByte hp hb hc]
  · intro hc clk tp timed
    rw [step_encode hp hb hc, encodingRow_timed timed]
  · rintro hc fixed group rfl
    rw [step_encode hp hb hc, encodingRow_fixed fixed]
    refine ⟨?_, ?_, ?_, ?_⟩ <;> (intro h; rw [h]; rfl)

end Sys2Proof.Machine
end

section
/-! What one step inside a WRITE can do, said once (`step_move`): it is a move without an event or one transport event
(spec/43_frame_sequencer.md R180), and the move either goes on or ends the WRITE (R182). The invariant, the echo
balance, the frame of a step and the transport's answers all follow from it. -/

namespace Sys2Proof.Machine

/-- The events that the next move of a block issues: one or none. -/
def dueEvents (p : Params) (b : Block) : List Event := (pendingEvent p b).toList

/-- BUF and the cursor are kept, or the Encoding phase has appended one byte at the cursor (R52, R173). -/
def KeepsOrAppends (b b' : Block) : Prop :=
  (b'.buf = b.buf ∧ b'.seq.cursor = b.seq.cursor)
    ∨ (b.seq.phase = .encoding ∧ b'.seq.cursor = b.seq.cursor + 1 ∧ ∃ v, b'.buf = memWrite b.buf b.seq.cursor v)

/-- The move of block `b`, its event answered Ok, leaves block `b'` in the same WRITE. -/
structure GoesOn (p : Params) (b b' : Block) : Prop where
  cfg : b'.cfg = b.cfg
  busy : b'.seq.phase ≠ .idle
  buffer : KeepsOrAppends b b'
  sound : BlockInv p b → BlockInv p b'
  /-- A send puts a byte in flight and a read takes one out (R37). -/
  echo : BlockInv p b → (dueEvents p b).countP Event.isSend + b.seq.inFlight
    = (dueEvents p b).countP Event.isRead + b'.seq.inFlight

/-- The move of block `b`, its event answered Ok, ends the WRITE with result `r` and what `b'` holds. -/
structure Ends (p : Params) (b : Block) (r : Result) (b' : Block) : Prop where
  cfg : b'.cfg = b.cfg
  buf : b'.buf = b.buf
  cursor : b'.seq.cursor = b.seq.cursor
  colours : b'.seq.colours = b.seq.colours
  /-- Only a move without an event has an error of its own (R203). -/
  okOfEvent : (pendingEvent p b).isSome → r = .ok
  sound : BlockInv p b → BlockInv p (b'.withSeq b'.seq.toIdle)

/-- What the move of block `b` makes of the state `s` that lists its event as answered Ok. -/
inductive Settled (p : Params) (b : Block) (s : State) : State → Prop
  | goesOn {b' : Block} (h : GoesOn p b b') : Settled p b s (s.withBlock b')
  | ends {r : Result} {b' : Block} (h : Ends p b r b') : Settled p b s (endWrite r b' s)

/-- One step of the WRITE of block `b`. -/
inductive Move (s : State) (b : Block) : State → Prop
  | silent {t : State} (noEvent : pendingEvent s.params b = none) (h : Settled s.params b s t) : Move s b t
  | event {e : Event} {next : State → State} (due : pendingEvent s.params b = some e)
      (h : ∀ s', Settled s.params b s' (next s')) : Move s b (transact e b s next)

/-! ### The moves -/

section Moves

variable {p : Params} {b : Block}

theorem dueEvents_none (h : pendingEvent p b = none) : dueEvents p b = [] := by simp [dueEvents, h]

theorem dueEvents_some {e : Event} (h : pendingEvent p b = some e) : dueEvents p b = [e] := by simp [dueEvents, h]

/-- A move without an event that changes SEQ alone, and neither the cursor nor in_flight. -/
theorem GoesOn.silent {q : Seq} (noEvent : pendingEvent p b = none) (busy : q.phase ≠ .idle)
    (cursor : q.cursor = b.seq.cursor) (inFlight : q.inFlight = b.seq.inFlight)
    (sound : BlockInv p b → BlockInv p (b.withSeq q)) : GoesOn p b (b.withSeq q) where
  cfg := rfl
  busy := busy
  buffer := .inl ⟨rfl, cursor⟩
  sound := sound
  echo _ := by simp [dueEvents_none noEvent, inFlight]

/-- A WRITE that ends with its block as it is. -/
theorem Ends.self {r : Result} (okOfEvent : (pendingEvent p b).isSome → r = .ok) : Ends p b r b :=
  ⟨rfl, rfl, rfl, rfl, okOfEvent, toIdle_inv⟩

theorem busy_of_control (hc : control b ≠ .idle) : b.seq.phase ≠ .idle := fun h => hc (controlAt_idle.2 h)

/-- With Streaming, a byte issued after the dummy byte finds one in flight (R170). -/
theorem one_le_inFlight (h : BlockInv p b) (streaming : isStreaming b.cfg = true)
    (hc : control b = .latch ∨ control b = .emit) : 1 ≤ b.seq.inFlight := by
  have notEncoding : b.seq.phase ≠ .encoding := by simpa [streaming] using h.phase.strategyPhase
  rcases hc with hc | hc
  · obtain ⟨-, encoding | preLatch | postLatch⟩ := controlAt_latch.1 hc
    · exact absurd encoding notEncoding
    · exact h.phase.afterDummy streaming (.inl preLatch)
    · exact h.phase.afterDummy streaming (.inr (.inl postLatch))
  · obtain ⟨-, -, ⟨encoding, -⟩ | ⟨-, -, flying⟩⟩ := controlAt_emit.1 hc
    · exact absurd encoding notEncoding
    · omega

/-- `advance` is what an issued or appended byte does to SEQ (R35): it leaves the phase, the cursor and in_flight alone,
and it keeps a sound block sound. -/
structure Advances (p : Params) (b : Block) (advance : Seq → Seq) : Prop where
  phase : ∀ q, (advance q).phase = q.phase
  cursor : ∀ q, (advance q).cursor = q.cursor
  inFlight : ∀ q, (advance q).inFlight = q.inFlight
  sound : BlockInv p b → ∀ (f cursor : Nat) (buf : Memory), (if isStreaming b.cfg then f = 1 else f = 0) →
    BufferInv ⟨b.cfg, { b.seq with cursor := cursor }, buf⟩ →
    BlockInv p ⟨b.cfg, advance { b.seq with inFlight := f, cursor := cursor }, buf⟩

theorem advanceLatch_advances (hc : control b = .latch) : Advances p b advanceLatch :=
  ⟨fun _ => rfl, fun _ => rfl, fun _ => rfl, fun h _ _ _ => advanceLatch_inv h hc⟩

theorem advancePosition_advances (hc : control b = .emit) : Advances p b (advancePosition b.cfg) where
  phase q := (advancePosition_keeps b.cfg q).1
  inFlight q := (advancePosition_keeps b.cfg q).2.1
  cursor q := (advancePosition_keeps b.cfg q).2.2.1
  sound h _ _ _ := advance_inv h hc

variable {s : State}

theorem exchange_move {v : Byte} {advance : Seq → Seq} (adv : Advances s.params b advance)
    (streaming : isStreaming b.cfg = true) (hc : control b = .latch ∨ control b = .emit)
    (due : pendingEvent s.params b = some (if b.seq.inFlight = 2 then .read else .send v)) :
    Move s b (exchange v b advance s) := by
  have busy : b.seq.phase ≠ .idle := busy_of_control (by rcases hc with hc | hc <;> simp [hc])
  unfold exchange
  split
  case isTrue two =>
    rw [if_pos two] at due
    refine .event due fun s' => .goesOn ⟨rfl, by simpa [adv.phase] using busy, .inl ⟨rfl, adv.cursor _⟩,
      fun h => adv.sound h 1 b.seq.cursor b.buf (by simp [streaming]) h.buffer, fun _ => ?_⟩
    simp [dueEvents_some due, adv.inFlight, two, Event.isSend, Event.isRead]
  case isFalse notTwo =>
    rw [if_neg notTwo] at due
    refine .event due fun s' => .goesOn ⟨rfl, busy, .inl ⟨rfl, rfl⟩,
      fun h => inFlight_inv h streaming hc busy, fun h => ?_⟩
    have one : b.seq.inFlight = 1 := by
      have := h.phase.inFlightRange
      have := one_le_inFlight h streaming hc
      omega
    simp [dueEvents_some due, one, Event.isSend, Event.isRead]

theorem appendByte_move {left : Nat} {v : Byte} {advance : Seq → Seq} (adv : Advances s.params b advance)
    (bulk : isStreaming b.cfg = false) (encoding : b.seq.phase = .encoding)
    (noEvent : pendingEvent s.params b = none) : Move s b (appendByte left v b advance s) := by
  cases fit : groupFits b.cfg b.seq.cursor (max 1 left)
  case true =>
    rw [appendByte_fits fit]
    refine .silent noEvent (.goesOn ⟨rfl, by simp [adv.phase, encoding], .inr ⟨encoding, adv.cursor _, v, rfl⟩,
      fun h => ?_, fun _ => ?_⟩)
    · exact adv.sound h b.seq.inFlight _ _ (by simpa [bulk] using h.phase.bulkInFlight bulk)
        (append_bufferInv h.buffer bulk (by omega) fit v)
    · simp [dueEvents_none noEvent, adv.inFlight]
  case false =>
    rw [appendByte_full fit]
    exact .silent noEvent (.ends (.self (by simp [noEvent])))

theorem latchOne_move (hc : control b = .latch) : Move s b (latchOne b s) := by
  have adv := advanceLatch_advances (p := s.params) hc
  unfold latchOne
  split
  case isTrue streaming => exact exchange_move adv streaming (.inl hc) (by simp [pendingEvent, hc, streaming])
  case isFalse bulk =>
    split
    case isTrue encoding =>
      exact appendByte_move adv (by simpa using bulk) encoding (by simp [pendingEvent, hc, bulk, encoding])
    case isFalse transmitting =>
      have due : pendingEvent s.params b = some (.write [0x00#8]) := by simp [pendingEvent, hc, bulk, transmitting]
      have busy : b.seq.phase ≠ .idle := busy_of_control (by simp [hc])
      refine .event due fun s' => .goesOn ⟨rfl, busy, .inl ⟨rfl, rfl⟩, fun h => ?_, fun _ => ?_⟩
      · have inFlight := h.phase.bulkInFlight (by simpa using bulk)
        exact adv.sound h b.seq.inFlight b.seq.cursor b.buf (by simpa [bulk] using inFlight) h.buffer
      · simp [dueEvents_some due, advanceLatch, Event.isSend, Event.isRead]

theorem emitByte_move (hc : control b = .emit) : Move s b (emitByte b s) := by
  have adv := advancePosition_advances (p := s.params) hc
  unfold emitByte
  split
  case isTrue streaming => exact exchange_move adv streaming (.inr hc) (by simp [pendingEvent, hc, streaming])
  case isFalse bulk =>
    obtain ⟨-, -, ⟨encoding, -⟩ | ⟨-, streaming, -⟩⟩ := controlAt_emit.1 hc
    · exact appendByte_move adv (by simpa using bulk) encoding (by simp [pendingEvent, hc, bulk])
    · exact absurd streaming bulk

theorem execDummyByte_move {t : State} (hp : paramsValid s.params = true) (hb : s.block = some b)
    (hc : control b = .dummy) (hs : exec .dummyByte s = .next t) : Move s b t := by
  have due : pendingEvent s.params b = some (.send s.params.dummyByte) := by simp [pendingEvent, hc]
  obtain ⟨phase, -, inFlight⟩ := controlAt_dummy.1 hc
  have echo : (dueEvents s.params b).countP Event.isSend + b.seq.inFlight
      = (dueEvents s.params b).countP Event.isRead + 1 := by
    simp [dueEvents_some due, inFlight, Event.isSend, Event.isRead]
  rw [show exec .dummyByte s = _ from atControl_at hp hb hc] at hs
  obtain rfl := Host.Outcome.next.inj hs
  refine .event due fun s' => ?_
  split
  · exact .goesOn ⟨rfl, by simp, .inl ⟨rfl, rfl⟩, fun h => (dummy_inv h hc).2, fun _ => echo⟩
  · exact .goesOn ⟨rfl, by simp [phase], .inl ⟨rfl, rfl⟩, fun h => (dummy_inv h hc).1, fun _ => echo⟩

theorem afterLatch_move (hc : control b = .latchDone) : Move s b (afterLatch b s) := by
  have noEvent : pendingEvent s.params b = none := by simp [pendingEvent, hc]
  refine .silent noEvent ?_
  unfold afterLatch
  split
  case isTrue pre => exact .goesOn (.silent noEvent (by simp) rfl rfl fun h => latchDone_inv h hc pre)
  case isFalse post =>
    split
    case isTrue streaming => exact .goesOn (.silent noEvent (by simp) rfl rfl fun h => drain_inv h hc post streaming)
    case isFalse => exact .ends (.self fun _ => rfl)

theorem coloursEnded_settled (hc : control b = .pull) : Settled s.params b s (coloursEnded b s) := by
  have noEvent : pendingEvent s.params b = none := by simp [pendingEvent, hc]
  unfold coloursEnded
  split
  case isTrue streaming => exact .goesOn (.silent noEvent (by simp) rfl rfl fun h => pullNoneStream_inv h hc streaming)
  case isFalse bulk =>
    exact .goesOn (.silent noEvent (busy_of_control (by simp [hc])) rfl rfl
      fun h => pullNoneBulk_inv h hc (by simpa using bulk))

theorem pullColour_move {t : State} (hc : control b = .pull) (hs : pullColour b s = .next t) : Move s b t := by
  have noEvent : pendingEvent s.params b = none := by simp [pendingEvent, hc]
  obtain ⟨r, rest, drawn, fits, rfl⟩ | ⟨-, rfl⟩ := pullColour_next hs
  · exact .silent noEvent (.goesOn (.silent noEvent (busy_of_control (by simp [hc])) rfl rfl
      fun h => pull_inv h hc drawn fits))
  · exact .silent noEvent (coloursEnded_settled hc)

theorem pushSubBits_move (hc : control b = .encode) :
    Move s b (pushSubBits (unitBits s.params b.cfg (currentByte b) b.seq.enc) b s) := by
  have noEvent : pendingEvent s.params b = none := by simp [pendingEvent, hc]
  exact .silent noEvent (.goesOn (.silent noEvent (busy_of_control (by simp [hc])) rfl rfl
    fun h => encode_inv h hc (unitBits_length h.config _ _)))

theorem beginTransmit_move (hc : control b = .rendered) : Move s b (beginTransmit b s) := by
  have noEvent : pendingEvent s.params b = none := by simp [pendingEvent, hc]
  refine .silent noEvent ?_
  unfold beginTransmit
  split
  case isTrue pre =>
    have byteAtATime : isSingle b.cfg = false := by simp_all
    exact .goesOn (.silent noEvent (by simp) rfl rfl fun h => (beginTransmit_inv h hc).2.2 byteAtATime)
  case isFalse => exact .goesOn (.silent noEvent (by simp) rfl rfl fun h => (beginTransmit_inv h hc).2.1)

theorem bulkWrite_move {t : State} (hc : control b = .bulkWrite) (hs : bulkWrite b s = .next t) : Move s b t := by
  unfold bulkWrite at hs
  split at hs
  case h_1 => cases hs
  case h_2 bytes read =>
    have due : pendingEvent s.params b = some (.write bytes) := by simp [pendingEvent, hc, read]
    obtain rfl := Host.Outcome.next.inj hs
    refine .event due fun s' => ?_
    split
    case isTrue => exact .ends (.self fun _ => rfl)
    case isFalse byteAtATime =>
      exact .goesOn ⟨rfl, by simp, .inl ⟨rfl, rfl⟩, fun h => postLatch_inv h hc (by simpa using byteAtATime),
        fun _ => by simp [dueEvents_some due, Event.isSend, Event.isRead]⟩

theorem drainRead_move (hc : control b = .drain) : Move s b (drainRead b s) := by
  have due : pendingEvent s.params b = some .read := by simp [pendingEvent, hc]
  exact .event due fun s' => .ends ⟨rfl, rfl, rfl, rfl, fun _ => rfl, drained_inv⟩

/-- Every step inside a WRITE is a move. -/
theorem step_move {t : State} (hb : s.block = some b) (busy : b.seq.phase ≠ .idle) (hs : step s = .next t) :
    Move s b t := by
  have hp := step_params hs
  rw [step_busy hp hb] at hs
  cases hc : control b with simp only [hc] at hs
  | idle => exact absurd (controlAt_idle.1 hc) busy
  | dummy => exact execDummyByte_move hp hb hc hs
  | pull => exact pullColour_move hc hs
  | bulkWrite => exact bulkWrite_move hc hs
  | latch => obtain rfl := Host.Outcome.next.inj hs; exact latchOne_move hc
  | latchDone => obtain rfl := Host.Outcome.next.inj hs; exact afterLatch_move hc
  | encode => obtain rfl := Host.Outcome.next.inj hs; exact pushSubBits_move hc
  | emit => obtain rfl := Host.Outcome.next.inj hs; exact emitByte_move hc
  | rendered => obtain rfl := Host.Outcome.next.inj hs; exact beginTransmit_move hc
  | drain => obtain rfl := Host.Outcome.next.inj hs; exact drainRead_move hc

end Moves

end Sys2Proof.Machine
end

section
/-! What every step keeps: the invariant and the echo balance (spec/10_state.md R35 to R38). Inside a WRITE a step is a
`Move`; on a ready block it is a wait or one of the four things a command can do (`exec_command`). -/

namespace Sys2Proof.Machine

variable {s t : State} {b : Block}

/-! ### The invariant -/

theorem Settled.inv {p : Params} (h : Settled p b s t) (hs : s.params = p) (hp : paramsValid p = true)
    (hB : BlockInv p b) : Inv t := by
  subst hs
  cases h with
  | goesOn h => exact withBlock_inv hp (h.sound hB) h.busy
  | ends h =>
    refine ⟨hp, fun b' hb' => ?_, fun _ => rfl⟩
    obtain rfl := Option.some.inj hb'
    exact h.sound hB

theorem Move.inv (h : Move s b t) (hi : Inv s) (hb : s.block = some b) (busy : b.seq.phase ≠ .idle) : Inv t := by
  have hB := hi.block b hb
  cases h with
  | silent noEvent h => exact h.inv rfl hi.params hB
  | event due h => exact transact_inv hi hb busy fun _ _ => (h _).inv rfl hi.params hB

theorem construct_inv {encoder : Encoder} {f : NewFields} (hp : paramsValid s.params = true)
    (config : ConfigInv s.params (constructedConfig encoder f)) : Inv (construct encoder f s) :=
  report_inv hp fun b hb => by
    obtain rfl := Option.some.inj hb
    exact constructed_inv config

theorem exec_command_inv {i : Instr} (hi : Inv s) (ready : isBusy s = false) (hc : i.isCommand = true)
    (he : exec i s = .next t) : Inv t := by
  obtain ⟨f, rfl⟩ | ⟨f, clk, tp, derived, rfl⟩ | ⟨cause, rfl⟩ | ⟨b, cs, hb, fits, rfl⟩ :=
    exec_command ready hc he
  · exact construct_inv hi.params trivial
  · exact construct_inv hi.params (timingDerive_inv derived)
  · exact report_inv hi.params (by simp)
  · obtain ⟨sound, busy⟩ := start_inv (hi.block b hb) fits
    exact withBlock_inv (s := { s with trace := [] }) hi.params sound busy

/-- Settles O42: a move keeps the block sound, and a command on a ready block leaves no block, a new one, or a frame
just begun. -/
theorem stepKeepsInvariant : Obligations.StepKeepsInvariant := by
  unfold Obligations.StepKeepsInvariant
  intro s t hi hs
  obtain ready | ⟨b, hb, busy⟩ := idle_or_busy s
  · obtain rfl | ⟨i, rest, -, hc, he⟩ := step_ready_cases ready hs
    · exact hi
    · exact exec_command_inv (s := { s with cmds := rest }) ⟨hi.params, hi.block, hi.trace⟩ ready hc he
  · exact (step_move hb busy hs).inv hi hb busy

/-! ### The echo balance -/

theorem echoInv_of_ready (ready : isBusy t = false) : EchoInv t := fun b hb busy => by
  rw [isBusy_some hb] at ready
  exact absurd busy (by simpa using ready)

/-- A move adds its event to the trace, and in_flight counts it. -/
theorem Settled.echo {p : Params} {s' : State} (h : Settled p b s' t) (hB : BlockInv p b) {events : List Event}
    (traced : traceEvents s'.trace = events ++ dueEvents p b)
    (balance : events.countP Event.isSend = events.countP Event.isRead + b.seq.inFlight) : EchoInv t := by
  cases h with
  | goesOn h =>
    intro b' hb' _
    obtain rfl := Option.some.inj hb'
    have := h.echo hB
    simp only [State.withBlock_trace, traced, List.countP_append]
    omega
  | ends h => exact echoInv_of_ready rfl

theorem Move.echo (h : Move s b t) (hi : Inv s) (hb : s.block = some b) (busy : b.seq.phase ≠ .idle)
    (balance : EchoInv s) : EchoInv t := by
  have hB := hi.block b hb
  cases h with
  | silent noEvent h => exact h.echo hB (by simp [dueEvents_none noEvent]) (balance b hb busy)
  | event due h =>
    refine transact_induct balance (fun _ _ => balance) (fun _ _ _ => echoInv_of_ready rfl) fun received later _ => ?_
    exact (h _).echo hB (by simp [traceEvents, dueEvents_some due]) (balance b hb busy)

theorem exec_command_echo {i : Instr} (ready : isBusy s = false) (hc : i.isCommand = true) (he : exec i s = .next t) :
    EchoInv t := by
  obtain ⟨f, rfl⟩ | ⟨f, clk, tp, -, rfl⟩ | ⟨cause, rfl⟩ | ⟨b, cs, -, -, rfl⟩ := exec_command ready hc he
  · exact echoInv_of_ready rfl
  · exact echoInv_of_ready rfl
  · exact echoInv_of_ready rfl
  · intro b' hb' _
    obtain rfl := Option.some.inj hb'
    rfl

/-- Settles O44: the event of a move counts in the trace as it does in in_flight, and a WRITE begins with neither. -/
theorem stepKeepsEchoBalance : Obligations.StepKeepsEchoBalance := by
  unfold Obligations.StepKeepsEchoBalance
  intro s t hi balance hs
  obtain ready | ⟨b, hb, busy⟩ := idle_or_busy s
  · obtain rfl | ⟨i, rest, -, hc, he⟩ := step_ready_cases ready hs
    · exact balance
    · exact exec_command_echo (s := { s with cmds := rest }) ready hc he
  · exact (step_move hb busy hs).echo hi hb busy balance

end Sys2Proof.Machine
end

section
/-! What a step inside a WRITE leaves alone, and what it does with an answer of the transport (spec/20_memory.md R52;
spec/43_frame_sequencer.md R180, R182). -/

namespace Sys2Proof.Machine

variable {s t : State} {b : Block}

/-! ### The frame of a step -/

/-- What every step of the WRITE of block `b` keeps, apart from the answers. -/
structure BusyFrame (s : State) (b : Block) (t : State) : Prop where
  params : t.params = s.params
  cmds : t.cmds = s.cmds
  after : ∃ b', t.block = some b' ∧ b'.cfg = b.cfg ∧ KeepsOrAppends b b'
    ∧ ((t.observed = s.observed ∧ b'.seq.phase ≠ .idle)
      ∨ ∃ o, t.observed = s.observed ++ [o] ∧ b'.seq.phase = .idle ∧ t.trace = [] ∧ o.buf = b'.buf)

theorem Settled.frame {p : Params} (h : Settled p b s t) : BusyFrame s b t := by
  cases h with
  | goesOn h => exact ⟨rfl, rfl, _, rfl, h.cfg, h.buffer, .inl ⟨rfl, h.busy⟩⟩
  | ends h => exact ⟨rfl, rfl, _, rfl, h.cfg, .inl ⟨h.buf, h.cursor⟩, .inr ⟨_, rfl, rfl, rfl, rfl⟩⟩

theorem Move.frame (h : Move s b t) (hb : s.block = some b) (busy : b.seq.phase ≠ .idle) : BusyFrame s b t := by
  cases h with
  | silent noEvent h => exact h.frame
  | @event e next due h =>
    have held (answers : List Answer) : BusyFrame s b { s with answers := answers } :=
      ⟨rfl, rfl, b, hb, rfl, .inl ⟨rfl, rfl⟩, .inl ⟨rfl, busy⟩⟩
    refine transact_induct (held s.answers) (fun later _ => held later) (fun x later _ => ?_)
      fun received later _ => ?_
    · exact ⟨rfl, rfl, _, rfl, rfl, .inl ⟨rfl, rfl⟩, .inr ⟨_, rfl, rfl, rfl, rfl⟩⟩
    · obtain ⟨params, cmds, after⟩ := (h { s with
        answers := later, trace := s.trace ++ [(_, okReply _ received)] }).frame
      exact ⟨params, cmds, after⟩

theorem Settled.answers {p : Params} (h : Settled p b s t) : t.answers = s.answers := by cases h <;> rfl

/-- A move without an event takes no answer. -/
theorem Move.answers (h : Move s b t) (noEvent : pendingEvent s.params b = none) : t.answers = s.answers := by
  cases h with
  | silent _ h => exact h.answers
  | event due _ => cases noEvent.symm.trans due

theorem KeepsOrAppends.memRead_ne {b' : Block} (h : KeepsOrAppends b b') {i : Nat}
    (changed : memRead b'.buf i ≠ memRead b.buf i) :
    i = b.seq.cursor ∧ b.seq.phase = .encoding ∧ b'.seq.cursor = b.seq.cursor + 1 := by
  obtain ⟨buf, -⟩ | ⟨encoding, cursor, v, buf⟩ := h
  · exact absurd (by rw [buf]) changed
  · refine ⟨by_contra fun other => changed ?_, encoding, cursor⟩
    rw [buf, memRead_memWrite_ne _ _ other]

/-- Settles O34: the frame of a move. -/
theorem busyStepFrame : Obligations.BusyStepFrame := by
  unfold Obligations.BusyStepFrame
  intro s t b _ hb busy hs
  have move := step_move hb busy hs
  obtain ⟨params, cmds, b', hb', cfg, buffer, outcome⟩ := move.frame hb busy
  refine ⟨params, cmds, move.answers, b', hb', cfg, fun i => buffer.memRead_ne, ?_, outcome⟩
  obtain ⟨-, cursor⟩ | ⟨encoding, cursor, -⟩ := buffer
  · exact .inl cursor
  · exact .inr ⟨encoding, cursor⟩

/-! ### The transport's answers -/

/-- An event answered Ok is in the trace when its move is made. -/
theorem Move.settled {e : Event} {r : Byte} {later : List Answer} (h : Move s b t)
    (due : pendingEvent s.params b = some e) (answered : s.answers = .ok r :: later) :
    Settled s.params b { s with answers := later, trace := s.trace ++ [(e, okReply e r)] } t := by
  cases h with
  | silent noEvent _ => cases noEvent.symm.trans due
  | event due' h =>
    obtain rfl := Option.some.inj (due.symm.trans due')
    rw [transact_ok answered]
    exact h _

theorem Settled.observed {p : Params} (h : Settled p b s t) (event : (pendingEvent p b).isSome) :
    (t.trace = s.trace ∧ t.observed = s.observed)
      ∨ (t.trace = [] ∧ t.observed = s.observed ++ [⟨.ok, s.trace, b.buf, b.seq.colours⟩]) := by
  cases h with
  | goesOn h => exact .inl ⟨rfl, rfl⟩
  | ends h =>
    obtain rfl := h.okOfEvent event
    exact .inr ⟨rfl, by simp [h.buf, h.colours]⟩

theorem busy_of_pendingEvent {p : Params} {e : Event} (due : pendingEvent p b = some e) : b.seq.phase ≠ .idle :=
  busy_of_control fun idle => by simp [pendingEvent, idle] at due

/-- Settles O32: the step is the event (`step_transact`), which waits, fails or goes on. -/
theorem transportAnswers : Obligations.TransportAnswers := by
  unfold Obligations.TransportAnswers
  intro s b e hp hb due
  obtain ⟨next, hs⟩ := step_transact hp hb due
  refine ⟨fun later notReady => ?_, fun x later failed => ⟨?_, ?_⟩, fun r later answered => ?_⟩
  · rw [hs, transact_notReady notReady]
  · rw [hs, transact_err failed]
    rfl
  · cases e <;> rfl
  · have settled := (step_move hb (busy_of_pendingEvent due) hs).settled due answered
    exact ⟨_, hs, settled.answers, settled.observed (by simp [due])⟩

/-- Settles O37: the drain read, answered Ok, ends the WRITE with nothing in flight. -/
theorem finalDrainRead : Obligations.FinalDrainRead := by
  unfold Obligations.FinalDrainRead
  intro s b r later hp hb hc answered
  rw [step_drain hp hb hc, drainRead, transact_ok answered]
  rfl

/-! ### An issued byte -/

section Issued

variable {v : Byte} {advance : Seq → Seq} {r : Byte} {later : List Answer}

theorem exchange_send (notTwo : b.seq.inFlight ≠ 2) (answered : s.answers = .ok r :: later) :
    exchange v b advance s = State.withSeq { s with answers := later, trace := s.trace ++ [(.send v, .ok)] } b
      { b.seq with inFlight := 2 } := by
  rw [exchange, if_neg notTwo, transact_ok answered]
  rfl

theorem exchange_read (two : b.seq.inFlight = 2) (answered : s.answers = .ok r :: later) :
    exchange v b advance s = State.withSeq { s with answers := later, trace := s.trace ++ [(.read, .data r)] } b
      (advance { b.seq with inFlight := 1 }) := by
  rw [exchange, if_pos two, transact_ok answered]
  rfl

theorem groupFits_iff {cfg : BlockConfig} {cursor n : Nat} :
    groupFits cfg cursor n = true ↔ ∀ capacity, bufferCapacity cfg = some capacity → cursor + n ≤ capacity := by
  cases h : bufferCapacity cfg <;> simp [groupFits, h]

theorem emitByte_streaming (streaming : isStreaming b.cfg = true) :
    emitByte b s = exchange (packByte b.seq.acc) b (advancePosition b.cfg) s := if_pos streaming

theorem emitByte_bulk (bulk : isStreaming b.cfg = false) :
    emitByte b s = appendByte (encodedLength b.cfg - b.seq.sub) (packByte b.seq.acc) b (advancePosition b.cfg) s :=
  if_neg (by simp [bulk])

theorem latchOne_streaming (streaming : isStreaming b.cfg = true) :
    latchOne b s = exchange 0x00#8 b advanceLatch s := if_pos streaming

theorem latchOne_encoding (bulk : isStreaming b.cfg = false) (encoding : b.seq.phase = .encoding) :
    latchOne b s = appendByte b.seq.latchLeft 0x00#8 b advanceLatch s := by
  simp [latchOne, bulk, encoding]

theorem latchOne_bulk (bulk : isStreaming b.cfg = false) (transmitting : b.seq.phase ≠ .encoding) :
    latchOne b s = transact (.write [0x00#8]) b s fun s' => s'.withSeq b (advanceLatch b.seq) := by
  simp [latchOne, bulk, transmitting]

end Issued

/-- Settles O29: the exchange's send and its read, and the append. -/
theorem outputByteIssued : Obligations.OutputByteIssued := by
  unfold Obligations.OutputByteIssued
  intro s b hp hb hc
  rw [step_emit hp hb hc]
  refine ⟨fun r later streaming notTwo answered => ?_, fun r later streaming two answered => ?_, fun bulk fits => ?_⟩
  · rw [emitByte_streaming streaming, exchange_send notTwo answered]
    rfl
  · rw [emitByte_streaming streaming, exchange_read two answered]
    rfl
  · rw [emitByte_bulk bulk, appendByte_fits (groupFits_iff.2 fits)]
    rfl

/-- Settles O30: the exchange's send and its read, the append and the one-byte write; elsewhere the row is no
instruction. -/
theorem latchByteIssued : Obligations.LatchByteIssued := by
  unfold Obligations.LatchByteIssued
  refine fun s b hp hb => ⟨atControl_other hp hb, fun hc => ?_⟩
  rw [exec_latchByte hp hb hc]
  refine ⟨fun r later streaming notTwo answered => ?_, fun r later streaming two answered => ?_,
    fun bulk encoding fits => ?_, fun r later bulk transmitting answered => ?_⟩
  · rw [latchOne_streaming streaming, exchange_send notTwo answered]
    rfl
  · rw [latchOne_streaming streaming, exchange_read two answered]
    rfl
  · have left : max 1 b.seq.latchLeft = b.seq.latchLeft := Nat.max_eq_right (controlAt_latch.1 hc).1
    rw [latchOne_encoding bulk encoding, appendByte_fits (by rw [left]; exact groupFits_iff.2 fits)]
    rfl
  · rw [latchOne_bulk bulk transmitting, transact_ok answered]
    rfl

end Sys2Proof.Machine
end

section
/-! Construction and timing (spec/10_state.md R42, R43; spec/40_timing_model.md R100 to R113): what each NEW_* command
answers, where a block's configuration comes from, and the defaults of a NEW.* line. -/

namespace Sys2Proof.Machine

/-! ### The construction commands -/

section Commands

variable {s : State} (hp : paramsValid s.params = true)
include hp

theorem newFixed_busy (busy : isBusy s = true) (f : NewFields) : newFixed f s = .refused .busy := by
  rw [newFixed, underParams_valid hp, if_pos busy]

theorem newFixed_ready (ready : isBusy s = false) (f : NewFields) : newFixed f s = .next (construct .fixed4x f s) := by
  simp [newFixed, underParams_valid hp, ready]

theorem newTimed_busy (busy : isBusy s = true) (f : NewFields) (clk : Word) : newTimed f clk s = .refused .busy := by
  rw [newTimed, underParams_valid hp, if_pos busy]

theorem newTimed_error {clk : Word} {cause : TimingCause} (ready : isBusy s = false)
    (failed : timingDerive s.params clk.toNat = .error cause) (f : NewFields) :
    newTimed f clk s = .next (report (.invalidTiming cause) { s with block := none }) := by
  simp [newTimed, underParams_valid hp, ready, failed]

theorem newTimed_ok {clk : Word} {tp : TimingParameters} (ready : isBusy s = false)
    (derived : timingDerive s.params clk.toNat = .ok tp) (f : NewFields) :
    newTimed f clk s = .next (construct (.timed clk tp) f s) := by
  simp [newTimed, underParams_valid hp, ready, derived]

end Commands

/-- Settles O13: the block is the constructed one, field by field. -/
theorem newFixedConstructs : Obligations.NewFixedConstructs := by
  unfold Obligations.NewFixedConstructs
  refine fun f s hp => ⟨fun busy => ⟨newFixed_busy hp busy f, newFixed_busy hp busy _⟩,
    fun ready => ⟨newFixed_ready hp ready f, newFixed_ready hp ready _⟩⟩

/-! ### TIMING_DERIVE -/

section Derive

variable {p : Params} {clock : Nat}

theorem timingDerive_belowMinimum (below : clock < p.minClockHz) : timingDerive p clock = .error .belowMinimum :=
  if_pos below

theorem timingDerive_tooManySubBits (above : p.minClockHz ≤ clock) (long : p.maxTotal < deriveTotal p clock) :
    timingDerive p clock = .error .tooManySubBits := by
  rw [timingDerive, if_neg (by omega), if_pos long]

theorem timingDerive_invariant (above : p.minClockHz ≤ clock) (short : deriveTotal p clock ≤ p.maxTotal)
    (bad : ¬(1 ≤ deriveZeroHigh p clock ∧ deriveZeroHigh p clock ≤ deriveOneHigh p clock
      ∧ deriveOneHigh p clock < deriveTotal p clock)) : timingDerive p clock = .error .invariant := by
  rw [timingDerive, if_neg (by omega), if_neg (by omega), if_neg bad]

theorem timingDerive_accepted (above : p.minClockHz ≤ clock) (short : deriveTotal p clock ≤ p.maxTotal)
    (zero : deriveZeroHigh p clock ≤ deriveOneHigh p clock) (one : deriveOneHigh p clock < deriveTotal p clock) :
    timingDerive p clock
      = .ok ⟨deriveZeroHigh p clock, deriveOneHigh p clock, deriveTotal p clock, deriveResetBytes p clock⟩ := by
  rw [timingDerive, if_neg (by omega), if_neg (by omega), if_pos ⟨Nat.le_max_left 1 _, zero, one⟩]

end Derive

/-- Settles O8: each check of TIMING_DERIVE in turn (R100); the statement's `let`s are the derived counts. -/
theorem newTimedConstructs : Obligations.NewTimedConstructs := by
  unfold Obligations.NewTimedConstructs
  refine fun f clk s hp => ⟨fun busy => newTimed_busy hp busy f clk, fun ready => ⟨fun below => ?_,
    fun above long => ?_, fun above short bad => ?_, fun above short zero one => ?_⟩⟩
  · exact newTimed_error hp ready (timingDerive_belowMinimum below) f
  · exact newTimed_error hp ready (timingDerive_tooManySubBits above long) f
  · exact newTimed_error hp ready (timingDerive_invariant above short bad) f
  · exact newTimed_ok hp ready (timingDerive_accepted above short zero one) f

/-! ### Where a configuration comes from -/

/-- The configuration of the block after a step is the one before it, or that of the construction the step made. -/
theorem step_config {s t : State} {b' : Block} (hs : step s = .next t) (hb' : t.block = some b') :
    t.params = s.params ∧ ((∃ b, s.block = some b ∧ b'.cfg = b.cfg) ∨ b'.cfg.encoder = .fixed4x
      ∨ ∃ clk tp, timingDerive s.params clk.toNat = .ok tp ∧ b'.cfg.encoder = .timed clk tp) := by
  obtain ready | ⟨b, hb, busy⟩ := idle_or_busy s
  · obtain rfl | ⟨i, rest, -, hc, he⟩ := step_ready_cases ready hs
    · exact ⟨rfl, .inl ⟨b', hb', rfl⟩⟩
    · obtain ⟨f, rfl⟩ | ⟨f, clk, tp, derived, rfl⟩ | ⟨cause, rfl⟩ | ⟨b, cs, hb, -, rfl⟩ :=
        exec_command (s := { s with cmds := rest }) ready hc he
      · obtain rfl := Option.some.inj hb'
        exact ⟨rfl, .inr (.inl rfl)⟩
      · obtain rfl := Option.some.inj hb'
        exact ⟨rfl, .inr (.inr ⟨clk, tp, derived, rfl⟩)⟩
      · cases hb'
      · obtain rfl := Option.some.inj hb'
        exact ⟨rfl, .inl ⟨b, hb, rfl⟩⟩
  · obtain ⟨params, -, b'', hb'', cfg, -⟩ := (step_move hb busy hs).frame hb busy
    obtain rfl := Option.some.inj (hb'.symm.trans hb'')
    exact ⟨params, .inl ⟨b, hb, cfg⟩⟩

/-- Settles O12: there is no block at power-on, and a step keeps the configuration or derives a new one. -/
theorem stepKeepsDerivedTiming : Obligations.StepKeepsDerivedTiming := by
  unfold Obligations.StepKeepsDerivedTiming
  refine ⟨fun b clk tp hb => (by cases hb), fun s t derived hs b' clk tp hb' timed => ?_⟩
  obtain ⟨params, ⟨b, hb, cfg⟩ | fixed | ⟨clk', tp', constructed, timed'⟩⟩ := step_config hs hb'
  · rw [params]
    exact derived b clk tp hb (cfg ▸ timed)
  · cases fixed.symm.trans timed
  · cases timed'.symm.trans timed
    rw [params, constructed]

/-! ### Defaults -/

theorem optionFields_eq_some {o : NewOptions} {f : NewFields} (h : optionFields o = some f) :
    f.device = o.device.getD .threeChannel ∧ f.order = o.order.getD .grb ∧ f.preLatch = o.preLatch.getD false
      ∧ f.resetMode = o.resetMode.getD .byteAtATime := by
  obtain ⟨strategy, -, rfl⟩ := Option.map_eq_some_iff.1 h
  exact ⟨rfl, rfl, rfl, rfl⟩

theorem optionFields_eq_none {o : NewOptions} (h : optionStrategy o = none) : optionFields o = none := by
  simp [optionFields, h]

theorem assemble_newFixed_stream (dev : DeviceKind) : assemble dev "NEW.FIXED strat=stream".toList
    = some (.newFixed ⟨.threeChannel, .grb, false, .streaming, .byteAtATime⟩) := by
  cases dev <;> decide

theorem assemble_newFixed_incomplete (dev : DeviceKind) : assemble dev "NEW.FIXED dev=4".toList = none
    ∧ assemble dev "NEW.FIXED strat=prerender".toList = none := by
  cases dev <;> decide

/-- Settles O7: the fields are their options with R43's defaults, and the strategy has none. -/
theorem omittedFieldsDefault : Obligations.OmittedFieldsDefault := by
  unfold Obligations.OmittedFieldsDefault
  refine ⟨fun o f h => ?_, fun o noStrategy => optionFields_eq_none ?_,
    fun o prerender noCapacity => optionFields_eq_none ?_, assemble_newFixed_stream, assemble_newFixed_incomplete⟩
  · obtain ⟨device, order, preLatch, resetMode⟩ := optionFields_eq_some h
    refine ⟨fun h => ?_, fun h => ?_, fun h => ?_, fun h => ?_⟩ <;> simp [h, device, order, preLatch, resetMode]
  · simp [optionStrategy, noStrategy]
  · simp [optionStrategy, prerender, noCapacity]

end Sys2Proof.Machine
end

section
/-! The group that the Encoding phase appends (spec/20_memory.md R52, R53; spec/43_frame_sequencer.md R174, R175): what
is left of it at each of its bytes (`GroupLeft`), the step that appends the first of them (`step_append`), and by induction
on them the run that appends them all. -/

namespace Sys2Proof.Machine

/-! ### A run of bytes in BUF -/

/-- BUF after the bytes are written one by one from index `i` on (R52). -/
def memWriteAll (m : Memory) (i : Nat) : List Byte → Memory
  | [] => m
  | v :: bytes => memWriteAll (memWrite m i v) (i + 1) bytes

theorem memRead_memWriteAll_outside {m : Memory} {a i : Nat} {bytes : List Byte}
    (outside : i < a ∨ a + bytes.length ≤ i) : memRead (memWriteAll m a bytes) i = memRead m i := by
  induction bytes generalizing m a with
  | nil => rfl
  | cons v bytes ih =>
    rw [List.length_cons] at outside
    rw [memWriteAll, ih (by omega), memRead_memWrite_ne m v (by omega)]

theorem memReadRange_memWriteAll (m : Memory) (a : Nat) (bytes : List Byte) :
    memReadRange (memWriteAll m a bytes) a bytes.length = some bytes := by
  induction bytes generalizing m a with
  | nil => rfl
  | cons v bytes ih =>
    have first : memRead (memWriteAll m a (v :: bytes)) a = some v := by
      rw [memWriteAll, memRead_memWriteAll_outside (.inl (Nat.lt_succ_self a)), memRead_memWrite_same]
    have others : memReadRange (memWriteAll m a (v :: bytes)) (a + 1) bytes.length = some bytes := ih _ _
    simp only [List.length_cons, memReadRange, first, others]

/-! ### What is left of a group -/

/-- The Encoding phase has `bytes` still to append of the group at which block `b` stands: the rest of a channel byte
(R174), or of a latch (R175). -/
inductive GroupLeft (b : Block) (bytes : List Byte) : Prop
  | done (left : bytes = [])
  | channelByte (at_ : control b = .emit)
      (left : bytes = packBytes (encodedLength b.cfg - b.seq.sub) b.seq.acc)
  | latch (at_ : control b = .latch) (left : bytes = List.replicate b.seq.latchLeft 0x00#8)

/-- The check for one byte less, one index later, is the same check (log 12). -/
theorem groupFits_succ (cfg : BlockConfig) (cursor n : Nat) :
    groupFits cfg (cursor + 1) n = groupFits cfg cursor (n + 1) := by
  simp only [groupFits, Nat.add_right_comm cursor 1 n, Nat.add_assoc]

theorem groupFits_eq_false {cfg : BlockConfig} {cursor n capacity : Nat} (bounded : bufferCapacity cfg = some capacity)
    (long : capacity < cursor + n) : groupFits cfg cursor n = false := by
  simpa [groupFits, bounded] using long

section Append

variable {s : State} {b : Block} {v : Byte} {rest : List Byte}

/-- The output byte that leaves the accumulator leaves the rest of the channel byte to append. -/
theorem groupLeft_advancePosition (hc : control b = .emit)
    (left : rest = packBytes (encodedLength b.cfg - (b.seq.sub + 1)) (b.seq.acc.drop 8)) (cursor : Nat) (buf : Memory) :
    GroupLeft ⟨b.cfg, advancePosition b.cfg { b.seq with cursor := cursor }, buf⟩ rest := by
  by_cases more : b.seq.sub + 1 < encodedLength b.cfg
  · rw [advancePosition, if_pos more]
    exact .channelByte (controlAt_emit.2 (controlAt_emit.1 hc)) left
  · rw [Nat.sub_eq_zero_of_le (Nat.le_of_not_lt more)] at left
    exact .done left

theorem groupLeft_advanceLatch (encoding : b.seq.phase = .encoding)
    (left : rest = List.replicate (b.seq.latchLeft - 1) 0x00#8) (cursor : Nat) (buf : Memory) :
    GroupLeft ⟨b.cfg, advanceLatch { b.seq with cursor := cursor }, buf⟩ rest := by
  by_cases more : 0 < b.seq.latchLeft - 1
  · exact .latch (controlAt_latch.2 ⟨more, .inl encoding⟩) left
  · rw [Nat.eq_zero_of_not_pos more] at left
    exact .done left

/-- While bytes of a group are left, the step appends the first of them, under the check for all of them. -/
theorem step_append (hp : paramsValid s.params = true) (hb : s.block = some b) (bulk : isStreaming b.cfg = false)
    (encoding : b.seq.phase = .encoding) (group : GroupLeft b (v :: rest)) :
    ∃ advance, Advances s.params b advance ∧ step s = .next (appendByte (rest.length + 1) v b advance s)
      ∧ ∀ cursor buf, GroupLeft ⟨b.cfg, advance { b.seq with cursor := cursor }, buf⟩ rest := by
  cases group with
  | done left => cases left
  | channelByte hc left =>
    refine ⟨_, advancePosition_advances hc, ?_⟩
    obtain ⟨k, hk⟩ : ∃ k, encodedLength b.cfg - b.seq.sub = k + 1 :=
      Nat.exists_eq_succ_of_ne_zero fun none => by rw [none] at left; cases left
    have later : encodedLength b.cfg - (b.seq.sub + 1) = k := by omega
    rw [hk, packBytes] at left
    obtain ⟨rfl, rfl⟩ := List.cons.inj left
    rw [step_emit hp hb hc, emitByte_bulk bulk, hk, packBytes_length]
    exact ⟨rfl, groupLeft_advancePosition hc (by rw [later])⟩
  | latch hc left =>
    refine ⟨_, advanceLatch_advances hc, ?_⟩
    obtain ⟨k, hk⟩ : ∃ k, b.seq.latchLeft = k + 1 := Nat.exists_eq_succ_of_ne_zero (controlAt_latch.1 hc).1.ne'
    rw [hk, List.replicate_succ] at left
    obtain ⟨rfl, rfl⟩ := List.cons.inj left
    rw [step_latch hp hb hc, latchOne_encoding bulk encoding, hk, List.length_replicate]
    exact ⟨rfl, groupLeft_advanceLatch encoding (by rw [hk, Nat.add_sub_cancel])⟩

/-- A group that does not fit ends the WRITE before its first byte is written (R53). -/
theorem step_group_full (hp : paramsValid s.params = true) (hb : s.block = some b) (bulk : isStreaming b.cfg = false)
    (encoding : b.seq.phase = .encoding) (group : GroupLeft b (v :: rest))
    (full : groupFits b.cfg b.seq.cursor (rest.length + 1) = false) :
    step s = .next (endWrite .outOfBounds b s) := by
  obtain ⟨advance, -, hs, -⟩ := step_append hp hb bulk encoding group
  rw [hs, appendByte_full (by rwa [Nat.max_eq_right (Nat.succ_pos _)])]

/-- The first byte of a group that fits is written at the cursor. -/
theorem step_group_fits (hp : paramsValid s.params = true) (hb : s.block = some b) (bulk : isStreaming b.cfg = false)
    (encoding : b.seq.phase = .encoding) (group : GroupLeft b (v :: rest))
    (fits : groupFits b.cfg b.seq.cursor (rest.length + 1) = true) :
    ∃ b', step s = .next (s.withBlock b') ∧ b'.cfg = b.cfg ∧ b'.seq.phase = .encoding
      ∧ b'.seq.cursor = b.seq.cursor + 1 ∧ b'.buf = memWrite b.buf b.seq.cursor v ∧ GroupLeft b' rest := by
  obtain ⟨advance, adv, hs, next⟩ := step_append hp hb bulk encoding group
  rw [appendByte_fits (by rwa [Nat.max_eq_right (Nat.succ_pos _)])] at hs
  exact ⟨_, hs, rfl, (adv.phase _).trans encoding, adv.cursor _, rfl, next _ _⟩

end Append

/-- A group that fits is appended by a step per byte, and nothing but the block changes (R53). -/
theorem runSteps_group {bytes : List Byte} {s : State} {b : Block} (hp : paramsValid s.params = true)
    (hb : s.block = some b) (bulk : isStreaming b.cfg = false) (encoding : b.seq.phase = .encoding)
    (group : GroupLeft b bytes) (fits : groupFits b.cfg b.seq.cursor bytes.length = true) :
    ∃ b', runSteps bytes.length s = .next { s with block := some b' } ∧ b'.cfg = b.cfg
      ∧ b'.seq.cursor = b.seq.cursor + bytes.length ∧ b'.buf = memWriteAll b.buf b.seq.cursor bytes := by
  induction bytes generalizing s b with
  | nil => exact ⟨b, by rw [← hb]; rfl, rfl, rfl, rfl⟩
  | cons v bytes ih =>
    obtain ⟨c, first, cfg, phase, cursor, buf, groupNext⟩ := step_group_fits hp hb bulk encoding group fits
    have fitsNext : groupFits c.cfg c.seq.cursor bytes.length = true := by
      rw [cfg, cursor, groupFits_succ]
      exact fits
    obtain ⟨b', others, cfg', cursor', buf'⟩ :=
      ih (s := s.withBlock c) hp rfl (cfg ▸ bulk) phase groupNext fitsNext
    refine ⟨b', (runSteps_succ first _).trans others, cfg'.trans cfg, ?_, ?_⟩
    · rw [cursor', cursor, List.length_cons, Nat.add_right_comm, Nat.add_assoc]
    · rw [buf', buf, cursor, memWriteAll]

/-! ### A whole group -/

section Whole

variable {p : Params} {b : Block}

theorem BlockInv.bulk_of_encoding (h : BlockInv p b) (encoding : b.seq.phase = .encoding) :
    isStreaming b.cfg = false := by
  have strategyPhase := h.phase.strategyPhase
  by_contra streaming
  simp [streaming, encoding] at strategyPhase

/-- Before its first byte is appended, a channel byte's sub-bits are all in the accumulator (log 11). -/
theorem BlockInv.pack_acc (h : BlockInv p b) (hc : control b = .emit) (start : b.seq.sub = 0) :
    pack b.seq.acc = packBytes (encodedLength b.cfg) b.seq.acc := by
  have encoded : b.seq.enc = encoderUnits b.cfg :=
    Nat.le_antisymm h.position.ranges.2.2 (controlAt_emit.1 hc).2.1
  have acc := h.position.accumulator
  rw [start, encoded, units_length, Nat.mul_zero, Nat.add_zero] at acc
  rw [pack, acc, Nat.mul_div_cancel_left _ (by decide)]

/-- The two groups of R53, as the statement names them. -/
theorem BlockInv.groupLeft (h : BlockInv p b) {n : Nat} {bytes : List Byte}
    (group : (control b = .emit ∧ b.seq.sub = 0 ∧ n = encodedLength b.cfg ∧ bytes = pack b.seq.acc)
      ∨ (control b = .latch ∧ n = b.seq.latchLeft ∧ bytes = List.replicate n 0x00#8)) :
    GroupLeft b bytes ∧ bytes.length = n ∧ 0 < n := by
  obtain ⟨hc, start, rfl, rfl⟩ | ⟨hc, rfl, rfl⟩ := group
  · rw [h.pack_acc hc start]
    exact ⟨.channelByte hc (by rw [start, Nat.sub_zero]), packBytes_length _ _,
      Nat.lt_of_lt_of_le Nat.two_pos (encodedLength_pos h.config)⟩
  · exact ⟨.latch hc rfl, List.length_replicate, (controlAt_latch.1 hc).1⟩

end Whole

/-- Settles O35: the group that is left is the whole one, and it is checked at its first byte. -/
theorem groupAppendedWhole : Obligations.GroupAppendedWhole := by
  unfold Obligations.GroupAppendedWhole
  intro s b hi hb encoding n bytes group
  have bulk := (hi.block b hb).bulk_of_encoding encoding
  obtain ⟨left, rfl, nonempty⟩ := (hi.block b hb).groupLeft group
  refine ⟨fun capacity bounded long => ?_, fun fits => ?_⟩
  · obtain ⟨v, rest, rfl⟩ := List.exists_cons_of_length_pos nonempty
    exact step_group_full hi.params hb bulk encoding left (groupFits_eq_false bounded long)
  · obtain ⟨b', run, cfg, cursor, buf⟩ := runSteps_group hi.params hb bulk encoding left (groupFits_iff.2 fits)
    refine ⟨_, b', run, rfl, cfg, cursor, ?_, fun i outside => ?_, rfl, rfl, rfl⟩
    · rw [buf, memReadRange_memWriteAll]
    · rw [buf, memRead_memWriteAll_outside outside]

end Sys2Proof.Machine
end

section
/-! No fault and no refusal but the named ones (spec/20_memory.md R55, R66; spec/42_color_sequencer.md R154;
spec/60_exceptions.md R200, R206): a command is refused while a WRITE executes and never faults, and a sound busy block
always has a move, but for the one refused draw. -/

namespace Sys2Proof.Machine

variable {s : State} {b : Block}

/-! ### Commands -/

section Commands

variable (hp : paramsValid s.params = true)
include hp

theorem writeColours_busy (busy : isBusy s = true) (cs : ColourSource) : writeColours cs s = .refused .busy := by
  rw [writeColours, underParams_valid hp]
  cases hb : s.block with
  | none => simp [isBusy, hb] at busy
  | some b => exact if_pos busy

theorem exec_command_busy (busy : isBusy s = true) {i : Instr} (hc : i.isCommand = true) :
    exec i s = .refused .busy := by
  cases i with
  | newFixed f => exact newFixed_busy hp busy f
  | newTimed f clk => exact newTimed_busy hp busy f clk
  | new => exact newFixed_busy hp busy _
  | write cs => exact writeColours_busy hp busy cs
  | latch => exact writeColours_busy hp busy _
  | blank n => exact writeColours_busy hp busy _
  | lut00 | lut01 | lut10 | lut11 | timedBit0 | timedBit1 | latchByte | dummyByte => cases hc

theorem newFixed_ne_fault (ready : isBusy s = false) (f : NewFields) (r : Fault) : newFixed f s ≠ .fault r := by
  simp [newFixed_ready hp ready f]

theorem newTimed_ne_fault (ready : isBusy s = false) (f : NewFields) (clk : Word) (r : Fault) :
    newTimed f clk s ≠ .fault r := by
  cases derived : timingDerive s.params clk.toNat with
  | error cause => simp [newTimed_error hp ready derived f]
  | ok tp => simp [newTimed_ok hp ready derived f]

theorem writeColours_ne_fault (ready : isBusy s = false) (cs : ColourSource) (r : Fault) :
    writeColours cs s ≠ .fault r := by
  rw [writeColours, underParams_valid hp]
  cases s.block with
  | none => nofun
  | some b => cases fits : sourceFits b.cfg.device cs <;> simp [ready, fits]

theorem exec_command_ne_fault (ready : isBusy s = false) {i : Instr} (hc : i.isCommand = true) (r : Fault) :
    exec i s ≠ .fault r := by
  cases i with
  | newFixed f => exact newFixed_ne_fault hp ready f r
  | newTimed f clk => exact newTimed_ne_fault hp ready f clk r
  | new => exact newFixed_ne_fault hp ready _ r
  | write cs => exact writeColours_ne_fault hp ready cs r
  | latch => exact writeColours_ne_fault hp ready _ r
  | blank n => exact writeColours_ne_fault hp ready _ r
  | lut00 | lut01 | lut10 | lut11 | timedBit0 | timedBit1 | latchByte | dummyByte => cases hc

theorem step_ready_ne_fault (ready : isBusy s = false) (r : Fault) : step s ≠ .fault r := by
  obtain ⟨run, refuse⟩ := step_decode hp ready
  by_cases noWords : s.cmds = []
  · simp [step_ready hp ready, stepCommand_nil noWords]
  · cases decoded : decode s.cmds with
    | error e => simp [refuse e noWords decoded]
    | ok command =>
      rw [run command.1 command.2 decoded]
      exact exec_command_ne_fault (s := { s with cmds := command.2 }) hp ready (decode_isCommand decoded) r

end Commands

/-- Settles O14: every command looks whether a WRITE executes, and no move of a WRITE takes a command word. -/
theorem busyRefusesCommands : Obligations.BusyRefusesCommands := by
  unfold Obligations.BusyRefusesCommands
  refine fun s hp busy => ⟨fun i => exec_command_busy hp busy, fun t hs => ?_⟩
  obtain ⟨b, hb, inWrite⟩ := (idle_or_busy s).resolve_left (by simp [busy])
  exact ((step_move hb inWrite hs).frame hb inWrite).cmds

/-! ### The moves of a WRITE -/

/-- A host stream hands block `b` a colour record of the other kind (R154). -/
def DrawsOtherKind (b : Block) : Prop :=
  ∃ id pos r, b.seq.colours = .stream id pos ∧ Config.hostStream id pos = some r
    ∧ recordChannels r ≠ channelCount b.cfg.device

theorem pullColour_next_or_refused {p : Params} (h : BlockInv p b) (s : State) :
    (∃ t, pullColour b s = .next t) ∨ (pullColour b s = .refused .colourMismatch ∧ DrawsOtherKind b) := by
  cases hcol : b.seq.colours with
  | listed cs =>
    cases cs with
    | nil => exact .inl ⟨_, pullColour_nil hcol⟩
    | cons c cs => exact .inl ⟨_, pullColour_cons h hcol⟩
  | stream id pos =>
    cases drawn : Config.hostStream id pos with
    | none => exact .inl ⟨coloursEnded b s, by simp [pullColour, nextColour, hcol, drawn]⟩
    | some r =>
      have next : nextColour b.cfg.device b.seq.colours = some (r, .stream id (pos + 1)) := by
        simp [nextColour, hcol, drawn]
      rw [pullColour, next]
      by_cases kind : recordChannels r = channelCount b.cfg.device
      · exact .inl ⟨_, if_pos (decide_eq_true kind)⟩
      · exact .inr ⟨if_neg (by simpa [recordFits] using kind), id, pos, r, hcol, drawn, kind⟩

/-- The bulk write reads only bytes that are written (R55). -/
theorem bulkWrite_next {p : Params} (h : BlockInv p b) (s : State) : ∃ t, bulkWrite b s = .next t := by
  have written : (memReadRange b.buf 0 b.seq.cursor).isSome :=
    memReadRange_isSome fun k below => by simpa using h.buffer.written k below
  obtain ⟨bytes, read⟩ := Option.isSome_iff_exists.1 written
  exact ⟨_, by rw [bulkWrite, read]⟩

/-- Inside a WRITE a sound block has a next state, or draws a colour of the other kind. -/
theorem step_busy_next_or_refused (hi : Inv s) (hb : s.block = some b) (busy : b.seq.phase ≠ .idle) :
    (∃ t, step s = .next t) ∨ (step s = .refused .colourMismatch ∧ control b = .pull ∧ DrawsOtherKind b) := by
  have hB := hi.block b hb
  rw [step_busy hi.params hb]
  cases hc : control b with
  | idle => exact absurd (controlAt_idle.1 hc) busy
  | dummy => exact .inl ⟨_, atControl_at hi.params hb hc⟩
  | pull => exact (pullColour_next_or_refused hB s).imp_right fun refused => ⟨refused.1, rfl, refused.2⟩
  | bulkWrite => exact .inl (bulkWrite_next hB s)
  | latch | latchDone | encode | emit | rendered | drain => exact .inl ⟨_, rfl⟩

/-- Settles O40: a ready block never faults, and a busy one has a next state but for the refused draw. -/
theorem soundStepsNeverFault : Obligations.SoundStepsNeverFault := by
  unfold Obligations.SoundStepsNeverFault
  intro s hi
  obtain ready | ⟨b, hb, busy⟩ := idle_or_busy s
  · exact ⟨step_ready_ne_fault hi.params ready, by simp [ready]⟩
  · obtain ⟨t, hs⟩ | ⟨hs, hc, id, pos, r, draw⟩ := step_busy_next_or_refused hi hb busy
    · exact ⟨by simp [hs], fun _ => .inl ⟨t, hs⟩⟩
    · exact ⟨by simp [hs], fun _ => .inr ⟨hs, b, id, pos, r, hb, hc, draw⟩⟩

end Sys2Proof.Machine
end

section
/-! What a word sequence that decodes is (spec/30_encoding.md R70 to R78): the decoder's answers taken apart, once each, and
the encoder on what they name. -/

namespace Sys2Proof

/-- Settles O2: the decoder reads back each core command (`decode_encode`), and a pseudo-command has the words of one. -/
theorem decodeOfEncode : Obligations.DecodeOfEncode := by
  unfold Obligations.DecodeOfEncode
  exact fun i rest hc hw => decode_encode hc hw rest

section Decoded

variable {w : Word} {ops rest : List Word}

/-! ### The fields -/

theorem decodeDevice_code (w : Word) : (decodeDevice w).code.toNat = w.toNat / 2 ^ 8 % 2 := by
  rw [← Nat.toNat_testBit]
  change _ = (w.getLsbD 8).toNat
  unfold decodeDevice
  cases w.getLsbD 8 <;> rfl

theorem decodeResetMode_code (w : Word) : (decodeResetMode w).code.toNat = w.toNat / 2 ^ 15 % 2 := by
  rw [← Nat.toNat_testBit]
  change _ = (w.getLsbD 15).toNat
  unfold decodeResetMode
  cases w.getLsbD 15 <;> rfl

theorem decodeOrder_code {order : PixelOrder} (h : decodeOrder w = some order) :
    (w.extractLsb' 9 3).toNat = order.code.toNat := by
  unfold decodeOrder at h
  split at h
  case h_7 => cases h
  all_goals
    obtain rfl := Option.some.inj h
    assumption

/-- The strategy field and its operands, which are taken off the words (R72, R74). -/
theorem decodeStrategy_ok {strategy : Strategy} (h : decodeStrategy w ops = .ok (strategy, rest)) :
    (w.extractLsb' 13 2).toNat = strategy.code.toNat ∧ ops = strategy.operands ++ rest := by
  unfold decodeStrategy at h
  split at h
  · cases h
    exact ⟨‹_›, rfl⟩
  · split at h
    · cases h
    · cases h
      exact ⟨‹_›, rfl⟩
  · cases h
    exact ⟨‹_›, rfl⟩
  · cases h

theorem decodeNewFields_ok {f : NewFields} (h : decodeNewFields w ops = .ok (f, rest)) :
    w.extractLsb' 16 16 = 0#16 ∧ decodeOrder w = some f.order ∧ decodeStrategy w ops = .ok (f.strategy, rest)
      ∧ f.device = decodeDevice w ∧ f.preLatch = w.getLsbD 12 ∧ f.resetMode = decodeResetMode w := by
  unfold decodeNewFields at h
  split at h
  · split at h
    · cases h
    · split at h
      · cases h
      · cases h
        exact ⟨‹_›, ‹_›, ‹_›, rfl, rfl, rfl⟩
  · cases h

/-- Every bit of the word is a field's or a reserved zero (R71). -/
theorem decodeNewFields_spelling {op : Word} {f : NewFields} (hop : (w.extractLsb' 0 8).toNat = op.toNat)
    (h : decodeNewFields w ops = .ok (f, rest)) : w = commandWord op f ∧ ops = f.strategy.operands ++ rest := by
  obtain ⟨reserved, order, strategy, device, preLatch, resetMode⟩ := decodeNewFields_ok h
  obtain ⟨strategyCode, operands⟩ := decodeStrategy_ok strategy
  refine ⟨BitVec.eq_of_toNat_eq ?_, operands⟩
  have orderCode := decodeOrder_code order
  have flag : (w.getLsbD 12).toNat = w.toNat / 2 ^ 12 % 2 := Nat.toNat_testBit ..
  have size := w.isLt
  rw [← BitVec.toNat_inj] at reserved
  simp only [BitVec.extractLsb'_toNat, Nat.shiftRight_eq_div_pow, BitVec.toNat_ofNat] at hop reserved orderCode strategyCode
  rw [commandWord_toNat (by omega), device, preLatch, resetMode, decodeDevice_code, decodeResetMode_code, flag]
  omega

theorem Strategy.operands_length (s : Strategy) : s.operands.length = if s.code.toNat = 1 then 1 else 0 := by
  cases s <;> rfl

/-! ### The command -/

theorem decodeNewFixed_ok {i : Instr} (h : decodeNewFixed w ops = .ok (i, rest)) :
    ∃ f, decodeNewFields w ops = .ok (f, rest) ∧ i = .newFixed f := by
  unfold decodeNewFixed at h
  split at h
  · cases h
  · cases h
    exact ⟨_, ‹_›, rfl⟩

theorem decodeNewTimed_ok {i : Instr} (h : decodeNewTimed w ops = .ok (i, rest)) :
    ∃ f clockHz ops', ops = clockHz :: ops' ∧ decodeNewFields w ops' = .ok (f, rest) ∧ i = .newTimed f clockHz := by
  unfold decodeNewTimed at h
  split at h
  · cases h
  · split at h
    · cases h
    · cases h
      exact ⟨_, _, _, rfl, ‹_›, rfl⟩

theorem decodeWrite_ok {i : Instr} (h : decodeWrite w ops = .ok (i, rest)) :
    w.extractLsb' 8 24 = 0#24 ∧ ∃ count words, ops = count :: words ∧ count.toNat ≤ words.length
      ∧ rest = words.drop count.toNat ∧ i = .write (.listed ((words.take count.toNat).map decodeColour)) := by
  unfold decodeWrite at h
  split at h
  · split at h
    · cases h
    · split at h
      · cases h
        exact ⟨‹_›, _, _, rfl, ‹_›, rfl, rfl⟩
      · cases h
  · cases h

/-- The opcode chooses one of three decoders (R71). -/
theorem decode_ok {i : Instr} (h : decode (w :: ops) = .ok (i, rest)) :
    ((w.extractLsb' 0 8).toNat = 1 ∧ decodeNewFixed w ops = .ok (i, rest))
    ∨ ((w.extractLsb' 0 8).toNat = 2 ∧ decodeNewTimed w ops = .ok (i, rest))
    ∨ ((w.extractLsb' 0 8).toNat = 3 ∧ decodeWrite w ops = .ok (i, rest)) := by
  simp only [decode] at h
  split at h
  · exact .inl ⟨‹_›, h⟩
  · exact .inr (.inl ⟨‹_›, h⟩)
  · exact .inr (.inr ⟨‹_›, h⟩)
  · cases h

/-! ### Encode after decode -/

theorem colourWord_decodeColour (w : Word) : colourWord (decodeColour w) = w := by
  change w.extractLsb' 24 8 ++ w.extractLsb' 16 8 ++ w.extractLsb' 8 8 ++ w.extractLsb' 0 8 = w
  rw [BitVec.extractLsb'_append_extractLsb'_eq_extractLsb' (rfl : 24 = 16 + 8),
    BitVec.extractLsb'_append_extractLsb'_eq_extractLsb' (rfl : 16 = 8 + 8),
    BitVec.extractLsb'_append_extractLsb'_eq_extractLsb' (rfl : 8 = 0 + 8)]
  exact BitVec.extractLsb'_eq_self

/-- A WRITE word has no bits but its opcode (R71). -/
theorem writeWord_eq (opcode : (w.extractLsb' 0 8).toNat = 3) (reserved : w.extractLsb' 8 24 = 0#24) : w = 3#32 := by
  apply BitVec.eq_of_toNat_eq
  have size := w.isLt
  rw [← BitVec.toNat_inj] at reserved
  simp only [BitVec.extractLsb'_toNat, Nat.shiftRight_eq_div_pow, BitVec.toNat_ofNat] at opcode reserved ⊢
  omega

theorem countFits_toNat (count : Word) : countFits count.toNat = true := countFits_iff.2 count.isLt

/-- The words of as many colour words as the count says, read as colours. -/
theorem colourWords_decoded {count : Word} {words : List Word} (fits : count.toNat ≤ words.length) :
    colourWords (.listed ((words.take count.toNat).map decodeColour)) = count :: words.take count.toNat := by
  have spelled : colourWord ∘ decodeColour = id := funext colourWord_decodeColour
  simp [colourWords, countedWords, fits, countFits_toNat, spelled]

theorem encode_decode {ws : List Word} {i : Instr} (h : decode ws = .ok (i, rest)) :
    encode i ++ rest = ws ∧ i.WellFormed = true ∧ i.expand = i := by
  cases ws with
  | nil => cases h
  | cons w ops =>
    obtain ⟨opcode, hd⟩ | ⟨opcode, hd⟩ | ⟨opcode, hd⟩ := decode_ok h
    · obtain ⟨f, fields, rfl⟩ := decodeNewFixed_ok hd
      obtain ⟨rfl, rfl⟩ := decodeNewFields_spelling (op := 1#32) opcode fields
      exact ⟨rfl, rfl, rfl⟩
    · obtain ⟨f, clockHz, ops', rfl, fields, rfl⟩ := decodeNewTimed_ok hd
      obtain ⟨rfl, rfl⟩ := decodeNewFields_spelling (op := 2#32) opcode fields
      exact ⟨rfl, rfl, rfl⟩
    · obtain ⟨reserved, count, words, rfl, fits, rfl, rfl⟩ := decodeWrite_ok hd
      obtain rfl := writeWord_eq opcode reserved
      refine ⟨?_, ?_, rfl⟩
      · rw [encode, colourWords_decoded fits, List.cons_append, List.cons_append, List.take_append_drop]
      · simp [Instr.WellFormed, ColourSource.spelled, fits, countFits_toNat]

end Decoded

/-- Settles O3: what decodes is one of three commands (`decode_ok`), each of which is spelled back. -/
theorem encodeOfDecode : Obligations.EncodeOfDecode := by
  unfold Obligations.EncodeOfDecode
  intro ws i rest h
  obtain ⟨words, wellFormed, core⟩ := encode_decode h
  exact ⟨words, Machine.decode_isCommand h, wellFormed, core⟩

end Sys2Proof
end

section
/-! What a command's words fix (spec/30_encoding.md R72, R75, R78): how many operand words it takes, which bits of its word
do not matter to that, and the words that are no command. -/

namespace Sys2Proof

section Length

variable {w : Word} {ops rest : List Word}

/-! ### The operand words -/

/-- The fields take one operand word, the capacity, exactly for strategy 1 (R72). -/
theorem decodeNewFields_operands {f : NewFields} (h : decodeNewFields w ops = .ok (f, rest)) :
    ops = f.strategy.operands ++ rest
      ∧ f.strategy.operands.length = if (w.extractLsb' 13 2).toNat = 1 then 1 else 0 := by
  obtain ⟨-, -, strategy, -⟩ := decodeNewFields_ok h
  obtain ⟨code, operands⟩ := decodeStrategy_ok strategy
  exact ⟨operands, by rw [code, f.strategy.operands_length]⟩

/-- The operand words of what decodes, counted as R72 does. -/
theorem decode_operands {i : Instr} (h : decode (w :: ops) = .ok (i, rest)) :
    ∃ n, n ≤ ops.length ∧ rest = ops.drop n
      ∧ ((w.extractLsb' 0 8).toNat = 1 → n = if (w.extractLsb' 13 2).toNat = 1 then 1 else 0)
      ∧ ((w.extractLsb' 0 8).toNat = 2 → n = if (w.extractLsb' 13 2).toNat = 1 then 2 else 1)
      ∧ ((w.extractLsb' 0 8).toNat = 3 → ∃ count, ops.head? = some count ∧ n = 1 + count.toNat) := by
  obtain ⟨opcode, hd⟩ | ⟨opcode, hd⟩ | ⟨opcode, hd⟩ := decode_ok h
  · obtain ⟨f, fields, -⟩ := decodeNewFixed_ok hd
    obtain ⟨rfl, length⟩ := decodeNewFields_operands fields
    exact ⟨f.strategy.operands.length, by simp, by simp, by simp [length], by simp [opcode], by simp [opcode]⟩
  · obtain ⟨f, clockHz, ops', rfl, fields, -⟩ := decodeNewTimed_ok hd
    obtain ⟨rfl, length⟩ := decodeNewFields_operands fields
    refine ⟨f.strategy.operands.length + 1, by simp, by simp, by simp [opcode], fun _ => ?_, by simp [opcode]⟩
    rw [length]
    split <;> rfl
  · obtain ⟨-, count, words, rfl, fits, rfl, -⟩ := decodeWrite_ok hd
    exact ⟨1 + count.toNat, by simpa [Nat.add_comm] using fits, by simp [Nat.add_comm 1], by simp [opcode],
      by simp [opcode], fun _ => ⟨count, rfl, rfl⟩⟩

/-! ### The bits that do not matter -/

/-- Flipping bits of a mask leaves a field outside the mask. -/
theorem extract_xor_flags {flags kept : Word} (inMask : flags &&& kept = 0#32) {start len : Nat}
    (outside : kept.extractLsb' start len = BitVec.allOnes len) :
    (w ^^^ flags).extractLsb' start len = w.extractLsb' start len := by
  have unset : flags.extractLsb' start len = 0#len := by
    rw [← BitVec.and_allOnes (x := flags.extractLsb' start len), ← outside, ← BitVec.extractLsb'_and, inMask]
    simp
  rw [BitVec.extractLsb'_xor, unset, BitVec.xor_zero]

/-- Whether a NEW_* word decodes, and what it leaves, depends on its reserved bits, order and strategy alone. -/
theorem decodeNewFields_rest_congr {w' : Word} {f : NewFields} (reserved : w'.extractLsb' 16 16 = w.extractLsb' 16 16)
    (order : w'.extractLsb' 9 3 = w.extractLsb' 9 3) (strategy : w'.extractLsb' 13 2 = w.extractLsb' 13 2)
    (h : decodeNewFields w ops = .ok (f, rest)) : ∃ f', decodeNewFields w' ops = .ok (f', rest) := by
  obtain ⟨zero, hasOrder, hasStrategy, -⟩ := decodeNewFields_ok h
  have order' : decodeOrder w' = some f.order := by rw [← hasOrder, decodeOrder, order, decodeOrder]
  have strategy' : decodeStrategy w' ops = .ok (f.strategy, rest) := by
    rw [← hasStrategy, decodeStrategy.eq_def, strategy, decodeStrategy.eq_def]
  exact ⟨⟨decodeDevice w', f.order, w'.getLsbD 12, f.strategy, decodeResetMode w'⟩,
    by simp only [decodeNewFields, reserved, zero, if_true, order', strategy']⟩

/-- The device, pre_latch and reset_mode bits leave the length of a NEW_* command (R75). -/
theorem decode_xor_flags {flags : Word} {i : Instr} (h : decode (w :: ops) = .ok (i, rest))
    (inMask : flags &&& 0xFFFF6EFF#32 = 0#32) (notWrite : (w.extractLsb' 0 8).toNat ≠ 3) :
    ∃ i', decode ((w ^^^ flags) :: ops) = .ok (i', rest) := by
  have opcode' := extract_xor_flags (w := w) inMask (start := 0) (len := 8) (by decide)
  have reserved := extract_xor_flags (w := w) inMask (start := 16) (len := 16) (by decide)
  have order := extract_xor_flags (w := w) inMask (start := 9) (len := 3) (by decide)
  have strategy := extract_xor_flags (w := w) inMask (start := 13) (len := 2) (by decide)
  obtain ⟨opcode, hd⟩ | ⟨opcode, hd⟩ | ⟨opcode, -⟩ := decode_ok h
  · obtain ⟨f, fields, -⟩ := decodeNewFixed_ok hd
    obtain ⟨f', fields'⟩ := decodeNewFields_rest_congr reserved order strategy fields
    exact ⟨.newFixed f', by simp [decode, opcode', opcode, decodeNewFixed, fields']⟩
  · obtain ⟨f, clockHz, ops', rfl, fields, -⟩ := decodeNewTimed_ok hd
    obtain ⟨f', fields'⟩ := decodeNewFields_rest_congr reserved order strategy fields
    exact ⟨.newTimed f' clockHz, by simp [decode, opcode', opcode, decodeNewTimed, fields']⟩
  · exact absurd opcode notWrite

/-! ### Reserved words -/

/-- The order and strategy codes of R73 and R74, and R71's zeros, in a NEW_* word that decodes. -/
theorem decodeNewFields_unreserved {f : NewFields} (h : decodeNewFields w ops = .ok (f, rest)) :
    (w.extractLsb' 9 3).toNat < 6 ∧ (w.extractLsb' 13 2).toNat < 3 ∧ w.extractLsb' 16 16 = 0#16 := by
  obtain ⟨reserved, order, strategy, -⟩ := decodeNewFields_ok h
  exact ⟨decodeOrder_code order ▸ f.order.code_toNat_lt, (decodeStrategy_ok strategy).1 ▸ f.strategy.code_toNat_lt, reserved⟩

/-- What decodes has an opcode of R71 and nothing that R78 reserves. -/
theorem decode_unreserved {i : Instr} (h : decode (w :: ops) = .ok (i, rest)) :
    ((w.extractLsb' 0 8).toNat = 3 ∧ w.extractLsb' 8 24 = 0#24)
    ∨ (((w.extractLsb' 0 8).toNat = 1 ∨ (w.extractLsb' 0 8).toNat = 2)
      ∧ (w.extractLsb' 9 3).toNat < 6 ∧ (w.extractLsb' 13 2).toNat < 3 ∧ w.extractLsb' 16 16 = 0#16) := by
  obtain ⟨opcode, hd⟩ | ⟨opcode, hd⟩ | ⟨opcode, hd⟩ := decode_ok h
  · obtain ⟨f, fields, -⟩ := decodeNewFixed_ok hd
    exact .inr ⟨.inl opcode, decodeNewFields_unreserved fields⟩
  · obtain ⟨f, clockHz, ops', -, fields, -⟩ := decodeNewTimed_ok hd
    exact .inr ⟨.inr opcode, decodeNewFields_unreserved fields⟩
  · exact .inl ⟨opcode, (decodeWrite_ok hd).1⟩

end Length

/-- Settles O5: the operand words counted, and the flags left out of every field that the decoder chooses by. -/
theorem commandLengthFixed : Obligations.CommandLengthFixed := by
  unfold Obligations.CommandLengthFixed
  exact fun w ops i rest h => ⟨decode_operands h, fun flags => decode_xor_flags h⟩

end Sys2Proof
end

section
/-! What is refused: words that do not decode, and a colour of the other kind (spec/30_encoding.md R78;
spec/42_color_sequencer.md R154). -/

namespace Sys2Proof.Machine

variable {s : State} {b : Block} (hp : paramsValid s.params = true)

/-! ### A colour of the other kind -/

theorem sourceFits_listed_eq_false {dev : DeviceKind} {cs : List Colour} :
    sourceFits dev (.listed cs) = false ↔ dev = .threeChannel ∧ ∃ c ∈ cs, c.w ≠ 0x00#8 := by
  cases dev <;> simp [sourceFits, Colour.fits]

theorem colour_fits_eq_false {dev : DeviceKind} {c : Colour} :
    Colour.fits dev c = false ↔ dev = .threeChannel ∧ c.w ≠ 0x00#8 := by
  cases dev <;> simp [Colour.fits]

include hp in
theorem exec_write_colourMismatch (hb : s.block = some b) (idle : b.seq.phase = .idle) (cs : List Colour) :
    exec (.write (.listed cs)) s = .refused .colourMismatch
      ↔ b.cfg.device = .threeChannel ∧ ∃ c ∈ cs, c.w ≠ 0x00#8 := by
  have ready : isBusy s = false := by simp [isBusy_some hb, idle]
  rw [← sourceFits_listed_eq_false]
  change writeColours _ s = _ ↔ _
  cases fits : sourceFits b.cfg.device (.listed cs) <;> simp [writeColours, underParams_valid hp, hb, ready, fits]

/-- The pull refuses a record of the other kind and nothing else. -/
theorem pullColour_colourMismatch :
    pullColour b s = .refused .colourMismatch
      ↔ ∃ r rest, nextColour b.cfg.device b.seq.colours = some (r, rest) ∧ recordFits b.cfg.device r = false := by
  cases next : nextColour b.cfg.device b.seq.colours with
  | none => simp [pullColour, next]
  | some drawn => cases fits : recordFits b.cfg.device drawn.1 <;> simp [pullColour, next, fits, Prod.ext_iff]

/-- What next() draws that the device lacks: a listed colour or a stream's record. -/
theorem nextColour_unfit {dev : DeviceKind} {src : ColourSource} :
    (∃ r rest, nextColour dev src = some (r, rest) ∧ recordFits dev r = false)
      ↔ (dev = .threeChannel ∧ ∃ c cs, src = .listed (c :: cs) ∧ c.w ≠ 0x00#8)
        ∨ ∃ id pos r, src = .stream id pos ∧ Config.hostStream id pos = some r
            ∧ recordChannels r ≠ channelCount dev := by
  cases src with
  | listed cs =>
    cases cs with
    | nil => simp [nextColour]
    | cons c cs => simp [nextColour, record_fits, colour_fits_eq_false]
  | stream id pos => cases drawn : Config.hostStream id pos <;> simp [nextColour, drawn, recordFits]

/-- Settles O17: the WRITE looks at the listed colours, the pull at what next() draws. -/
theorem colourMismatchRefused : Obligations.ColourMismatchRefused := by
  unfold Obligations.ColourMismatchRefused
  refine fun s b hp hb => ⟨exec_write_colourMismatch hp hb, fun hc => ?_⟩
  have pull : step s = pullColour b s := by simp [step_busy hp hb, hc]
  rw [pull, pullColour_colourMismatch, nextColour_unfit]

/-! ### Reserved words -/

include hp in
/-- A ready block refuses words that do not decode. -/
theorem step_undecodable (ready : isBusy s = false) {w : Word} {ops : List Word} (hw : s.cmds = w :: ops)
    (undecodable : ∀ i rest, decode (w :: ops) ≠ .ok (i, rest)) : ∃ e, step s = .refused (.undecodable e) := by
  cases hd : decode (w :: ops) with
  | error e => exact ⟨e, (step_decode hp ready).2 e (by simp [hw]) (hw ▸ hd)⟩
  | ok command => exact absurd hd (undecodable command.1 command.2)

/-- A WRITE whose colour words are all there. -/
theorem decode_write_words {count : Word} {words : List Word} (fits : count.toNat ≤ words.length) :
    decode (3#32 :: count :: words)
      = .ok (.write (.listed ((words.take count.toNat).map decodeColour)), words.drop count.toNat) := by
  simp [decode, decodeWrite, fits]

include hp in
/-- A four-channel colour word is refused by the WRITE of a three-channel block. -/
theorem step_write_colourMismatch (ready : isBusy s = false) (hb : s.block = some b)
    (three : b.cfg.device = .threeChannel) {count : Word} {words : List Word} (hw : s.cmds = 3#32 :: count :: words)
    (fits : count.toNat ≤ words.length) (white : ∃ colour ∈ words.take count.toNat, colour.extractLsb' 0 8 ≠ 0#8) :
    step s = .refused .colourMismatch := by
  have idle : b.seq.phase = .idle := by simpa [isBusy_some hb] using ready
  obtain ⟨colour, listed, hasWhite⟩ := white
  rw [(step_decode hp ready).1 _ _ (hw ▸ decode_write_words fits)]
  exact (exec_write_colourMismatch (s := { s with cmds := words.drop count.toNat }) hp hb idle _).2
    ⟨three, decodeColour colour, List.mem_map_of_mem listed, hasWhite⟩

/-- Settles O4: a reserved code is not in a word that decodes (`decode_unreserved`), and neither is a missing operand
(`decode_operands`). -/
theorem reservedEncodingsRefused : Obligations.ReservedEncodingsRefused := by
  unfold Obligations.ReservedEncodingsRefused
  intro s w ops hp ready hw
  have refused := step_undecodable hp ready hw
  refine ⟨fun h1 h2 h3 => ?_, fun new reserved => ?_, fun opcode reserved => ?_, fun opcode prerendered noWords => ?_,
    fun opcode short => ?_, fun opcode missing => ?_, fun b count rest => ?_⟩
  · refine refused fun i rest h => ?_
    obtain ⟨opcode, -⟩ | ⟨opcode, -⟩ := decode_unreserved h <;> omega
  · refine refused fun i rest h => ?_
    obtain ⟨opcode, -⟩ | ⟨-, order, strategy, zeros⟩ := decode_unreserved h
    · omega
    · obtain order' | strategy' | nonzero := reserved
      · omega
      · omega
      · exact nonzero zeros
  · refine refused fun i rest h => ?_
    obtain ⟨-, zeros⟩ | ⟨opcode', -⟩ := decode_unreserved h
    · exact reserved zeros
    · omega
  · refine refused fun i rest h => ?_
    obtain ⟨n, enough, -, one, -⟩ := decode_operands h
    simp [one opcode, prerendered, noWords] at enough
  · refine refused fun i rest h => ?_
    obtain ⟨n, enough, -, -, two, -⟩ := decode_operands h
    rw [two opcode] at enough
    omega
  · refine refused fun i rest h => ?_
    obtain ⟨n, enough, -, -, -, counted⟩ := decode_operands h
    obtain ⟨count, head, rfl⟩ := counted opcode
    obtain rfl | ⟨count', words, rfl, short⟩ := missing
    · cases head
    · obtain rfl := Option.some.inj head
      simp only [List.length_cons] at enough
      omega
  · rintro rfl rfl fits hb three white
    exact step_write_colourMismatch hp ready hb three hw fits white

end Sys2Proof.Machine
end

section
/-! The internal rows (spec/30_encoding.md R70, R81, R83; spec/43_frame_sequencer.md R169): where the sequencer performs
each, and what it does there. -/

namespace Sys2Proof.Machine

/-- Every internal row looks first for its control point, which is none of an idle block's. -/
theorem exec_internal {i : Instr} (hc : i.isCommand = false) (s : State) :
    ∃ at_ k, at_ ≠ .idle ∧ exec i s = atControl at_ s k := by
  cases i with
  | newFixed | newTimed | write | new | latch | blank => cases hc
  | lut00 | lut01 | lut10 | lut11 | timedBit0 | timedBit1 => exact ⟨.encode, _, nofun, rfl⟩
  | latchByte => exact ⟨.latch, _, nofun, rfl⟩
  | dummyByte => exact ⟨.dummy, _, nofun, rfl⟩

theorem atControl_none {at_ : Control} {s : State} {k : Block → Out} (hp : paramsValid s.params = true)
    (hb : s.block = none) : atControl at_ s k = .refused .unconstructed := by
  rw [atControl, underParams_valid hp, hb]

/-- Settles O20: no internal row stands at an idle block's control point. -/
theorem internalRowsNotIssuable : Obligations.InternalRowsNotIssuable := by
  unfold Obligations.InternalRowsNotIssuable
  intro i s internal hp ready
  obtain ⟨at_, k, notIdle, row⟩ := exec_internal internal s
  rw [row]
  refine ⟨atControl_none hp, fun b hb => atControl_other hp hb ?_⟩
  have idle : control b = .idle := controlAt_idle.2 (by simpa [isBusy_some hb] using ready)
  exact idle ▸ notIdle.symm

section Rows

variable {s : State} {b : Block} (hp : paramsValid s.params = true) (hb : s.block = some b)
include hp hb

/-! ### One iteration of the encoder -/

theorem lookUp_elsewhere (hc : control b ≠ .encode) (group : BitVec 2) : lookUp group s = .refused .notIssuable :=
  atControl_other hp hb hc

theorem lookUp_timed (hc : control b = .encode) (timed : b.cfg.encoder ≠ .fixed4x) (group : BitVec 2) :
    lookUp group s = .refused .notIssuable := by
  rw [lookUp, atControl_at hp hb hc]
  cases encoder : b.cfg.encoder with
  | fixed4x => exact absurd encoder timed
  | timed clk tp => rfl

theorem lookUp_fixed (hc : control b = .encode) (fixed : b.cfg.encoder = .fixed4x) (group : BitVec 2) :
    lookUp group s = .next (pushSubBits (byteBits (lutWord s.params.lut group)) b s) := by
  rw [lookUp, atControl_at hp hb hc, fixed]

theorem encodeBit_elsewhere (hc : control b ≠ .encode) (v : Bool) : encodeBit v s = .refused .notIssuable :=
  atControl_other hp hb hc

theorem encodeBit_fixed (hc : control b = .encode) (fixed : b.cfg.encoder = .fixed4x) (v : Bool) :
    encodeBit v s = .refused .notIssuable := by
  rw [encodeBit, atControl_at hp hb hc, fixed]

theorem encodeBit_timed (hc : control b = .encode) {clk : Word} {tp : TimingParameters}
    (timed : b.cfg.encoder = .timed clk tp) (v : Bool) :
    encodeBit v s = .next (pushSubBits (bitPattern tp v) b s) := by
  rw [encodeBit, atControl_at hp hb hc, timed]

end Rows

/-- Each LUT2 row is the lookup of a group. -/
theorem exec_lutRow {i : Instr} (hi : i ∈ [Instr.lut00, .lut01, .lut10, .lut11]) (s : State) :
    ∃ group, exec i s = lookUp group s := by
  simp only [List.mem_cons, List.not_mem_nil, or_false] at hi
  obtain rfl | rfl | rfl | rfl := hi <;> exact ⟨_, rfl⟩

/-- Settles O18: the lookup by control point and encoder; the table word's sub-bits are `byteBits`. -/
theorem tableLookups : Obligations.TableLookups := by
  unfold Obligations.TableLookups
  refine ⟨fun s b hp hb => ⟨fun elsewhere i hi => ?_, fun hc => ⟨fun fixed => ?_, fun timed i hi => ?_⟩⟩, rfl⟩
  · obtain ⟨group, row⟩ := exec_lutRow hi s
    rw [row, lookUp_elsewhere hp hb elsewhere]
  · have row := lookUp_fixed hp hb hc fixed
    exact ⟨row 0#2, row 1#2, row 2#2, row 3#2⟩
  · obtain ⟨group, row⟩ := exec_lutRow hi s
    rw [row, lookUp_timed hp hb hc timed]

/-- Settles O19: the timed bit by control point and encoder; its pattern is `bitPattern`. -/
theorem timedBits : Obligations.TimedBits := by
  unfold Obligations.TimedBits
  refine fun s b hp hb => ⟨fun elsewhere => ?_, fun hc => ⟨fun clk tp timed => ?_, fun fixed => ?_⟩⟩
  · exact ⟨encodeBit_elsewhere hp hb elsewhere false, encodeBit_elsewhere hp hb elsewhere true⟩
  · exact ⟨encodeBit_timed hp hb hc timed false, encodeBit_timed hp hb hc timed true⟩
  · exact ⟨encodeBit_fixed hp hb hc fixed false, encodeBit_fixed hp hb hc fixed true⟩

/-! ### The dummy byte -/

/-- Settles O31: the send answered Ok, with a pre-latch after it or without. -/
theorem dummyByteSent : Obligations.DummyByteSent := by
  unfold Obligations.DummyByteSent
  refine fun s b hp hb => ⟨atControl_other hp hb, fun r later hc answered => ?_⟩
  change execDummyByte s = _
  rw [execDummyByte, atControl_at hp hb hc, transact_ok answered]
  cases b.cfg.preLatch <;> rfl

end Sys2Proof.Machine
end

section
/-! What the host writes and reads (spec/30_encoding.md R79, R88, R89), and the frame without colours
(spec/43_frame_sequencer.md R183). -/

namespace Sys2Proof.Machine

/-! ### Worked encodings and pseudo-commands -/

/-- Settles O1, line by line. -/
theorem workedEncodings : Obligations.WorkedEncodings := by
  unfold Obligations.WorkedEncodings
  intro dev line i words listed
  simp only [List.mem_cons, List.not_mem_nil, or_false, Prod.mk.injEq] at listed
  obtain ⟨rfl, rfl, rfl, rfl⟩ | ⟨rfl, rfl, rfl, rfl⟩ | ⟨rfl, rfl, rfl, rfl⟩ | ⟨rfl, rfl, rfl, rfl⟩ := listed
  · decide
  · decide
  · decide
  · decide

theorem assemble_pseudo (dev : DeviceKind) : assemble dev "NEW".toList = some .new
    ∧ assemble dev "LATCH".toList = some .latch ∧ assemble dev "BLANK 3".toList = some (.blank 3) := by
  cases dev <;> decide

/-- Settles O6: the meanings are the same by definition, and `encode_expand` gives the words. -/
theorem pseudoCommandsExpand : Obligations.PseudoCommandsExpand := by
  unfold Obligations.PseudoCommandsExpand
  exact ⟨fun _ => rfl, fun _ => rfl, fun _ _ => rfl, encode_expand .new, encode_expand .latch,
    fun n => encode_expand (.blank n), assemble_pseudo⟩

/-! ### Result words -/

theorem resultCode_toNat_lt (r : Result) : (resultCode r).toNat < 2 ^ 8 := by
  cases r <;> simp [resultCode]

theorem resultInfo_toNat_lt (r : Result) : (resultInfo r).toNat < 2 ^ 8 := by
  cases r with
  | ok | outOfBounds => decide
  | invalidTiming cause => cases cause <;> decide
  | transportError kind e => cases kind <;> simp [resultInfo]

/-- The code in bits 7:0, the information field in bits 15:8 (R79). -/
theorem resultWord_toNat (r : Result) : (resultWord r).toNat = (resultCode r).toNat + (resultInfo r).toNat * 2 ^ 8 :=
  toNat_or_shiftLeft (resultCode_toNat_lt r) (by have := resultInfo_toNat_lt r; omega)

/-- The transport's own error value does not enter the word (R79). -/
theorem resultWord_transportError (kind : EventKind) (e : Nat) :
    resultWord (.transportError kind e) = resultWord (.transportError kind 0) := by
  cases kind <;> rfl

/-- Settles O54: both fields are below 2^8, so nothing stands above bit 15. -/
theorem resultWords : Obligations.ResultWords := by
  unfold Obligations.ResultWords
  refine ⟨fun r => BitVec.eq_of_toNat_eq ?_, rfl, rfl, rfl, rfl, rfl, resultWord_transportError .send,
    resultWord_transportError .read, resultWord_transportError .write⟩
  have code := resultCode_toNat_lt r
  have info := resultInfo_toNat_lt r
  rw [BitVec.extractLsb'_toNat, resultWord_toNat, Nat.shiftRight_eq_div_pow, BitVec.toNat_ofNat]
  omega

/-! ### The frame without colours -/

theorem wholeFrame_nil (p : Params) (cfg : BlockConfig) :
    wholeFrame p cfg [] = preLatchGap p cfg ++ latchGap p cfg := by
  simp [wholeFrame, framePayload]

theorem preLatchGap_eq_replicate (p : Params) (cfg : BlockConfig) :
    preLatchGap p cfg = List.replicate ((if cfg.preLatch then 1 else 0) * latchLength p cfg) 0x00#8 := by
  cases h : cfg.preLatch <;> simp [preLatchGap, latchGap, h]

/-- Settles O53: without colours the frame is its latch gaps. -/
theorem emptyFrame : Obligations.EmptyFrame := by
  unfold Obligations.EmptyFrame
  refine fun p cfg => ⟨fun streaming => ?_, fun bulk perByte => ?_, fun bulk single => ?_, ?_⟩
  · simp only [frameEvents, streaming, if_true, streamEvents, wholeFrame_nil, List.flatMap_append,
      preLatchGap_eq_replicate, latchGap, List.flatMap_replicate, exchangeEvents, List.nil_append, List.cons_append]
  · simp [frameEvents, bulk, bulkEvents, perByte, preLatchGap_eq_replicate, latchGap, framePayload]
  · simp only [frameEvents, bulk, bulkEvents, single, if_true, Bool.false_eq_true, if_false, wholeFrame_nil,
      preLatchGap_eq_replicate, latchGap, List.replicate_append_replicate, Nat.add_mul, Nat.one_mul]
  · simp [minCapacity]

end Sys2Proof.Machine
end

section
/-! What TIMING_DERIVE says of times (spec/40_timing_model.md R102 to R111; spec/43_frame_sequencer.md R185). -/

namespace Sys2Proof.Machine

/-! ### An accepted clock -/

/-- The four checks an accepted clock passes, and the counts it gets. -/
theorem timingDerive_eq_ok_iff {p : Params} {clock : Nat} {tp : TimingParameters} :
    timingDerive p clock = .ok tp ↔ p.minClockHz ≤ clock ∧ deriveTotal p clock ≤ p.maxTotal
      ∧ deriveZeroHigh p clock ≤ deriveOneHigh p clock ∧ deriveOneHigh p clock < deriveTotal p clock
      ∧ tp = ⟨deriveZeroHigh p clock, deriveOneHigh p clock, deriveTotal p clock, deriveResetBytes p clock⟩ := by
  constructor
  · intro derived
    rw [timingDerive] at derived
    split_ifs at derived with below long guard
    obtain ⟨-, zero, one⟩ := guard
    exact ⟨Nat.le_of_not_lt below, Nat.le_of_not_lt long, zero, one, (Except.ok.inj derived).symm⟩
  · rintro ⟨above, short, zero, one, rfl⟩
    exact timingDerive_accepted above short zero one

/-! ### Times, multiplied out -/

/-- The floor is at least 1, so the minimum does not apply (R102). -/
theorem deriveZeroHigh_mul_le {p : Params} {clock : Nat} (positive : 0 < p.zeroHighThreshold)
    (enough : p.zeroHighThreshold ≤ clock) : deriveZeroHigh p clock * p.zeroHighThreshold ≤ clock := by
  rw [deriveZeroHigh, Nat.max_eq_right (Nat.div_pos enough positive)]
  exact Nat.div_mul_le_self _ _

theorem lt_deriveOneHigh_mul {p : Params} (positive : 0 < p.oneHighThreshold) (clock : Nat) :
    clock < deriveOneHigh p clock * p.oneHighThreshold :=
  Nat.lt_mul_of_div_lt (Nat.lt_succ_self _) positive

/-- Either the floor plus 1, or that once adjusted (R104, R105). -/
theorem deriveTotal_cases (p : Params) (clock : Nat) :
    (deriveTotal p clock = clock / p.bitPeriodThreshold + 1 ∧ deriveTotal p clock ≠ deriveOneHigh p clock)
      ∨ (deriveOneHigh p clock = clock / p.bitPeriodThreshold + 1
          ∧ deriveTotal p clock = deriveOneHigh p clock + 1) := by
  unfold deriveTotal
  by_cases equal : clock / p.bitPeriodThreshold + 1 = deriveOneHigh p clock
  · exact .inr ⟨equal.symm, by simp [equal]⟩
  · exact .inl (by simp [equal])

theorem lt_deriveTotal_mul {p : Params} (positive : 0 < p.bitPeriodThreshold) (clock : Nat) :
    clock < deriveTotal p clock * p.bitPeriodThreshold := by
  refine Nat.lt_mul_of_div_lt ?_ positive
  obtain ⟨total, -⟩ | ⟨one, total⟩ := deriveTotal_cases p clock <;> omega

/-- Settles O10: each count of an accepted clock is the derived one, and each has its bound. -/
theorem timingBounds : Obligations.TimingBounds := by
  unfold Obligations.TimingBounds
  intro p c tp hp derived
  obtain ⟨zero, one, period, -⟩ := paramsValid_bounds hp
  obtain ⟨-, -, -, -, rfl⟩ := timingDerive_eq_ok_iff.1 derived
  exact ⟨rfl, deriveZeroHigh_mul_le zero, rfl, lt_deriveOneHigh_mul one c, deriveTotal_cases p c,
    lt_deriveTotal_mul period c⟩

/-! ### The reference parameters -/

/-- From the minimum on, `clock / 1 720 000 < clock / 800 000`: the adjustment does not fire (R111 (b)). -/
theorem deriveTotal_reference {clock : Nat} (above : 2000000 ≤ clock) :
    deriveTotal Params.reference clock = clock / 800000 + 1 := by
  simp only [deriveTotal, deriveOneHigh, Params.reference]
  exact if_neg (by omega)

theorem deriveOneHigh_lt_deriveTotal_reference {clock : Nat} (above : 2000000 ≤ clock) :
    deriveOneHigh Params.reference clock < deriveTotal Params.reference clock := by
  rw [deriveTotal_reference above]
  simp only [deriveOneHigh, Params.reference]
  omega

theorem deriveZeroHigh_lt_deriveOneHigh_reference {clock : Nat} (above : 2000000 ≤ clock) :
    deriveZeroHigh Params.reference clock < deriveOneHigh Params.reference clock := by
  simp only [deriveZeroHigh, deriveOneHigh, Params.reference]
  omega

theorem deriveTotal_reference_le_iff {clock : Nat} (above : 2000000 ≤ clock) :
    deriveTotal Params.reference clock ≤ Params.reference.maxTotal ↔ clock ≤ 22399999 := by
  rw [deriveTotal_reference above]
  simp only [Params.reference]
  omega

/-- R111 (a): the two bounds of the clock are all that is left of the four checks. -/
theorem timingDerive_reference_accepts_iff (clock : Nat) :
    (∃ tp, timingDerive Params.reference clock = .ok tp) ↔ 2000000 ≤ clock ∧ clock ≤ 22399999 := by
  constructor
  · rintro ⟨tp, derived⟩
    obtain ⟨above, short, -⟩ := timingDerive_eq_ok_iff.1 derived
    exact ⟨above, (deriveTotal_reference_le_iff above).1 short⟩
  · rintro ⟨above, short⟩
    exact ⟨_, timingDerive_accepted above ((deriveTotal_reference_le_iff above).2 short)
      (deriveZeroHigh_lt_deriveOneHigh_reference above).le (deriveOneHigh_lt_deriveTotal_reference above)⟩

/-- R111 (c): a clock that reaches the guard passes it. -/
theorem timingDerive_reference_ne_invariant (clock : Nat) :
    timingDerive Params.reference clock ≠ .error .invariant := by
  obtain below | above := Nat.lt_or_ge clock 2000000
  · simp [timingDerive_belowMinimum (p := Params.reference) below]
  obtain short | long := le_or_gt (deriveTotal Params.reference clock) Params.reference.maxTotal
  · simp [timingDerive_accepted above short (deriveZeroHigh_lt_deriveOneHigh_reference above).le
      (deriveOneHigh_lt_deriveTotal_reference above)]
  · simp [timingDerive_tooManySubBits above long]

/-- R111 (e). -/
theorem deriveResetBytes_reference_bounds {clock : Nat} (above : 2000000 ≤ clock) (below : clock ≤ 22399999) :
    75 ≤ deriveResetBytes Params.reference clock ∧ deriveResetBytes Params.reference clock ≤ 840 := by
  simp only [deriveResetBytes, ceilDiv, Params.reference]
  omega

/-- Settles O9: (a) to (e) of R111 in turn. -/
theorem referenceClocks : Obligations.ReferenceClocks := by
  unfold Obligations.ReferenceClocks
  refine fun clk => ⟨timingDerive_reference_accepts_iff _, fun above => by omega,
    timingDerive_reference_ne_invariant _, fun tp derived => ?_⟩
  obtain ⟨above, below⟩ := (timingDerive_reference_accepts_iff _).1 ⟨tp, derived⟩
  obtain ⟨-, -, -, -, rfl⟩ := timingDerive_eq_ok_iff.1 derived
  exact ⟨deriveZeroHigh_lt_deriveOneHigh_reference above, deriveResetBytes_reference_bounds above below⟩

/-! ### How long a latch lasts -/

/-- The model's quotient is the library's, which is the least multiplier (R10). -/
theorem ceilDiv_le_iff {a b n : Nat} (positive : 0 < b) : ceilDiv a b ≤ n ↔ a ≤ b * n := by
  rw [ceilDiv, ← Nat.ceilDiv_eq_add_pred_div]
  exact ceilDiv_le_iff_le_mul positive

/-- `n` zero bytes are enough exactly when their sub-bits last `RESET_US` microseconds (R108). -/
theorem resetBytes_le_iff {p : Params} {clock : Nat} {tp : TimingParameters} (derived : timingDerive p clock = .ok tp)
    (n : Nat) : tp.resetBytes ≤ n ↔ p.resetUs * clock ≤ 8 * n * 1000000 := by
  obtain ⟨-, -, -, -, rfl⟩ := timingDerive_eq_ok_iff.1 derived
  change ceilDiv (p.resetUs * clock) 8000000 ≤ n ↔ _
  rw [ceilDiv_le_iff (by decide)]
  omega

theorem latchSubBits_fixed (p : Params) {cfg : BlockConfig} (fixed : cfg.encoder = .fixed4x) :
    latchSubBits p cfg = 8 * p.fixedResetBytes := by
  rw [latchSubBits, latchLength, fixed]

theorem latchSubBits_timed (p : Params) {cfg : BlockConfig} {clk : Word} {tp : TimingParameters}
    (timed : cfg.encoder = .timed clk tp) : latchSubBits p cfg = 8 * tp.resetBytes := by
  rw [latchSubBits, latchLength, timed]

/-- Settles O11: `reset_bytes` is enough for itself, and 1120 sub-bits divided by 300 microseconds bound the clock. -/
theorem latchDuration : Obligations.LatchDuration := by
  unfold Obligations.LatchDuration
  refine ⟨fun p c tp derived => ⟨(resetBytes_le_iff derived _).1 le_rfl, fun n => (resetBytes_le_iff derived n).2⟩,
    fun p cfg clk tp timed derived => ?_, fun cfg f fixed => ?_⟩
  · rw [latchSubBits_timed p timed]
    exact ⟨rfl, (resetBytes_le_iff derived _).1 le_rfl⟩
  · have subBits : latchSubBits Params.reference cfg = 1120 := latchSubBits_fixed _ fixed
    rw [subBits]
    exact ⟨rfl, by omega⟩

end Sys2Proof.Machine
end

section
/-! The bit encoder (spec/41_bit_encoder.md R120 to R131): the sub-bits of ENC are those of its iterations, and the
steps that encode a channel byte gather them. -/

namespace Sys2Proof.Machine

/-! ### Packed and unpacked -/

theorem byteBits_packByte {s : List Bool} (whole : s.length = 8) : byteBits (packByte s) = s := by
  have all : ∀ a b c d e f g h : Bool, byteBits (packByte [a, b, c, d, e, f, g, h]) = [a, b, c, d, e, f, g, h] := by
    decide
  match s, whole with
  | [a, b, c, d, e, f, g, h], _ => exact all a b c d e f g h

/-- Only the first eight sub-bits are looked at. -/
theorem packByte_append {s : List Bool} (whole : s.length = 8) (rest : List Bool) :
    packByte (s ++ rest) = packByte s := by
  rw [← byteBits_packByte whole, packByte_bits, byteBits_packByte whole]

/-- Packing loses nothing of whole bytes (R9). -/
theorem flatMap_byteBits_packBytes {n : Nat} {s : List Bool} (whole : s.length = 8 * n) :
    (packBytes n s).flatMap byteBits = s := by
  induction n generalizing s with
  | zero => rw [List.eq_nil_of_length_eq_zero whole]; rfl
  | succ n ih =>
    have first : (s.take 8).length = 8 := by rw [List.length_take]; omega
    have rest : (s.drop 8).length = 8 * n := by rw [List.length_drop]; omega
    have byte : packByte s = packByte (s.take 8) := by
      rw [← packByte_append first (s.drop 8), List.take_append_drop]
    rw [packBytes, List.flatMap_cons, ih rest, byte, byteBits_packByte first, List.take_append_drop]

/-! ### ENC and its sub-bits -/

section Enc

variable {p : Params} {cfg : BlockConfig}

theorem encodeByte_fixed (p : Params) (fixed : cfg.encoder = .fixed4x) (d : Byte) :
    encodeByte p cfg d = encFixed p.lut d := by
  rw [encodeByte, fixed]

theorem encodeByte_timed (p : Params) {clk : Word} {tp : TimingParameters} (timed : cfg.encoder = .timed clk tp)
    (d : Byte) : encodeByte p cfg d = encTimed tp d := by
  rw [encodeByte, timed]

theorem encoderUnits_pos (cfg : BlockConfig) : 0 < encoderUnits cfg := by
  unfold encoderUnits
  split <;> decide

theorem subBits_encoderUnits_length (h : ConfigInv p cfg) (d : Byte) :
    (subBits p cfg d (encoderUnits cfg)).length = 8 * encodedLength cfg := by
  rw [subBits_length h, units_length]

/-- What all the iterations gather is what ENC packs (R120). -/
theorem pack_subBits (h : ConfigInv p cfg) (d : Byte) :
    pack (subBits p cfg d (encoderUnits cfg)) = encodeByte p cfg d := by
  rw [pack, subBits_encoderUnits_length h, Nat.mul_div_cancel_left _ (by decide), encodeByte_eq h]

theorem encodeByte_bits (h : ConfigInv p cfg) (d : Byte) :
    (encodeByte p cfg d).flatMap byteBits = subBits p cfg d (encoderUnits cfg) := by
  rw [encodeByte_eq h, flatMap_byteBits_packBytes (subBits_encoderUnits_length h d)]

end Enc

/-- The logical bits of R123 are the byte's bits in time order. -/
theorem timedSubBits_eq (tp : TimingParameters) (d : Byte) :
    timedSubBits tp d = (byteBits d).flatMap (bitPattern tp) := by
  rw [timedSubBits, byteBits, List.flatMap_map]
  rfl

theorem encTimed_eq {p : Params} {tp : TimingParameters} (h : TimingInv p tp) (d : Byte) :
    encTimed tp d = packBytes tp.total (timedSubBits tp d) := by
  rw [encTimed, padToByte_timed h, pack, timedSubBits_length h, Nat.mul_div_cancel_left _ (by decide)]

theorem encTimed_bits {p : Params} {tp : TimingParameters} (h : TimingInv p tp) (d : Byte) :
    (encTimed tp d).flatMap byteBits = (byteBits d).flatMap (bitPattern tp) := by
  rw [encTimed_eq h, flatMap_byteBits_packBytes (timedSubBits_length h d), timedSubBits_eq]

/-! ### The steps of a channel byte -/

/-- The block at the start of a channel byte, `n` iterations later. -/
def encodedBlock (p : Params) (b : Block) (n : Nat) : Block :=
  b.withSeq { b.seq with enc := n, acc := subBits p b.cfg (currentByte b) n }

theorem control_encodedBlock {b : Block} (hc : control b = .encode) (p : Params) {n : Nat}
    (more : n < encoderUnits b.cfg) : control (encodedBlock p b n) = .encode := by
  obtain ⟨colour, -, loop⟩ := controlAt_encode.1 hc
  exact controlAt_encode.2 ⟨colour, more, loop⟩

/-- Before the first iteration the accumulator is empty (R38). -/
theorem BlockInv.encodedBlock_zero {p : Params} {b : Block} (h : BlockInv p b) (start : b.seq.enc = 0) :
    encodedBlock p b 0 = b := by
  have acc := h.position.accumulator
  rw [start, Nat.zero_mul] at acc
  have empty : b.seq.acc = [] := List.eq_nil_of_length_eq_zero (by omega)
  have seq : { b.seq with enc := 0, acc := [] } = b.seq := by rw [← start, ← empty]
  exact congrArg b.withSeq seq

/-- One iteration is one step (log 7), and it adds its group or logical bit. -/
theorem step_encodedBlock {s : State} {b : Block} (hp : paramsValid s.params = true) (hc : control b = .encode)
    {n : Nat} (more : n < encoderUnits b.cfg) :
    step (s.withBlock (encodedBlock s.params b n)) = .next (s.withBlock (encodedBlock s.params b (n + 1))) := by
  have at_ := control_encodedBlock hc s.params more
  rw [step_encode (s := s.withBlock _) hp rfl at_, encodingRow_exec (s := s.withBlock _) hp rfl at_, encodedBlock,
    encodedBlock, subBits_succ]
  rfl

theorem runSteps_encode {s : State} {b : Block} (hi : Inv s) (hb : s.block = some b) (hc : control b = .encode)
    (start : b.seq.enc = 0) {n : Nat} (within : n ≤ encoderUnits b.cfg) :
    runSteps n s = .next (s.withBlock (encodedBlock s.params b n)) := by
  induction n with
  | zero =>
    rw [(hi.block b hb).encodedBlock_zero start, State.withBlock, ← hb]
    rfl
  | succ n ih => rw [runSteps_add (ih (by omega)), runSteps_succ (step_encodedBlock hi.params hc within), runSteps_zero]

/-- Settles O21: the steps gather the sub-bits of all iterations, which ENC packs. -/
theorem encoderLoopBuildsEnc : Obligations.EncoderLoopBuildsEnc := by
  unfold Obligations.EncoderLoopBuildsEnc
  intro s b hi hb hc start
  have enc := pack_subBits (hi.block b hb).config (currentByte b)
  refine ⟨_, runSteps_encode hi hb hc start le_rfl, fun fixed => ?_, fun clk tp timed => ?_⟩
  · rw [enc, encodeByte_fixed _ fixed]
  · rw [enc, encodeByte_timed _ timed]

/-! ### How many sub-bits are high -/

theorem bitPattern_highs (tp : TimingParameters) (v : Bool) :
    (bitPattern tp v).countP (· = true) = if v then tp.oneHigh else tp.zeroHigh := by
  simp [bitPattern, List.countP_replicate]

/-- The count by kind of logical bit (R126). -/
theorem flatMap_bitPattern_highs (tp : TimingParameters) (bits : List Bool) :
    (bits.flatMap (bitPattern tp)).countP (· = true)
      = bits.countP (· = true) * tp.oneHigh + bits.countP (· = false) * tp.zeroHigh := by
  induction bits with
  | nil => simp
  | cons v bits ih =>
    rw [List.flatMap_cons, List.countP_append, ih, bitPattern_highs]
    cases v <;> simp [Nat.add_mul] <;> omega

theorem countP_eq_false (bits : List Bool) : bits.countP (· = false) = bits.length - bits.countP (· = true) := by
  have both := List.length_eq_countP_add_countP (· = true) (l := bits)
  simp only [Bool.not_eq_true, decide_eq_true_eq] at both
  omega

theorem encTimed_highs {p : Params} {tp : TimingParameters} (h : TimingInv p tp) (d : Byte) :
    ((encTimed tp d).flatMap byteBits).countP (· = true)
      = (byteBits d).countP (· = true) * tp.oneHigh + (8 - (byteBits d).countP (· = true)) * tp.zeroHigh := by
  rw [encTimed_bits h, flatMap_bitPattern_highs, countP_eq_false, byteBits_length]

/-! ### The reference table -/

/-- The reference table holds two patterns of one_high 3 and zero_high 1 in each word (R83, R129). -/
theorem byteBits_lutWord_reference (group : BitVec 2) (resetBytes : Nat) :
    byteBits (lutWord Params.reference.lut group) = bitPattern ⟨1, 3, 4, resetBytes⟩ (group.getLsbD 1)
      ++ bitPattern ⟨1, 3, 4, resetBytes⟩ (group.getLsbD 0) := by
  have patterns : ∀ group, byteBits (lutWord Params.reference.lut group)
      = bitPattern ⟨1, 3, 4, 0⟩ (group.getLsbD 1) ++ bitPattern ⟨1, 3, 4, 0⟩ (group.getLsbD 0) := by decide
  exact patterns group

/-- The eight logical bits are those of the four groups (R84, R123). -/
theorem byteBits_eq_groups (d : Byte) :
    byteBits d = (List.range 4).flatMap fun k => [(bitGroup d k).getLsbD 1, (bitGroup d k).getLsbD 0] := by
  simp [byteBits, bitGroup, List.range, List.range.loop]

theorem timing_one_three_four (resetBytes : Nat) : TimingInv Params.reference ⟨1, 3, 4, resetBytes⟩ :=
  show 1 ≤ 1 ∧ 1 ≤ 3 ∧ 3 < 4 ∧ 4 ≤ Params.reference.maxTotal by decide

theorem encFixed_reference_eq_encTimed (d : Byte) (resetBytes : Nat) :
    encFixed Params.reference.lut d = encTimed ⟨1, 3, 4, resetBytes⟩ d := by
  rw [encTimed_eq (timing_one_three_four resetBytes), timedSubBits_eq, byteBits_eq_groups, List.flatMap_assoc]
  have words := packBytes_flatMap (fun k => lutWord Params.reference.lut (bitGroup d k)) (List.range 4)
  simp only [byteBits_lutWord_reference _ resetBytes] at words
  simpa [encFixed] using words.symm

/-- Settles O22: by kind of logical bit, and of the reference table as the timed encoding it is. -/
theorem highSubBitCount : Obligations.HighSubBitCount := by
  unfold Obligations.HighSubBitCount
  refine ⟨fun p tp d h => encTimed_highs h d, fun d => ?_⟩
  rw [encFixed_reference_eq_encTimed d 0]
  exact encTimed_highs (timing_one_three_four 0) d

/-- A clock with 4 sub-bits a bit is below 3.2 MHz, and one with 3 high sub-bits for a 1 is at least 3.44 MHz (R129). -/
theorem timingDerive_reference_ne_one_three_four (clock resetBytes : Nat) :
    timingDerive Params.reference clock ≠ .ok ⟨1, 3, 4, resetBytes⟩ := by
  intro derived
  obtain ⟨above, -, -, -, counts⟩ := timingDerive_eq_ok_iff.1 derived
  obtain ⟨-, one, total, -⟩ := TimingParameters.mk.inj counts
  rw [deriveTotal_reference above] at total
  simp only [deriveOneHigh, Params.reference] at one
  omega

/-- Settles O23: the words are the patterns, and the two bounds on the clock exclude each other. -/
theorem fixedTableIsTimedOneThreeFour : Obligations.FixedTableIsTimedOneThreeFour := by
  unfold Obligations.FixedTableIsTimedOneThreeFour
  exact ⟨encFixed_reference_eq_encTimed, fun clk => timingDerive_reference_ne_one_three_four clk.toNat⟩

/-! ### High first and low last -/

/-- The sub-bits begin high and end low. -/
def HighToLow (bits : List Bool) : Prop := bits.head? = some true ∧ bits.getLast? = some false

theorem HighToLow.append {first later : List Bool} (hf : HighToLow first) (hl : HighToLow later) :
    HighToLow (first ++ later) :=
  ⟨by rw [List.head?_append, hf.1]; rfl, by rw [List.getLast?_append, hl.2]; rfl⟩

theorem highToLow_byteBits (v : Byte) : HighToLow (byteBits v) ↔ v.getLsbD 7 = true ∧ v.getLsbD 0 = false := by
  simp [HighToLow, byteBits, List.range, List.range.loop]

theorem highToLow_runs {high low : Nat} (highs : 0 < high) (lows : 0 < low) :
    HighToLow (List.replicate high true ++ List.replicate low false) := by
  simp [HighToLow, List.head?_replicate, List.getLast?_append, List.getLast?_replicate, highs.ne', lows.ne']

/-- Both runs of a logical bit are non-empty (R30, R81). -/
theorem highToLow_bitPattern {p : Params} {tp : TimingParameters} (h : TimingInv p tp) (v : Bool) :
    HighToLow (bitPattern tp v) := by
  obtain ⟨zero, one, total, -⟩ := h
  cases v
  · exact highToLow_runs zero (Nat.sub_pos_of_lt (Nat.lt_of_le_of_lt one total))
  · exact highToLow_runs (zero.trans one) (Nat.sub_pos_of_lt total)

/-- A well-shaped nibble begins high and ends low (U21). -/
theorem nibbleHigh_isSome_ends {n : BitVec 4} (shaped : (nibbleHigh n).isSome) :
    n.getLsbD 3 = true ∧ n.getLsbD 0 = false := by
  revert n
  decide

theorem longerHigh_isSome {zero one : BitVec 4} (h : longerHigh zero one = true) :
    (nibbleHigh zero).isSome ∧ (nibbleHigh one).isSome := by
  unfold longerHigh at h
  split at h
  case h_1 hz ho => exact ⟨by rw [hz]; rfl, by rw [ho]; rfl⟩
  case h_2 => cases h

/-- Every nibble of a conforming table is well shaped: it is compared with one of the other kind. -/
theorem lutConforms_nibbles {lut : Lut} (conforms : lutConforms lut = true) :
    ∀ n ∈ zeroNibbles lut ++ oneNibbles lut, (nibbleHigh n).isSome := by
  have compared : ∀ zero ∈ zeroNibbles lut, ∀ one ∈ oneNibbles lut,
      (nibbleHigh zero).isSome ∧ (nibbleHigh one).isSome := by
    simp only [lutConforms, List.all_eq_true] at conforms
    exact fun zero hz one ho => longerHigh_isSome (conforms zero hz one ho)
  intro n hn
  obtain hz | ho := List.mem_append.1 hn
  · exact (compared n hz _ List.mem_cons_self).1
  · exact (compared _ List.mem_cons_self n ho).2

/-- A byte takes its first sub-bit from its high nibble and its last from its low one. -/
theorem highToLow_of_nibbles {v : Byte} (first : (nibbleHigh (v.extractLsb' 4 4)).isSome)
    (last : (nibbleHigh (v.extractLsb' 0 4)).isSome) : HighToLow (byteBits v) := by
  have begins := (nibbleHigh_isSome_ends first).1
  have ends := (nibbleHigh_isSome_ends last).2
  rw [highToLow_byteBits]
  exact ⟨by simpa using begins, by simpa using ends⟩

theorem highToLow_lutWord {lut : Lut} (conforms : lutConforms lut = true) (group : BitVec 2) :
    HighToLow (byteBits (lutWord lut group)) := by
  have shaped := lutConforms_nibbles conforms
  simp only [zeroNibbles, oneNibbles, List.cons_append, List.nil_append, List.forall_mem_cons] at shaped
  obtain ⟨first00, last00, first01, last10, last01, first10, first11, last11, -⟩ := shaped
  unfold lutWord
  split
  · exact highToLow_of_nibbles first00 last00
  · exact highToLow_of_nibbles first01 last01
  · exact highToLow_of_nibbles first10 last10
  · exact highToLow_of_nibbles first11 last11

section Conforming

variable {p : Params} {cfg : BlockConfig} (hp : paramsValid p = true)
include hp

theorem paramsValid_lut : lutConforms p.lut = true := by
  simp only [paramsValid, Bool.and_eq_true] at hp
  exact hp.2

/-- What an iteration adds begins high and ends low (R83, R81). -/
theorem highToLow_unitBits (h : ConfigInv p cfg) (d : Byte) (k : Nat) : HighToLow (unitBits p cfg d k) := by
  unfold ConfigInv at h
  unfold unitBits
  split
  case h_1 => exact highToLow_lutWord (paramsValid_lut hp) _
  case h_2 clk tp timed =>
    simp only [timed] at h
    exact highToLow_bitPattern h _

/-- So does what one iteration or more add: the first begins it and the last ends it. -/
theorem highToLow_subBits (h : ConfigInv p cfg) (d : Byte) {n : Nat} (more : 0 < n) :
    HighToLow (subBits p cfg d n) := by
  induction n, more using Nat.le_induction with
  | base => simpa [subBits] using highToLow_unitBits hp h d 0
  | succ n _ ih =>
    rw [subBits_succ]
    exact ih.append (highToLow_unitBits hp h d n)

theorem highToLow_encodeByte (h : ConfigInv p cfg) (d : Byte) : HighToLow ((encodeByte p cfg d).flatMap byteBits) := by
  rw [encodeByte_bits h]
  exact highToLow_subBits hp h d (encoderUnits_pos cfg)

theorem encFixed_ends {d v : Byte} (output : v ∈ encFixed p.lut d) : v.getLsbD 7 = true ∧ v.getLsbD 0 = false := by
  obtain ⟨k, -, rfl⟩ := List.mem_map.1 output
  exact (highToLow_byteBits _).1 (highToLow_lutWord (paramsValid_lut hp) _)

end Conforming

/-- Settles O24: each iteration begins high and ends low, each table word is an output byte, and R130's example. -/
theorem lineLowAfterChannelByte : Obligations.LineLowAfterChannelByte := by
  unfold Obligations.LineLowAfterChannelByte
  refine ⟨fun p cfg d hp h => ?_, fun resetBytes => ?_⟩
  · obtain ⟨first, last⟩ := highToLow_encodeByte hp h d
    refine ⟨first, last, fun fixed v output => ?_⟩
    rw [encodeByte_fixed p fixed] at output
    exact encFixed_ends hp output
  · exact (by decide : encTimed ⟨1, 2, 5, 0⟩ 0xFF#8 = [0xC6#8, 0x31#8, 0x8C#8, 0x63#8, 0x18#8])

end Sys2Proof.Machine
end

section
/-! The colour sequencer (spec/42_color_sequencer.md R150 to R164): the channel bytes of a colour, how many output bytes
they yield, and what a pull does with the answer of next(). -/

namespace Sys2Proof.Machine

/-! ### Channel bytes and payload -/

/-- Settles O26: ORDER is ORDER3 or ORDER4 by the device (R150), and ORDER4 does not look at the order field. -/
theorem channelOrder : Obligations.ChannelOrder := by
  unfold Obligations.ChannelOrder
  refine fun cfg r g b w => ⟨fun three => ?_, fun four => ?_⟩
  · rw [orderColour, three]
    cases cfg.order <;> rfl
  · rw [orderColour, four]
    rfl

/-- A pixel is the frame of one colour (R164). -/
theorem pixelPayload_length {p : Params} {cfg : BlockConfig} (h : ConfigInv p cfg) (c : Colour) :
    (pixelPayload p cfg c).length = channelCount cfg.device * encodedLength cfg := by
  simpa [framePayload] using framePayload_length h [c]

/-- Settles O25: NCH is `channelCount` and L is `encodedLength`. -/
theorem payloadLength : Obligations.PayloadLength := by
  unfold Obligations.PayloadLength
  exact fun p cfg cs h => ⟨pixelPayload_length h, framePayload_length h cs⟩

/-! ### A pull -/

section Pull

variable {s : State} {b : Block}

theorem step_pull (hp : paramsValid s.params = true) (hb : s.block = some b) (hc : control b = .pull) :
    step s = pullColour b s := by
  simp [step_busy hp hb, hc]

/-- A record of the device's kind is taken with every channel of it (R162). -/
theorem pullColour_fits {r : ColourRecord} {rest : ColourSource}
    (drawn : nextColour b.cfg.device b.seq.colours = some (r, rest)) (fits : recordFits b.cfg.device r = true) :
    pullColour b s = .next (s.withSeq b { b.seq with colour := some (recordColour r), colours := rest }) := by
  simp only [pullColour, drawn, if_pos fits]

/-- A record of the other kind is refused (R154). -/
theorem pullColour_unfit {r : ColourRecord} {rest : ColourSource}
    (drawn : nextColour b.cfg.device b.seq.colours = some (r, rest)) (unfit : recordFits b.cfg.device r = false) :
    pullColour b s = .refused .colourMismatch :=
  pullColour_colourMismatch.2 ⟨r, rest, drawn, unfit⟩

theorem pullColour_none (noMore : nextColour b.cfg.device b.seq.colours = none) :
    pullColour b s = .next (coloursEnded b s) := by
  simp only [pullColour, noMore]

theorem coloursEnded_streaming (streaming : isStreaming b.cfg = true) :
    coloursEnded b s = s.withSeq b
      { b.seq with ended := true, phase := .postLatch, latchLeft := latchLength s.params b.cfg } :=
  if_pos streaming

theorem coloursEnded_bulk (bulk : isStreaming b.cfg = false) :
    coloursEnded b s = s.withSeq b
      { b.seq with ended := true, latchLeft := if isSingle b.cfg then latchLength s.params b.cfg else 0 } :=
  if_neg (by simp [bulk])

end Pull

/-! ### next() by its source -/

theorem nextColour_listed {dev : DeviceKind} {src : ColourSource} {c : Colour} {cs : List Colour}
    (listed : src = .listed (c :: cs)) : nextColour dev src = some (wordRecord dev c, .listed cs) := by
  rw [listed, nextColour]

theorem nextColour_stream {dev : DeviceKind} {src : ColourSource} {id pos : Nat} (stream : src = .stream id pos) :
    nextColour dev src = (Config.hostStream id pos).map fun r => (r, .stream id (pos + 1)) := by
  rw [stream, nextColour]
  cases Config.hostStream id pos <;> rfl

theorem colour_fits_eq_true {dev : DeviceKind} {c : Colour} :
    Colour.fits dev c = true ↔ dev = .fourChannelWithWhite ∨ c.w = 0x00#8 := by
  cases dev <;> simp [Colour.fits]

/-- Settles O28: the pull by what next() answers, a listed colour, a record of a host stream or None, and a colour by
its kind. -/
theorem pullsColours : Obligations.PullsColours := by
  unfold Obligations.PullsColours
  intro s b hp hb hc
  rw [step_pull hp hb hc]
  intro seqIs pulled mismatch none_
  have ended (noMore : pullColour b s = .next (coloursEnded b s)) : none_ :=
    ⟨fun streaming => noMore.trans (congrArg _ (coloursEnded_streaming streaming)),
      fun bulk => noMore.trans (congrArg _ (coloursEnded_bulk bulk))⟩
  refine ⟨fun c cs listed => ?_, fun listed => ended (pullColour_nil listed), fun id pos stream => ?_⟩
  · have drawn := nextColour_listed (dev := b.cfg.device) listed
    refine ⟨fun kind => ?_, fun three white => ?_⟩
    · have fits := colour_fits_eq_true.2 kind
      have taken := pullColour_fits (s := s) drawn ((record_fits _ c).trans fits)
      rwa [record_colour fits] at taken
    · exact pullColour_unfit drawn ((record_fits _ c).trans (colour_fits_eq_false.2 ⟨three, white⟩))
  · have next := nextColour_stream (dev := b.cfg.device) stream
    cases record : Config.hostStream id pos with
    | none => exact ended (pullColour_none (by rw [next, record]; rfl))
    | some r =>
      have drawn : nextColour b.cfg.device b.seq.colours = some (r, .stream id (pos + 1)) := by rw [next, record]; rfl
      cases r with
      | three red green blue =>
        exact ⟨fun three => pullColour_fits drawn (by simp [three]), fun four => pullColour_unfit drawn (by simp [four])⟩
      | four red green blue white =>
        exact ⟨fun four => pullColour_fits drawn (by simp [four]), fun three => pullColour_unfit drawn (by simp [three])⟩

end Sys2Proof.Machine
end

section
/-! The start of a WRITE, its bulk payload write and the moves between the parts of a frame (spec/43_frame_sequencer.md
R160, R161, R173, R177, R178). -/

namespace Sys2Proof.Machine

variable {s t : State} {b : Block}

/-! ### The start -/

/-- What a WRITE of these colours makes of block `b`. -/
def startedState (s : State) (b : Block) (colours : ColourSource) : State :=
  { s with block := some (startBlock s.params b colours), trace := [] }

theorem isBusy_idle (hb : s.block = some b) (idle : b.seq.phase = .idle) : isBusy s = false := by
  simp [isBusy_some hb, idle]

theorem writeColours_starts (hp : paramsValid s.params = true) (hb : s.block = some b) (idle : b.seq.phase = .idle)
    {colours : ColourSource} (fits : sourceFits b.cfg.device colours = true) :
    writeColours colours s = .next (startedState s b colours) := by
  simp [writeColours, underParams_valid hp, hb, isBusy_idle hb idle, fits, startedState]

/-- A WRITE that is accepted has colours of the device's kind, and starts. -/
theorem writeColours_next (hp : paramsValid s.params = true) (hb : s.block = some b) (idle : b.seq.phase = .idle)
    {colours : ColourSource} (hw : writeColours colours s = .next t) :
    sourceFits b.cfg.device colours = true ∧ t = startedState s b colours := by
  cases fits : sourceFits b.cfg.device colours with
  | true =>
    rw [writeColours_starts hp hb idle fits] at hw
    exact ⟨rfl, (Host.Outcome.next.inj hw).symm⟩
  | false => simp [writeColours, underParams_valid hp, hb, isBusy_idle hb idle, fits] at hw

/-- A SingleTransaction pre-latch is counted from the start (R173). -/
theorem startSeq_eq (p : Params) (cfg : BlockConfig) (colours : ColourSource) :
    startSeq p cfg colours =
      { phase := if isStreaming cfg then .payload else .encoding
        pixel := 0, chan := 0, sub := 0
        latchLeft := if isStreaming cfg = false ∧ isSingle cfg = true ∧ cfg.preLatch = true
          then latchLength p cfg else 0
        cursor := 0, inFlight := 0, enc := 0, acc := [], colour := none, colours := colours, ended := false } := by
  simp only [startSeq, Bool.and_eq_true, Bool.not_eq_true', and_assoc]

theorem sourceFits_listed {dev : DeviceKind} {cs : List Colour} (h : dev = .threeChannel → ∀ c ∈ cs, c.w = 0x00#8) :
    sourceFits dev (.listed cs) = true := by
  cases dev <;> simp_all [sourceFits, Colour.fits]

/-- Settles O27: LATCH and BLANK are WRITEs of black colours, which fit every device. -/
theorem writeStarts : Obligations.WriteStarts := by
  unfold Obligations.WriteStarts
  intro s b hp hb idle started
  have starts {colours : ColourSource} (fits : sourceFits b.cfg.device colours = true) :
      writeColours colours s = started colours := by
    rw [writeColours_starts hp hb idle fits, startedState, startBlock, startSeq_eq]
  refine ⟨fun cs kind => starts (sourceFits_listed kind), fun id pos => starts rfl, starts rfl, fun n => ?_⟩
  refine starts (sourceFits_listed fun _ c black => ?_)
  rw [List.eq_of_mem_replicate black]
  rfl

/-! ### Between the parts -/

/-- Settles O36: the write is answered Ok, and the reset mode says what follows. -/
theorem bulkPayloadWritten : Obligations.BulkPayloadWritten := by
  unfold Obligations.BulkPayloadWritten
  intro s b bytes r later hp hb hc read answered
  rw [step_bulkWrite hp hb hc, bulkWrite, read]
  simp only [transact_ok answered]
  refine ⟨fun single => ?_, fun byteAtATime => ?_⟩
  · rw [if_pos single]
    rfl
  · rw [if_neg (by simp [byteAtATime])]
    rfl

theorem step_latchDone (hp : paramsValid s.params = true) (hb : s.block = some b) (hc : control b = .latchDone) :
    step s = .next (afterLatch b s) := by
  simp [step_busy hp hb, hc]

theorem step_rendered (hp : paramsValid s.params = true) (hb : s.block = some b) (hc : control b = .rendered) :
    step s = .next (beginTransmit b s) := by
  simp [step_busy hp hb, hc]

theorem afterLatch_preLatch (pre : b.seq.phase = .preLatch) :
    afterLatch b s = s.withSeq b { b.seq with phase := .payload } := if_pos pre

theorem afterLatch_streaming (post : b.seq.phase = .postLatch) (streaming : isStreaming b.cfg = true) :
    afterLatch b s = s.withSeq b { b.seq with phase := .drain } := by
  simp [afterLatch, post, streaming]

theorem afterLatch_bulk (post : b.seq.phase = .postLatch) (bulk : isStreaming b.cfg = false) :
    afterLatch b s = endWrite .ok b s := by
  simp [afterLatch, post, bulk]

theorem beginTransmit_preLatch (byteAtATime : isSingle b.cfg = false) (pre : b.cfg.preLatch = true) :
    beginTransmit b s =
      s.withSeq b { b.seq with phase := .preLatch, latchLeft := latchLength s.params b.cfg } := by
  simp [beginTransmit, byteAtATime, pre]

theorem beginTransmit_payload (none_ : isSingle b.cfg = true ∨ b.cfg.preLatch = false) :
    beginTransmit b s = s.withSeq b { b.seq with phase := .payload } := by
  obtain single | noPre := none_
  · simp [beginTransmit, single]
  · simp [beginTransmit, noPre]

/-- Settles O38: what follows a latch, by its phase, and the rendered frame, by its reset mode. -/
theorem partsFollow : Obligations.PartsFollow := by
  unfold Obligations.PartsFollow
  refine fun s b hp hb => ⟨fun hc pre => ?_, fun hc post streaming => ?_, fun hc post bulk => ?_,
    fun hc byteAtATime pre => ?_, fun hc none_ => ?_⟩
  · rw [step_latchDone hp hb hc, afterLatch_preLatch pre]
    rfl
  · rw [step_latchDone hp hb hc, afterLatch_streaming post streaming]
    rfl
  · rw [step_latchDone hp hb hc, afterLatch_bulk post bulk]
  · rw [step_rendered hp hb hc, beginTransmit_preLatch byteAtATime pre]
    rfl
  · rw [step_rendered hp hb hc, beginTransmit_payload none_]
    rfl

end Sys2Proof.Machine
end

section
/-! The frame as it stands on the line: how many sends and reads it has, the bytes its events put there, and those of a
WRITE that failed (spec/43_frame_sequencer.md R172, R186, R204). -/

namespace Sys2Proof.Machine

variable {p : Params} {cfg : BlockConfig} {cs : List Colour}

/-! ### Counts -/

theorem exchangeEvents_sends (bytes : List Byte) :
    (bytes.flatMap exchangeEvents).countP Event.isSend = bytes.length := by
  induction bytes with
  | nil => rfl
  | cons v bytes ih => simp [exchangeEvents, List.countP_cons, Event.isSend, ih]

theorem exchangeEvents_reads (bytes : List Byte) :
    (bytes.flatMap exchangeEvents).countP Event.isRead = bytes.length := by
  induction bytes with
  | nil => rfl
  | cons v bytes ih => simp [exchangeEvents, List.countP_cons, Event.isRead, ih]

theorem wholeFrame_length (h : ConfigInv p cfg) (cs : List Colour) :
    (wholeFrame p cfg cs).length = (if cfg.preLatch then 1 else 0) * latchLength p cfg
      + cs.length * channelCount cfg.device * encodedLength cfg + latchLength p cfg := by
  simp [wholeFrame, preLatchGap_eq_replicate, framePayload_length h, latchGap]
  omega

/-- The dummy byte's send and the drain's read balance each other (R170). -/
theorem streamEvents_counts (p : Params) (cfg : BlockConfig) (cs : List Colour) :
    (streamEvents p cfg cs).countP Event.isSend = 1 + (wholeFrame p cfg cs).length
      ∧ (streamEvents p cfg cs).countP Event.isRead = 1 + (wholeFrame p cfg cs).length := by
  simp [streamEvents, List.countP_cons, exchangeEvents_sends, exchangeEvents_reads, Event.isSend, Event.isRead,
    Nat.add_comm]

/-- Settles O50: a send and a read per byte of the frame, and one pair more. -/
theorem streamingCounts : Obligations.StreamingCounts := by
  unfold Obligations.StreamingCounts
  intro p cfg cs h nch pre n
  have count : 1 + (wholeFrame p cfg cs).length = n := by
    rw [wholeFrame_length h, ← Nat.add_assoc, ← Nat.add_assoc]
    rfl
  rw [← count]
  exact streamEvents_counts p cfg cs

/-! ### The wire image -/

theorem exchangeEvents_bytes (bytes : List Byte) : (bytes.flatMap exchangeEvents).flatMap eventBytes = bytes := by
  induction bytes with
  | nil => rfl
  | cons v bytes ih => simp [exchangeEvents, eventBytes, ih]

theorem singleWrites_bytes (bytes : List Byte) :
    (bytes.map fun v => Event.write [v]).flatMap eventBytes = bytes := by
  induction bytes with
  | nil => rfl
  | cons v bytes ih => simp [eventBytes, ih]

theorem streamEvents_bytes (p : Params) (cfg : BlockConfig) (cs : List Colour) :
    (streamEvents p cfg cs).flatMap eventBytes = p.dummyByte :: wholeFrame p cfg cs := by
  simp [streamEvents, exchangeEvents_bytes, eventBytes]

theorem bulkEvents_bytes (p : Params) (cfg : BlockConfig) (cs : List Colour) :
    (bulkEvents p cfg cs).flatMap eventBytes = wholeFrame p cfg cs := by
  unfold bulkEvents
  split
  case isTrue => simp [eventBytes]
  case isFalse =>
    simp only [List.flatMap_append, List.flatMap_cons, singleWrites_bytes, eventBytes, wholeFrame, List.append_assoc]

/-- The frame's events put the frame's wire image on the line. -/
theorem frameEvents_bytes (p : Params) (cfg : BlockConfig) (cs : List Colour) :
    (frameEvents p cfg cs).flatMap eventBytes = frameWire p cfg cs := by
  unfold frameEvents frameWire
  split
  · exact streamEvents_bytes p cfg cs
  · exact bulkEvents_bytes p cfg cs

theorem wireBytes_append (first later : List (Event × Reply)) :
    wireBytes (first ++ later) = wireBytes first ++ wireBytes later := List.flatMap_append

/-- Where no event failed, every event's bytes are on the line. -/
theorem wireBytes_noneFailed {trace : List (Event × Reply)} (h : NoneFailed trace) :
    wireBytes trace = (traceEvents trace).flatMap eventBytes := by
  rw [wireBytes, traceEvents, List.flatMap_map]
  refine List.flatMap_congr fun er listed => ?_
  have answered := h er listed
  cases reply : er.2 with
  | ok | data _ => rfl
  | err e => simp [reply, Reply.isErr] at answered

theorem wireBytes_frame {trace : List (Event × Reply)} (answered : NoneFailed trace)
    (issued : traceEvents trace = frameEvents p cfg cs) : wireBytes trace = frameWire p cfg cs := by
  rw [wireBytes_noneFailed answered, issued, frameEvents_bytes]

/-- Settles O51: the frame's wire image with its dummy byte, and the sub-bits of each byte, bit 7 first. -/
theorem wireImageOfFrame : Obligations.WireImageOfFrame := by
  unfold Obligations.WireImageOfFrame
  intro p cfg cs trace answered issued gap bytes
  have wire : wireBytes trace = bytes := by
    rw [wireBytes_frame answered issued, frameWire]
    cases streaming : isStreaming cfg with
    | true => simp [bytes, streaming, wholeFrame, preLatchGap, latchGap, framePayload, gap]
    | false => simp [bytes, streaming, wholeFrame, preLatchGap, latchGap, framePayload, gap]
  refine ⟨wire, ?_⟩
  rw [wireImage, wire]
  rfl

/-! ### A WRITE that failed -/

theorem failedEvent_noneFailed {trace : List (Event × Reply)} (h : NoneFailed trace) : failedEvent trace = none := by
  unfold failedEvent
  split
  case h_1 event e last => cases h _ (List.mem_of_getLast? last)
  case h_2 => rfl

theorem failedEvent_append (before : List (Event × Reply)) (event : Event) (e : Nat) :
    failedEvent (before ++ [(event, .err e)]) = some event := by
  simp [failedEvent]

/-- What a failed event put on the line is a beginning of its own bytes (U9), and its bytes go on the frame's. -/
theorem lineMayCarry_failed {before : List (Event × Reply)} {event : Event} {e : Nat} {bytes : List Byte}
    (answered : NoneFailed before)
    (issued : traceEvents (before ++ [(event, .err e)]) <+: frameEvents p cfg cs)
    (carried : LineMayCarry (before ++ [(event, .err e)]) bytes) : bytes <+: frameWire p cfg cs := by
  rw [LineMayCarry, failedEvent_append] at carried
  obtain ⟨part, ⟨lost, hlost⟩, rfl⟩ := carried
  obtain ⟨later, hlater⟩ := issued
  refine ⟨lost ++ later.flatMap eventBytes, ?_⟩
  calc wireBytes (before ++ [(event, .err e)]) ++ part ++ (lost ++ later.flatMap eventBytes)
      = wireBytes before ++ (part ++ lost) ++ later.flatMap eventBytes := by
        rw [wireBytes_append]
        simp [wireBytes]
    _ = (traceEvents before ++ [event] ++ later).flatMap eventBytes := by
        rw [hlost, wireBytes_noneFailed answered]
        simp
    _ = frameWire p cfg cs := by
        rw [← frameEvents_bytes, ← hlater]
        simp [traceEvents]

/-- Settles O52: by the result: the whole frame, nothing, or the events before the failed one and a part of its bytes. -/
theorem lineCarriesFramePrefix : Obligations.LineCarriesFramePrefix := by
  unfold Obligations.LineCarriesFramePrefix
  intro p cfg cs o bytes ends carried
  unfold FrameEnds at ends
  split at ends
  case h_1 =>
    obtain ⟨issued, answered, -⟩ := ends
    rw [LineMayCarry, failedEvent_noneFailed answered] at carried
    rw [carried, wireBytes_frame answered issued]
  case h_2 =>
    obtain ⟨nothing, -⟩ := ends
    rw [nothing] at carried
    obtain rfl : bytes = [] := carried
    exact List.nil_prefix
  case h_3 =>
    obtain ⟨before, event, traced, -, answered, issued⟩ := ends
    rw [traced] at issued carried
    exact lineMayCarry_failed answered issued carried
  case h_4 => exact ends.elim

end Sys2Proof.Machine
end

section
/-! The phases of a WRITE (spec/43_frame_sequencer.md R188): each step keeps the phase, enters one that follows it in the
strategy's order, or ends the WRITE with an error. -/

namespace Sys2Proof.Machine

variable {s t : State} {b : Block}

/-- The step from block `b` leaves a block in an admissible phase (R188). -/
def PhaseFollows (s : State) (b : Block) (t : State) : Prop :=
  ∃ b', t.block = some b' ∧ (b'.seq.phase = b.seq.phase ∨ b'.seq.phase ∈ nextPhases b.cfg b.seq
    ∨ (b'.seq.phase = .idle ∧ ∃ o, t.observed = s.observed ++ [o] ∧ o.result ≠ .ok))

theorem phaseFollows_same {b' : Block} (hb' : t.block = some b') (same : b'.seq.phase = b.seq.phase) :
    PhaseFollows s b t := ⟨b', hb', .inl same⟩

theorem phaseFollows_next {b' : Block} (hb' : t.block = some b') (next : b'.seq.phase ∈ nextPhases b.cfg b.seq) :
    PhaseFollows s b t := ⟨b', hb', .inr (.inl next)⟩

theorem phaseFollows_error {r : Result} (error : r ≠ .ok) : PhaseFollows s b (endWrite r b s) :=
  ⟨_, rfl, .inr (.inr ⟨rfl, _, rfl, error⟩)⟩

/-- An event that is held keeps the phase, and one that fails is an error. -/
theorem transact_phaseFollows {e : Event} {next : State → State} (hb : s.block = some b)
    (go : ∀ s', PhaseFollows s b (next s')) : PhaseFollows s b (transact e b s next) := by
  refine transact_induct (phaseFollows_same hb rfl) (fun later _ => phaseFollows_same hb rfl) (fun x later _ => ?_)
    fun received later _ => go _
  exact ⟨_, rfl, .inr (.inr ⟨rfl, _, rfl, nofun⟩)⟩

theorem exchange_phaseFollows {v : Byte} {advance : Seq → Seq} (hb : s.block = some b)
    (adv : Advances s.params b advance) : PhaseFollows s b (exchange v b advance s) := by
  unfold exchange
  split
  · exact transact_phaseFollows hb fun s' => phaseFollows_same rfl (adv.phase _)
  · exact transact_phaseFollows hb fun s' => phaseFollows_same rfl rfl

theorem appendByte_phaseFollows {left : Nat} {v : Byte} {advance : Seq → Seq} (adv : Advances s.params b advance) :
    PhaseFollows s b (appendByte left v b advance s) := by
  cases fit : groupFits b.cfg b.seq.cursor (max 1 left) with
  | true =>
    rw [appendByte_fits fit]
    exact phaseFollows_same rfl (adv.phase _)
  | false =>
    rw [appendByte_full fit]
    exact phaseFollows_error nofun

theorem latchOne_phaseFollows (hb : s.block = some b) (hc : control b = .latch) :
    PhaseFollows s b (latchOne b s) := by
  have adv := advanceLatch_advances (p := s.params) hc
  unfold latchOne
  split
  · exact exchange_phaseFollows hb adv
  · split
    · exact appendByte_phaseFollows adv
    · exact transact_phaseFollows hb fun s' => phaseFollows_same rfl rfl

theorem emitByte_phaseFollows (hb : s.block = some b) (hc : control b = .emit) :
    PhaseFollows s b (emitByte b s) := by
  have adv := advancePosition_advances (p := s.params) hc
  unfold emitByte
  split
  · exact exchange_phaseFollows hb adv
  · exact appendByte_phaseFollows adv

theorem execDummyByte_phaseFollows (hp : paramsValid s.params = true) (hb : s.block = some b)
    (hc : control b = .dummy) (hs : exec .dummyByte s = .next t) : PhaseFollows s b t := by
  obtain ⟨phase, streaming, inFlight⟩ := controlAt_dummy.1 hc
  rw [show exec .dummyByte s = _ from atControl_at hp hb hc] at hs
  obtain rfl := Host.Outcome.next.inj hs
  refine transact_phaseFollows hb fun s' => ?_
  split
  case isTrue pre => exact phaseFollows_next rfl (by simp [nextPhases, phase, streaming, inFlight, pre])
  case isFalse => exact phaseFollows_same rfl rfl

theorem afterLatch_phaseFollows (hc : control b = .latchDone) : PhaseFollows s b (afterLatch b s) := by
  obtain ⟨-, pre | post⟩ := controlAt_latchDone.1 hc
  · rw [afterLatch_preLatch pre]
    exact phaseFollows_next rfl (by simp [nextPhases, pre])
  · cases streaming : isStreaming b.cfg with
    | true =>
      rw [afterLatch_streaming post streaming]
      exact phaseFollows_next rfl (by simp [nextPhases, post, streaming])
    | false =>
      rw [afterLatch_bulk post streaming]
      exact phaseFollows_next rfl (by simp [nextPhases, post, streaming])

/-- The loop over colours of a sound streaming block runs in its Payload phase, after the dummy byte. -/
theorem BlockInv.payload_of_streaming {p : Params} (h : BlockInv p b) (streaming : isStreaming b.cfg = true)
    (loop : inPayloadLoop b.cfg b.seq) : b.seq.phase = .payload ∧ b.seq.inFlight ≠ 0 := by
  obtain ⟨encoding, -⟩ | ⟨payload, -, flying⟩ := loop
  · cases streaming.symm.trans (h.bulk_of_encoding encoding)
  · exact ⟨payload, flying⟩

theorem pullColour_phaseFollows {p : Params} (h : BlockInv p b) (hc : control b = .pull)
    (hs : pullColour b s = .next t) : PhaseFollows s b t := by
  obtain ⟨r, rest, -, -, rfl⟩ | ⟨-, rfl⟩ := pullColour_next hs
  · exact phaseFollows_same rfl rfl
  · cases streaming : isStreaming b.cfg with
    | true =>
      obtain ⟨payload, flying⟩ := h.payload_of_streaming streaming (controlAt_pull.1 hc).2
      rw [coloursEnded_streaming streaming]
      exact phaseFollows_next rfl (by simp [nextPhases, payload, streaming, flying])
    | false =>
      rw [coloursEnded_bulk streaming]
      exact phaseFollows_same rfl rfl

theorem beginTransmit_phaseFollows (hc : control b = .rendered) : PhaseFollows s b (beginTransmit b s) := by
  obtain ⟨encoding, -, -⟩ := controlAt_rendered.1 hc
  unfold beginTransmit
  split
  case isTrue pre => exact phaseFollows_next rfl (by simp [nextPhases, encoding, pre])
  case isFalse none_ => exact phaseFollows_next rfl (by simp [nextPhases, encoding, none_])

theorem bulkWrite_phaseFollows (hb : s.block = some b) (hc : control b = .bulkWrite)
    (hs : bulkWrite b s = .next t) : PhaseFollows s b t := by
  obtain ⟨payload, bulk⟩ := controlAt_bulkWrite.1 hc
  unfold bulkWrite at hs
  split at hs
  case h_1 => cases hs
  case h_2 =>
    obtain rfl := Host.Outcome.next.inj hs
    refine transact_phaseFollows hb fun s' => ?_
    split
    case isTrue single => exact phaseFollows_next rfl (by simp [nextPhases, payload, bulk, single])
    case isFalse byteAtATime => exact phaseFollows_next rfl (by simp [nextPhases, payload, bulk, byteAtATime])

theorem drainRead_phaseFollows (hb : s.block = some b) (hc : control b = .drain) :
    PhaseFollows s b (drainRead b s) :=
  transact_phaseFollows hb fun _ => phaseFollows_next rfl (by simp [nextPhases, controlAt_drain.1 hc])

/-- Every step inside a WRITE follows the order. -/
theorem step_phaseFollows (hi : Inv s) (hb : s.block = some b) (busy : b.seq.phase ≠ .idle)
    (hs : step s = .next t) : PhaseFollows s b t := by
  have hp := hi.params
  rw [step_busy hp hb] at hs
  cases hc : control b with simp only [hc] at hs
  | idle => exact absurd (controlAt_idle.1 hc) busy
  | dummy => exact execDummyByte_phaseFollows hp hb hc hs
  | pull => exact pullColour_phaseFollows (hi.block b hb) hc hs
  | bulkWrite => exact bulkWrite_phaseFollows hb hc hs
  | latch => obtain rfl := Host.Outcome.next.inj hs; exact latchOne_phaseFollows hb hc
  | latchDone => obtain rfl := Host.Outcome.next.inj hs; exact afterLatch_phaseFollows hc
  | encode => obtain rfl := Host.Outcome.next.inj hs; exact phaseFollows_same rfl rfl
  | emit => obtain rfl := Host.Outcome.next.inj hs; exact emitByte_phaseFollows hb hc
  | rendered => obtain rfl := Host.Outcome.next.inj hs; exact beginTransmit_phaseFollows hc
  | drain => obtain rfl := Host.Outcome.next.inj hs; exact drainRead_phaseFollows hb hc

/-- With a pre-latch the dummy byte's step waits, fails or enters the pre-latch (R167). -/
theorem step_dummy_preLatch {b' : Block} (hp : paramsValid s.params = true) (hb : s.block = some b)
    (hb' : t.block = some b') (hs : step s = .next t) (hc : control b = .dummy) (pre : b.cfg.preLatch = true)
    (payload : b'.seq.phase = .payload) : b'.seq.inFlight = 0 := by
  obtain ⟨-, -, inFlight⟩ := controlAt_dummy.1 hc
  have held (h : s.block = some b') : b'.seq.inFlight = 0 := by
    obtain rfl := Option.some.inj (hb.symm.trans h)
    exact inFlight
  rw [step_dummy hp hb hc, show exec .dummyByte s = _ from atControl_at hp hb hc] at hs
  obtain rfl := Host.Outcome.next.inj hs
  simp only [if_pos pre] at hb'
  revert hb'
  refine transact_induct (P := fun t => t.block = some b' → b'.seq.inFlight = 0) held (fun later _ => held)
    (fun x later _ hb' => ?_) fun received later _ hb' => ?_
  · obtain rfl := Option.some.inj hb'
    cases payload
  · obtain rfl := Option.some.inj hb'
    cases payload

/-! ### A ready block -/

/-- A step of a ready block keeps Idle, or enters the first phase of a WRITE without a result. -/
theorem step_ready_phase {b' : Block} (hb : s.block = some b) (idle : b.seq.phase = .idle) (hb' : t.block = some b')
    (hs : step s = .next t) : b'.seq.phase = .idle
      ∨ (b'.seq.phase ∈ nextPhases b.cfg b.seq ∧ t.observed = s.observed) := by
  have ready := isBusy_idle hb idle
  obtain rfl | ⟨i, rest, -, hc, he⟩ := step_ready_cases ready hs
  · obtain rfl := Option.some.inj (hb.symm.trans hb')
    exact .inl idle
  · obtain ⟨f, rfl⟩ | ⟨f, clk, tp, -, rfl⟩ | ⟨cause, rfl⟩ | ⟨b₁, cs, hb₁, -, rfl⟩ :=
      exec_command (s := { s with cmds := rest }) ready hc he
    · obtain rfl := Option.some.inj hb'
      exact .inl rfl
    · obtain rfl := Option.some.inj hb'
      exact .inl rfl
    · cases hb'
    · obtain rfl := Option.some.inj (hb.symm.trans hb₁)
      obtain rfl := Option.some.inj hb'
      refine .inr ⟨?_, rfl⟩
      cases streaming : isStreaming b.cfg <;> simp [nextPhases, idle, startBlock, startSeq, streaming]

/-- Settles O39: a WRITE's step follows the order (`step_phaseFollows`) and its frame says that a result leaves the
block Idle; a ready block's step begins a WRITE or stays Idle. -/
theorem phaseOrder : Obligations.PhaseOrder := by
  unfold Obligations.PhaseOrder
  intro s t b b' hi hb hb' hs
  by_cases idle : b.seq.phase = .idle
  · obtain idle' | ⟨next, unobserved⟩ := step_ready_phase hb idle hb' hs
    · exact ⟨.inl (idle'.trans idle.symm), fun _ _ payload => (by cases idle.symm.trans payload), fun _ _ => idle'⟩
    · refine ⟨.inr (.inl next), fun _ _ payload => (by cases idle.symm.trans payload), fun o observed => ?_⟩
      simp [unobserved] at observed
  · obtain ⟨b₁, hb₁, follows⟩ := step_phaseFollows hi hb idle hs
    obtain rfl := Option.some.inj (hb'.symm.trans hb₁)
    refine ⟨follows, fun streaming pre payload inFlight => ?_, fun o observed => ?_⟩
    · exact step_dummy_preLatch hi.params hb hb' hs (controlAt_dummy.2 ⟨payload, streaming, inFlight⟩) pre
    · obtain ⟨-, -, b₁, hb₁, -, -, ⟨unobserved, -⟩ | ⟨-, -, ended, -⟩⟩ := (step_move hb idle hs).frame hb idle
      · simp [unobserved] at observed
      · obtain rfl := Option.some.inj (hb'.symm.trans hb₁)
        exact ended

end Sys2Proof.Machine
end

section
/-! A host stream that never ends (spec/43_frame_sequencer.md R162): its WRITE goes on drawing, and has not seen None, or
has ended with an error. -/

namespace Sys2Proof.Machine

variable {s t : State} {b : Block}

/-- Only a WRITE that has seen None can end in the strategy's order (R162, R173). -/
theorem BlockInv.ended_of_idle_next {p : Params} (h : BlockInv p b) (busy : b.seq.phase ≠ .idle)
    (next : .idle ∈ nextPhases b.cfg b.seq) : b.seq.ended = true := by
  cases streaming : isStreaming b.cfg with
  | true =>
    refine (h.phase.streamEnded streaming busy).2 ?_
    cases phase : b.seq.phase with simp [nextPhases, phase, streaming] at next ⊢
    | payload => split at next <;> simp_all
    | encoding => split at next <;> simp at next
  | false =>
    refine h.phase.bulkEnded streaming ?_
    cases phase : b.seq.phase with simp [nextPhases, phase, streaming] at next ⊢
    | encoding => split at next <;> simp at next
    | drain => simpa [streaming, phase] using h.phase.strategyPhase

/-- A WRITE that has not seen None does not end Ok. -/
theorem step_unended_result {o : Observation} (hi : Inv s) (hb : s.block = some b) (busy : b.seq.phase ≠ .idle)
    (unended : b.seq.ended = false) (hs : step s = .next t) (observed : t.observed = s.observed ++ [o]) :
    o.result ≠ .ok := by
  obtain ⟨-, -, b', hb', -, -, ⟨unobserved, -⟩ | ⟨-, -, idle, -⟩⟩ := (step_move hb busy hs).frame hb busy
  · simp [unobserved] at observed
  · obtain ⟨b₁, hb₁, same | next | ⟨-, o', observed', error⟩⟩ := step_phaseFollows hi hb busy hs
    all_goals obtain rfl := Option.some.inj (hb'.symm.trans hb₁)
    · exact absurd (same.symm.trans idle) busy
    · rw [idle] at next
      cases unended.symm.trans ((hi.block b hb).ended_of_idle_next busy next)
    · obtain rfl : o = o' := by simpa using observed.symm.trans observed'
      exact error

/-- No step takes back what the host has observed. -/
theorem step_observed (hs : step s = .next t) : s.observed <+: t.observed := by
  obtain ready | ⟨b, hb, busy⟩ := idle_or_busy s
  · obtain rfl | ⟨i, rest, -, hc, he⟩ := step_ready_cases ready hs
    · exact List.prefix_rfl
    · obtain ⟨f, rfl⟩ | ⟨f, clk, tp, -, rfl⟩ | ⟨cause, rfl⟩ | ⟨b, cs, -, -, rfl⟩ :=
        exec_command (s := { s with cmds := rest }) ready hc he
      · exact List.prefix_append _ _
      · exact List.prefix_append _ _
      · exact List.prefix_append _ _
      · exact List.prefix_rfl
  · obtain ⟨-, -, b', -, -, -, ⟨unobserved, -⟩ | ⟨o, observed, -⟩⟩ := (step_move hb busy hs).frame hb busy
    · rw [unobserved]
    · exact ⟨[o], observed.symm⟩

/-- A WRITE that draws from host stream `id` and has not seen None; `observed` is what came before it. -/
structure Drawing (id pos : Nat) (observed : List Observation) (s : State) (b : Block) : Prop where
  sound : Inv s
  block : s.block = some b
  busy : b.seq.phase ≠ .idle
  unended : b.seq.ended = false
  source : ∃ n, b.seq.colours = .stream id (pos + n)
  observed : s.observed = observed

/-- The WRITE has ended, and not Ok. -/
def NotOk (observed : List Observation) (s : State) : Prop :=
  ∃ o, observed ++ [o] <+: s.observed ∧ o.result ≠ .ok

theorem Drawing.step {id pos : Nat} {observed : List Observation} (h : Drawing id pos observed s b)
    (endless : ∀ n, Config.hostStream id (pos + n) ≠ none) (hs : step s = .next t) :
    (∃ b', Drawing id pos observed t b') ∨ NotOk observed t := by
  obtain ⟨hi, hb, busy, unended, ⟨n, source⟩, rfl⟩ := h
  obtain ⟨-, -, b', hb', cfg, -, ⟨unobserved, busy'⟩ | ⟨o, observed, -⟩⟩ := (step_move hb busy hs).frame hb busy
  · have hi' := stepKeepsInvariant s t hi hs
    obtain ⟨kept, ended⟩ | ⟨r, drawn, ended⟩ | ⟨none_, -⟩ := stream_step hi hb busy hs hb' unobserved
    · exact .inl ⟨b', hi', hb', busy', ended.trans unended, ⟨n, kept.trans source⟩, unobserved⟩
    · refine .inl ⟨b', hi', hb', busy', ended.trans unended, ⟨n + 1, ?_⟩, unobserved⟩
      rw [nextColour_stream source] at drawn
      obtain ⟨record, -, same⟩ := Option.map_eq_some_iff.1 drawn
      exact (Prod.mk.inj same).2.symm
    · rw [nextColour_stream source, Option.map_eq_none_iff] at none_
      exact absurd none_ (endless n)
  · exact .inr ⟨o, by rw [observed], step_unended_result hi hb busy unended hs observed⟩

theorem NotOk.step {observed : List Observation} (h : NotOk observed s) (hs : step s = .next t) : NotOk observed t := by
  obtain ⟨o, seen, error⟩ := h
  exact ⟨o, seen.trans (step_observed hs), error⟩

theorem runSteps_drawing {id pos : Nat} {observed : List Observation}
    (endless : ∀ n, Config.hostStream id (pos + n) ≠ none) {k : Nat}
    (h : (∃ b, Drawing id pos observed s b) ∨ NotOk observed s) (run : runSteps k s = .next t) : (∃ b, Drawing id pos observed t b) ∨ NotOk observed t := by
  induction k generalizing s with
  | zero =>
    obtain rfl := Host.Outcome.next.inj run
    exact h
  | succ k ih =>
    obtain ⟨s', hs, run⟩ := runSteps_succ_next run
    refine ih ?_ run
    obtain ⟨b, drawing⟩ | notOk := h
    · exact drawing.step endless hs
    · exact .inr (notOk.step hs)

/-- A WRITE of a host stream starts at the position named, with None not seen. -/
theorem drawing_started {id pos : Nat} (hi : Inv s) (hb : s.block = some b) :
    Drawing id pos s.observed (startedState s b (.stream id pos)) (startBlock s.params b (.stream id pos)) := by
  obtain ⟨sound, busy⟩ := start_inv (hi.block b hb) (cs := .stream id pos) rfl
  exact ⟨withBlock_inv (s := { s with trace := [] }) hi.params sound busy, rfl, busy, rfl, ⟨0, rfl⟩, rfl⟩

/-- Settles O49: while the stream does not end, the WRITE draws from it or has ended with an error. -/
theorem unboundedStreamNeverCompletes : Obligations.UnboundedStreamNeverCompletes := by
  unfold Obligations.UnboundedStreamNeverCompletes
  intro s s0 b id pos hi hb idle hw
  obtain ⟨-, rfl⟩ := writeColours_next hi.params hb idle hw
  by_cases ends : ∃ n, Config.hostStream id (pos + n) = none
  · exact .inl ends
  · refine .inr fun k t o run observed => ?_
    obtain ⟨b', drawing⟩ | ⟨o', seen, error⟩ :=
      runSteps_drawing (not_exists.1 ends) (.inl ⟨_, drawing_started hi hb⟩) run
    · simp [drawing.observed] at observed
    · rw [observed, List.prefix_append_right_inj] at seen
      obtain rfl : o' = o := by simpa using seen
      exact error

end Sys2Proof.Machine
end

section
/-! Frames are independent of earlier WRITEs (spec/43_frame_sequencer.md R187). -/

namespace Sys2Proof.Machine

/-- A WRITE starts the same on blocks of one configuration: its cursor is 0, so nothing of BUF is read before it is
written. -/
theorem same_started {s₁ s₂ : State} {b₁ b₂ : Block} (cfg : b₁.cfg = b₂.cfg) (params : s₁.params = s₂.params)
    (cmds : s₁.cmds = s₂.cmds) (answers : s₁.answers = s₂.answers) (colours : ColourSource) :
    Same s₁.observed s₂.observed (startedState s₁ b₁ colours) (startedState s₂ b₂ colours) where
  params := params
  cmds := cmds
  answers := answers
  trace := rfl
  block := ⟨cfg, by simp only [startBlock, params, cfg], fun i below => absurd below (Nat.not_lt_zero i)⟩
  observed := ⟨[], [], (List.append_nil _).symm, (List.append_nil _).symm, rfl⟩

/-- Settles O48: the two machines start the same (`same_started`) and stay so (`same_runs`). -/
theorem framesIndependent : Obligations.FramesIndependent := by
  unfold Obligations.FramesIndependent
  intro s₁ s₂ r₁ r₂ b₁ b₂ colours hi₁ hi₂ hb₁ hb₂ idle₁ idle₂ cfg params cmds answers hw₁ hw₂ k t₁ run
  obtain ⟨-, rfl⟩ := writeColours_next hi₁.params hb₁ idle₁ hw₁
  obtain ⟨-, rfl⟩ := writeColours_next hi₂.params hb₂ idle₂ hw₂
  obtain ⟨t₂, run₂, same⟩ := same_runs k (same_started cfg params cmds answers colours) t₁ run
  obtain ⟨later₁, later₂, observed₁, observed₂, seen⟩ := same.observed
  exact ⟨t₂, run₂, same.trace, by rw [observed₁, observed₂, List.drop_left, List.drop_left, seen]⟩

end Sys2Proof.Machine
end

section
/-! A WRITE of listed colours, followed from its start (spec/43_frame_sequencer.md R160, R167, R173 to R182): it starts
with the whole frame to issue (`writeInv_started`), and each step goes on with the frame or ends the WRITE
(`WriteInv.step_outcome`). -/

namespace Sys2Proof.Machine

variable {p : Params} {cfg : BlockConfig} {cs : List Colour} {obs : List Observation} {s t : State} {b : Block}

/-! ### The start -/

theorem pendingPayload_start (p : Params) (cfg : BlockConfig) (cs : List Colour) :
    pendingPayload p cfg (startSeq p cfg (.listed cs)) = framePayload p cfg cs := rfl

/-- A streaming WRITE starts with all its events to issue (R167). -/
theorem streamPending_start (streaming : isStreaming cfg = true) :
    streamPending p cfg (startSeq p cfg (.listed cs)) = streamEvents p cfg cs := by
  have phase : (startSeq p cfg (.listed cs)).phase = .payload := if_pos streaming
  have inFlight : (startSeq p cfg (.listed cs)).inFlight = 0 := rfl
  simp only [streamPending, phase, inFlight, if_true, pendingPayload_start, streamEvents, wholeFrame]

theorem startSeq_encoding (p : Params) (bulk : isStreaming cfg = false) (colours : ColourSource) :
    (startSeq p cfg colours).phase = .encoding := by
  simp [startSeq, bulk]

/-- A bulk WRITE starts with all its events to issue (R177, R178). -/
theorem bulkPending_start (bulk : isStreaming cfg = false) :
    bulkPending p cfg (startSeq p cfg (.listed cs)) (bufferImage p cfg cs) = bulkEvents p cfg cs := by
  simp only [bulkPending, startSeq_encoding p bulk]
  cases single : isSingle cfg <;> simp [bulkEvents, bufferImage, single]

/-- A bulk WRITE starts with its whole image to render (R173). -/
theorem pendingImage_start (bulk : isStreaming cfg = false) :
    pendingImage p cfg (startSeq p cfg (.listed cs)) = bufferImage p cfg cs := by
  have ended : (startSeq p cfg (.listed cs)).ended = false := rfl
  rw [pendingImage, pendingPayload_start, ended]
  cases single : isSingle cfg with
  | false => simp [startSeq, bufferImage, single]
  | true =>
    cases pre : cfg.preLatch <;> simp [startSeq, bufferImage, bulk, single, pre, wholeFrame, preLatchGap, latchGap]

theorem writeInv_started (hi : Inv s) (hb : s.block = some b) (fits : sourceFits b.cfg.device (.listed cs) = true) :
    WriteInv s.params b.cfg cs s.observed (startedState s b (.listed cs)) := by
  obtain ⟨sound, busy⟩ := start_inv (hi.block b hb) fits
  refine ⟨withBlock_inv (s := { s with trace := [] }) hi.params sound busy, rfl, rfl,
    ⟨startBlock s.params b (.listed cs), rfl, rfl, busy, fun c colour => (by cases colour), ⟨cs, rfl⟩,
      streamPending_start, fun bulk => ⟨bulkPending_start bulk, [], rfl, fun _ => ⟨pendingImage_start bulk, rfl⟩,
        fun transmitting => absurd (startSeq_encoding _ bulk _) transmitting⟩⟩,
    nofun⟩

/-! ### What is issued -/

theorem WriteInv.busy (hw : WriteInv p cfg cs obs s) : ∃ b, s.block = some b ∧ b.cfg = cfg ∧ b.seq.phase ≠ .idle := by
  obtain ⟨b, hb, same, busy, -⟩ := hw.block
  exact ⟨b, hb, same, busy⟩

/-- What is issued is a beginning of the frame. -/
theorem WriteInv.issued (hw : WriteInv p cfg cs obs s) : traceEvents s.trace <+: frameEvents p cfg cs := by
  obtain ⟨b, -, -, -, -, -, stream, bulk⟩ := hw.block
  unfold frameEvents
  cases streaming : isStreaming cfg with
  | true => exact ⟨_, stream streaming⟩
  | false => exact ⟨_, (bulk streaming).1⟩

/-- Once the Encoding phase is over, BUF holds the rendered frame, and the cursor is its length (R173, R176). -/
theorem WriteInv.rendered (hw : WriteInv p cfg cs obs s) (bulk : isStreaming cfg = false) (hb : s.block = some b)
    (left : b.seq.phase ≠ .encoding) : b.seq.cursor = minCapacity p cfg cs.length
      ∧ memReadRange b.buf 0 b.seq.cursor = some (bufferImage p cfg cs) := by
  obtain ⟨b', hb', rfl, -, -, -, -, rendered⟩ := hw.block
  obtain rfl := Option.some.inj (hb'.symm.trans hb)
  obtain ⟨-, image, read, -, whole⟩ := rendered bulk
  obtain rfl := whole left
  have config := hw.params ▸ (hw.inv.block b' hb').config
  exact ⟨by rw [← bufferImage_length config, memReadRange_length read], read⟩

/-! ### One step -/

/-- The WRITE has ended in `t` with observation `o`. -/
structure WriteEnded (p : Params) (cfg : BlockConfig) (cs : List Colour) (obs : List Observation) (t : State)
    (o : Observation) : Prop where
  observed : t.observed = obs ++ [o]
  idle : ∃ b, t.block = some b ∧ b.cfg = cfg ∧ b.seq.phase = .idle
  frame : FrameEnds p cfg cs o

theorem WriteEnded.ready {o : Observation} (h : WriteEnded p cfg cs obs t o) : isBusy t = false := by
  obtain ⟨b, hb, -, idle⟩ := h.idle
  exact isBusy_idle hb idle

/-- A WRITE of listed colours always has a next state (R206), which goes on with the frame or ends the WRITE. -/
theorem WriteInv.step_outcome (hw : WriteInv p cfg cs obs s) : ∃ t, step s = .next t ∧ t.cmds = s.cmds
    ∧ (WriteInv p cfg cs obs t ∨ ∃ o, WriteEnded p cfg cs obs t o) := by
  obtain ⟨b, hb, rfl, busy, -, ⟨l, listed⟩, -⟩ := hw.block
  obtain ⟨t, hs⟩ | ⟨-, -, id, pos, r, stream, -⟩ := step_busy_next_or_refused hw.inv hb busy
  · obtain ⟨-, cmds, b', hb', cfg, -, outcome⟩ := (step_move hb busy hs).frame hb busy
    refine ⟨t, hs, cmds, (step_progress hw (stepKeepsInvariant s t hw.inv hs) hs).imp_right ?_⟩
    rintro ⟨o, observed, ends⟩
    obtain ⟨unobserved, -⟩ | ⟨-, -, idle, -⟩ := outcome
    · simp [unobserved, hw.observed] at observed
    · exact ⟨o, observed, ⟨b', hb', cfg, idle⟩, ends⟩
  · cases listed.symm.trans stream

/-- The WRITE follows its frame for ever, or until it ends. -/
theorem WriteInv.run_outcome (hw : WriteInv p cfg cs obs s) (k : Nat) :
    (∃ t, runSteps k s = .next t ∧ WriteInv p cfg cs obs t)
      ∨ ∃ j t o, j ≤ k ∧ runSteps j s = .next t ∧ t.cmds = s.cmds ∧ WriteEnded p cfg cs obs t o := by
  induction k generalizing s with
  | zero => exact .inl ⟨s, rfl, hw⟩
  | succ k ih =>
    obtain ⟨s', hs, cmds, goesOn | ⟨o, ended⟩⟩ := hw.step_outcome
    · obtain ⟨t, run, hw'⟩ | ⟨j, t, o, le, run, cmds', ended⟩ := ih goesOn
      · exact .inl ⟨t, by rw [runSteps_succ hs, run], hw'⟩
      · exact .inr ⟨j + 1, t, o, Nat.succ_le_succ le, by rw [runSteps_succ hs, run], cmds'.trans cmds, ended⟩
    · exact .inr ⟨1, s', o, by omega, by rw [runSteps_succ hs]; rfl, cmds, ended⟩

/-- Settles O45: the WRITE starts with its frame to issue and follows it (`WriteInv.run_outcome`). -/
theorem everyFrameEndsWell : Obligations.EveryFrameEndsWell := by
  unfold Obligations.EveryFrameEndsWell
  intro s s0 b cs hi hb idle start k
  obtain ⟨fits, rfl⟩ := writeColours_next hi.params hb idle start
  obtain ⟨t, run, hw⟩ | ⟨j, t, o, le, run, cmds, ended⟩ := (writeInv_started hi hb fits).run_outcome k
  · obtain ⟨b', hb', -, busy⟩ := hw.busy
    exact .inl ⟨t, run, hw.observed, by simp [isBusy_some hb', busy], hw.answered, hw.issued⟩
  · exact .inr ⟨j, t, o, le, run, ended.observed, ended.ready, cmds, ended.frame⟩

end Sys2Proof.Machine
end

section
/-! A WRITE whose events are answered (spec/43_frame_sequencer.md R167, R177 to R182): each step that goes on leaves fewer
steps (`WriteInv.stepsLeft_lt`), so the WRITE ends (`runSteps_reaches`). -/

namespace Sys2Proof.Machine

variable {p : Params} {cfg : BlockConfig} {cs : List Colour} {obs : List Observation} {s t : State} {b : Block}

/-! ### Nearer to the end -/

/-- A bound on the steps that a WRITE of listed colours has left: its moves, and the answers that may hold it. -/
def stepsLeft (s : State) : Nat :=
  match s.block with
  | none => 0
  | some b => work (latchLength s.params b.cfg) b.cfg b.seq + s.answers.length

theorem stepsLeft_some (hb : s.block = some b) :
    stepsLeft s = work (latchLength s.params b.cfg) b.cfg b.seq + s.answers.length := by
  simp [stepsLeft, hb]

/-- What a step takes of the answers: none; an Ok, with its event listed; or a NotReady, which lists nothing (R80, R180). -/
inductive TakesAnswer (s t : State) : Prop
  | none_ (answers : t.answers = s.answers) (trace : t.trace = s.trace)
  | ok {r : Byte} {er : Event × Reply} (answers : s.answers = .ok r :: t.answers) (trace : t.trace = s.trace ++ [er])
  | notReady (answers : s.answers = .notReady :: t.answers) (trace : t.trace = s.trace)

/-- A step that goes on with the WRITE, and finds an answer if it issues an event, leaves fewer steps. -/
theorem WriteInv.stepsLeft_lt (hw : WriteInv p cfg cs obs s) (hw' : WriteInv p cfg cs obs t)
    (hs : step s = .next t)
    (answered : ∀ b e, s.block = some b → pendingEvent p b = some e → s.answers ≠ []) :
    stepsLeft t < stepsLeft s ∧ TakesAnswer s t := by
  obtain ⟨b, hb, rfl, -⟩ := hw.busy
  obtain ⟨b', hb', cfg, -⟩ := hw'.busy
  rw [stepsLeft_some hb, stepsLeft_some hb', hw.params, hw'.params, cfg]
  obtain ⟨less, ⟨answers, trace⟩ | ⟨r, er, answers, trace⟩⟩ | ⟨⟨e, due⟩, rfl, trace, notReady | unanswered⟩ :=
    work_step hw hb hs hb' (hw'.observed.trans hw.observed.symm)
  · exact ⟨by rw [answers]; omega, .none_ answers trace⟩
  · exact ⟨by rw [answers, List.length_cons]; omega, .ok answers trace⟩
  · exact ⟨by rw [notReady, List.length_cons]; omega, .notReady notReady trace⟩
  · exact absurd unanswered (answered _ e hb due)

/-- A run whose every state in `P` has a next one that is the goal, or in `P` with a smaller measure, gets to the goal. -/
theorem runSteps_reaches {P goal : State → Prop} (measure : State → Nat)
    (progress : ∀ s, P s → ∃ t, step s = .next t ∧ (goal t ∨ (P t ∧ measure t < measure s))) {s : State} (start : P s) :
    ∃ k t, runSteps k s = .next t ∧ goal t := by
  induction h : measure s using Nat.strong_induction_on generalizing s with
  | h n ih =>
    obtain ⟨s', hs, reached | ⟨goesOn, less⟩⟩ := progress s start
    · exact ⟨1, s', by rw [runSteps_succ hs]; rfl, reached⟩
    · obtain ⟨k, t, run, reached⟩ := ih _ (h ▸ less) goesOn rfl
      exact ⟨k + 1, t, by rw [runSteps_succ hs, run], reached⟩

/-! ### Enough answers -/

/-- A WRITE with enough answers Ok, none Err, and room for its frame. -/
structure CanComplete (p : Params) (cfg : BlockConfig) (cs : List Colour) (obs : List Observation) (cmds : List Word)
    (s : State) : Prop where
  write : WriteInv p cfg cs obs s
  noError : ∀ a ∈ s.answers, a.isErr = false
  enough : (frameEvents p cfg cs).length ≤ s.trace.length + s.answers.countP Answer.isOk
  cmds : s.cmds = cmds

/-- The WRITE has ended Ok with nothing in flight. -/
structure Completed (p : Params) (cfg : BlockConfig) (cs : List Colour) (obs : List Observation) (cmds : List Word)
    (t : State) : Prop where
  ended : ∃ o, WriteEnded p cfg cs obs t o ∧ o.result = .ok
  balanced : ∃ b, t.block = some b ∧ b.seq.inFlight = 0
  cmds : t.cmds = cmds

theorem CanComplete.answered {cmds : List Word} (h : CanComplete p cfg cs obs cmds s) (b : Block) (e : Event)
    (hb : s.block = some b) (due : pendingEvent p b = some e) : s.answers ≠ [] := by
  intro unanswered
  have left := event_due h.write hb due
  have enough := h.enough
  rw [unanswered, List.countP_nil] at enough
  omega

theorem CanComplete.takes {cmds : List Word} (h : CanComplete p cfg cs obs cmds s) (hw : WriteInv p cfg cs obs t)
    (kept : t.cmds = s.cmds) (takes : TakesAnswer s t) : CanComplete p cfg cs obs cmds t := by
  obtain ⟨-, noError, enough, rfl⟩ := h
  obtain ⟨answers, trace⟩ | ⟨answers, trace⟩ | ⟨answers, trace⟩ := takes
  · exact ⟨hw, by rwa [answers], by rwa [answers, trace], kept⟩
  · rw [answers] at noError enough
    refine ⟨hw, fun a listed => noError a (List.mem_cons_of_mem _ listed), ?_, kept⟩
    simp only [List.countP_cons, Answer.isOk, if_true] at enough
    rw [trace, List.length_append, List.length_singleton]
    omega
  · rw [answers] at noError enough
    refine ⟨hw, fun a listed => noError a (List.mem_cons_of_mem _ listed), ?_, kept⟩
    simpa [List.countP_cons, Answer.isOk, trace] using enough

/-- It cannot end with an error: the frame fits, and no event fails. -/
theorem CanComplete.result {cmds : List Word} {o : Observation} (h : CanComplete p cfg cs obs cmds s)
    (room : ∀ capacity, bufferCapacity cfg = some capacity → minCapacity p cfg cs.length ≤ capacity)
    (hs : step s = .next t) (ended : WriteEnded p cfg cs obs t o) :
    o.result = .ok ∧ ∃ b, t.block = some b ∧ b.seq.inFlight = 0 := by
  obtain ⟨b, hb, -, busy⟩ := h.write.busy
  obtain ⟨balanced, failed⟩ := end_cases h.write.inv hb busy hs (h.write.observed.symm ▸ ended.observed)
  have ends := ended.frame
  unfold FrameEnds at ends
  split at ends
  case h_1 ok => exact ⟨ok, balanced ok⟩
  case h_2 =>
    obtain ⟨-, capacity, bounded, small⟩ := ends
    exact absurd (room capacity bounded) (by omega)
  case h_3 kind e error =>
    obtain ⟨⟨later, answers⟩, -⟩ := failed kind e error
    cases h.noError (.err e) (by rw [answers]; exact List.mem_cons_self)
  case h_4 => exact ends.elim

theorem CanComplete.progress {cmds : List Word} (h : CanComplete p cfg cs obs cmds s)
    (room : ∀ capacity, bufferCapacity cfg = some capacity → minCapacity p cfg cs.length ≤ capacity) :
    ∃ t, step s = .next t
      ∧ (Completed p cfg cs obs cmds t ∨ (CanComplete p cfg cs obs cmds t ∧ stepsLeft t < stepsLeft s)) := by
  obtain ⟨t, hs, kept, hw | ⟨o, ended⟩⟩ := h.write.step_outcome
  · obtain ⟨less, takes⟩ := h.write.stepsLeft_lt hw hs h.answered
    exact ⟨t, hs, .inr ⟨h.takes hw kept takes, less⟩⟩
  · obtain ⟨ok, balanced⟩ := h.result room hs ended
    exact ⟨t, hs, .inl ⟨⟨o, ended, ok⟩, balanced, kept.trans h.cmds⟩⟩

/-- Settles O46: each step leaves fewer steps and as many answers Ok as the frame needs, so the WRITE ends, and Ok. -/
theorem frameCompletes : Obligations.FrameCompletes := by
  unfold Obligations.FrameCompletes
  intro s s0 b cs hi hb idle start noError enough room
  obtain ⟨fits, rfl⟩ := writeColours_next hi.params hb idle start
  have can : CanComplete s.params b.cfg cs s.observed s.cmds (startedState s b (.listed cs)) :=
    ⟨writeInv_started hi hb fits, noError, Nat.le_add_left_of_le enough, rfl⟩
  obtain ⟨k, t, run, ⟨o, ended, ok⟩, ⟨b', hb', balanced⟩, cmds⟩ :=
    runSteps_reaches stepsLeft (fun _ h => CanComplete.progress h room) can
  obtain ⟨b₁, hb₁, cfg, idle'⟩ := ended.idle
  obtain rfl := Option.some.inj (hb'.symm.trans hb₁)
  have ends := ended.frame
  rw [FrameEnds, ok] at ends
  exact ⟨k, t, b', o, run, hb', idle', cfg, balanced, cmds, ended.observed, ok, ends.1⟩

end Sys2Proof.Machine
end

section
/-! The Encoding phase of a bounded buffer (spec/43_frame_sequencer.md R173, R176): it issues no event, so it ends whatever
the transport answers, with the frame rendered or out of bounds. -/

namespace Sys2Proof.Machine

variable {p : Params} {cfg : BlockConfig} {cs : List Colour} {obs : List Observation} {s t : State} {b : Block}

/-- A WRITE in its Encoding phase. -/
structure Encoding (p : Params) (cfg : BlockConfig) (cs : List Colour) (obs : List Observation)
    (answers : List Answer) (s : State) : Prop where
  write : WriteInv p cfg cs obs s
  phase : ∃ b, s.block = some b ∧ b.seq.phase = .encoding
  answers : s.answers = answers

/-- The Encoding phase is over: the frame is rendered, or did not fit (R176). -/
inductive EncodingOver (p : Params) (cfg : BlockConfig) (cs : List Colour) (obs : List Observation)
    (answers : List Answer) (t : State) : Prop
  | rendered {b : Block} (write : WriteInv p cfg cs obs t) (hb : t.block = some b) (left : b.seq.phase ≠ .encoding)
  | full {o : Observation} (ended : WriteEnded p cfg cs obs t o) (result : o.result = .outOfBounds)
      (answers : t.answers = answers)

/-- The Encoding phase of a sound block issues no event (R173). -/
theorem pendingEvent_encoding {q : Params} (h : BlockInv q b) (encoding : b.seq.phase = .encoding) :
    pendingEvent p b = none := by
  have bulk := h.bulk_of_encoding encoding
  unfold pendingEvent
  cases hc : control b with simp only [bulk, encoding, Bool.false_eq_true, if_true, if_false]
  | dummy => cases encoding.symm.trans (controlAt_dummy.1 hc).1
  | bulkWrite => cases encoding.symm.trans (controlAt_bulkWrite.1 hc).1
  | drain => cases encoding.symm.trans (controlAt_drain.1 hc)

/-- A WRITE that ends in its Encoding phase is out of bounds: None is not its end, and no event can fail. -/
theorem Encoding.result {answers : List Answer} {o : Observation} (h : Encoding p cfg cs obs answers s)
    (hs : step s = .next t) (ended : WriteEnded p cfg cs obs t o) : o.result = .outOfBounds := by
  obtain ⟨b, hb, encoding⟩ := h.phase
  have busy : b.seq.phase ≠ .idle := by simp [encoding]
  have noEvent := pendingEvent_encoding (p := s.params) (h.write.inv.block b hb) encoding
  obtain ⟨b₁, hb₁, -, idle⟩ := ended.idle
  have observed : t.observed = s.observed ++ [o] := h.write.observed.symm ▸ ended.observed
  have ends := ended.frame
  unfold FrameEnds at ends
  split at ends
  case h_1 ok =>
    obtain ⟨b', hb', same | next | ⟨-, o', observed', error⟩⟩ := step_phaseFollows h.write.inv hb busy hs
    all_goals obtain rfl := Option.some.inj (hb'.symm.trans hb₁)
    · exact absurd (same.symm.trans idle) busy
    · rw [idle] at next
      simp only [nextPhases, encoding] at next
      split at next <;> simp at next
    · obtain rfl : o = o' := by simpa using observed.symm.trans observed'
      exact absurd ok error
  case h_2 full => exact full
  case h_3 kind e error =>
    obtain ⟨-, failed⟩ := end_cases h.write.inv hb busy hs observed
    obtain ⟨-, event, due⟩ := failed kind e error
    cases noEvent.symm.trans due
  case h_4 => exact ends.elim

theorem Encoding.progress {answers : List Answer} (h : Encoding p cfg cs obs answers s) :
    ∃ t, step s = .next t ∧ (EncodingOver p cfg cs obs answers t
      ∨ (Encoding p cfg cs obs answers t ∧ stepsLeft t < stepsLeft s)) := by
  obtain ⟨b, hb, encoding⟩ := h.phase
  have hB := h.write.inv.block b hb
  obtain ⟨t, hs, -, outcome⟩ := h.write.step_outcome
  have kept : t.answers = answers :=
    ((step_move hb (by simp [encoding]) hs).answers (pendingEvent_encoding hB encoding)).trans h.answers
  refine ⟨t, hs, ?_⟩
  obtain hw | ⟨o, ended⟩ := outcome
  · obtain ⟨b', hb', -, -⟩ := hw.busy
    by_cases encoding' : b'.seq.phase = .encoding
    · refine .inr ⟨⟨hw, ⟨b', hb', encoding'⟩, kept⟩, (h.write.stepsLeft_lt hw hs fun b₁ e hb₁ due => ?_).1⟩
      obtain rfl := Option.some.inj (hb.symm.trans hb₁)
      cases (pendingEvent_encoding hB encoding).symm.trans due
    · exact .inl (.rendered hw hb' encoding')
  · exact .inl (.full ended (h.result hs ended) kept)

theorem bulk_of_prerendered {capacity : Word} (h : cfg.strategy = .prerendered capacity) : isStreaming cfg = false := by
  simp [isStreaming, h]

theorem bufferCapacity_prerendered {capacity : Word} (h : cfg.strategy = .prerendered capacity) :
    bufferCapacity cfg = some capacity.toNat := by
  simp [bufferCapacity, h]

/-- Settles O47: the Encoding phase ends without an answer; rendered, its cursor is MINCAP and within the capacity, and
out of bounds, the capacity is below MINCAP. -/
theorem minimumCapacity : Obligations.MinimumCapacity := by
  unfold Obligations.MinimumCapacity
  intro s s0 b cs capacity hi hb idle prerendered start nch pre mincap
  have bulk := bulk_of_prerendered prerendered
  have bounded := bufferCapacity_prerendered prerendered
  have minimum : minCapacity s.params b.cfg cs.length = mincap := by
    unfold minCapacity isSingle mincap
    cases b.cfg.resetMode <;> rfl
  obtain ⟨fits, rfl⟩ := writeColours_next hi.params hb idle start
  have encoding : Encoding s.params b.cfg cs s.observed s.answers (startedState s b (.listed cs)) :=
    ⟨writeInv_started hi hb fits, ⟨_, rfl, startSeq_encoding _ bulk _⟩, rfl⟩
  obtain ⟨k, t, run, ⟨hw, hb', left⟩ | ⟨ended, full, kept⟩⟩ :=
    runSteps_reaches stepsLeft (fun _ h => Encoding.progress h) encoding
  case rendered b' =>
    obtain ⟨cursor, image⟩ := hw.rendered bulk hb' left
    obtain ⟨b₁, hb₁, cfg, busy⟩ := hw.busy
    obtain rfl := Option.some.inj (hb'.symm.trans hb₁)
    have fitted := (hw.inv.block b' hb').buffer.cursorFits capacity.toNat (cfg ▸ bounded)
    rw [cursor, minimum] at fitted
    exact ⟨fun _ => ⟨k, t, b', run, hb', busy, left, hw.observed, cursor.trans minimum, image⟩, fun small => by omega⟩
  case full o =>
    have ends := ended.frame
    rw [FrameEnds, full] at ends
    obtain ⟨nothing, capacity', bounded', small⟩ := ends
    obtain rfl := Option.some.inj (bounded.symm.trans bounded')
    rw [minimum] at small
    exact ⟨fun enough => by omega, fun _ => ⟨k, t, o, run, ended.observed, full, nothing, kept⟩⟩

end Sys2Proof.Machine
end

section
/-! Power-on and the unconstructed block (spec/10_state.md R42; spec/70_reset_and_hazards.md R231): there is no block until a
construction succeeds, and a construction does not look at the block it replaces. -/

namespace Sys2Proof.Machine

variable {s : State}

/-! ### Without a block -/

theorem isBusy_none (hb : s.block = none) : isBusy s = false := by
  rw [isBusy, hb]

theorem writeColours_unconstructed (hp : paramsValid s.params = true) (hb : s.block = none) (colours : ColourSource) :
    writeColours colours s = .refused .unconstructed := by
  rw [writeColours, underParams_valid hp, hb]

/-! ### A construction on a block that is not busy -/

section Ready

variable (hp : paramsValid s.params = true) (ready : isBusy s = false)
include hp ready

/-- A NEW_TIMED that is not refused as busy ends, with a block or without one (R112). -/
theorem newTimed_next (f : NewFields) (clk : Word) : ∃ t, newTimed f clk s = .next t := by
  cases derived : timingDerive s.params clk.toNat with
  | error cause => exact ⟨_, newTimed_error hp ready derived f⟩
  | ok tp => exact ⟨_, newTimed_ok hp ready derived f⟩

/-- Nothing of an idle block enters the one that NEW_FIXED makes. -/
theorem newFixed_dropBlock (f : NewFields) : newFixed f s = newFixed f { s with block := none } := by
  rw [newFixed_ready hp ready, newFixed_ready (s := { s with block := none }) hp (isBusy_none rfl)]
  rfl

/-- Nothing of an idle block enters the one that NEW_TIMED makes, and none is left where it fails. -/
theorem newTimed_dropBlock (f : NewFields) (clk : Word) :
    newTimed f clk s = newTimed f clk { s with block := none } := by
  have ready' : isBusy { s with block := none } = false := isBusy_none rfl
  cases derived : timingDerive s.params clk.toNat with
  | error cause =>
    rw [newTimed_error hp ready derived, newTimed_error (s := { s with block := none }) hp ready' derived]
  | ok tp =>
    rw [newTimed_ok hp ready derived, newTimed_ok (s := { s with block := none }) hp ready' derived]
    rfl

end Ready

/-- Settles O15: without a block a WRITE is refused and a construction is not, and a construction on an idle block is the
one on no block. -/
theorem unconstructedBlock : Obligations.UnconstructedBlock := by
  unfold Obligations.UnconstructedBlock
  refine ⟨rfl, fun s hp => ⟨fun hb => ?_, fun ready f clk => ?_⟩⟩
  · have ready := isBusy_none hb
    have refuses := writeColours_unconstructed hp hb
    exact ⟨refuses, refuses _, fun _ => refuses _, fun f => ⟨_, newFixed_ready hp ready f⟩, newTimed_next hp ready⟩
  · exact ⟨fun cause failed => ⟨_, newTimed_error hp ready failed f, rfl⟩, newFixed_dropBlock hp ready f,
      newTimed_dropBlock hp ready f clk⟩

/-! ### Power-on -/

/-- Settles O43: the reference parameters are admitted, and there is neither a block nor an event. -/
theorem resetInvariant : Obligations.ResetInvariant := by
  unfold Obligations.ResetInvariant
  have sound : Inv State.reset :=
    { params := by decide
      block := fun _ hb => nomatch hb
      trace := fun _ => rfl }
  exact ⟨sound, rfl, rfl⟩

end Sys2Proof.Machine
end
